-- ==== Sys2Proof/Word.lean ====
section
/-! DEFINITION. The bit-vector types of the block: the host bus word, a mode measurement, a framebuffer
byte and a pixel (spec/00_scope.md R2: RW = AW = FCW = 32, MFW = 16, BPP = 4). -/

namespace Sys2Proof

/-- A host-visible register, a command word or a framebuffer address: RW = AW = 32 bits (R2). -/
abbrev Word := BitVec 32

/-- A DisplayMode measurement field: MFW = 16 bits (R2). -/
abbrev Half := BitVec 16

/-- One location of the framebuffer address space (R24). -/
abbrev Byte := BitVec 8

/-- One pixel: BPP = 4 bits (R2). -/
abbrev Nibble := BitVec 4

end Sys2Proof
end

