-- ==== Sys2Proof/Machine/Mode.lean ====
section
/-! DEFINITION. The mode registers and the quantities derived from them (spec/00_scope.md R3,
spec/10_state.md R6). -/

namespace Sys2Proof

/-- REG[0x00] to REG[0x0B]: the twelve fields of the DisplayMode, the two polarities sharing MODE_POL,
and the `bpp` argument of `configure` (R6, R7). -/
structure ModeRegs where
  /-- MODE_HA, active width in pixels. -/
  ha : Half
  /-- MODE_HFP, horizontal front porch in pixels. -/
  hfp : Half
  /-- MODE_HS, horizontal sync pulse width in pixels. -/
  hs : Half
  /-- MODE_HBP, horizontal back porch in pixels. -/
  hbp : Half
  /-- MODE_VA, active height in lines. -/
  va : Half
  /-- MODE_VFP, vertical front porch in lines. -/
  vfp : Half
  /-- MODE_VS, vertical sync pulse width in lines. -/
  vs : Half
  /-- MODE_VBP, vertical back porch in lines. -/
  vbp : Half
  /-- MODE_CLKNUM, numerator of the pixel-clock ratio. -/
  num : Half
  /-- MODE_CLKDEN, denominator of the pixel-clock ratio. -/
  den : Half
  /-- MODE_POL: bit 0 HPOL, bit 1 VPOL; 1 = active high. -/
  pol : BitVec 2
  /-- MODE_BPP, the `bpp` argument of `configure`. -/
  bpp : BitVec 6
  deriving DecidableEq, Repr

/-- One row of the OPEN parameter ModeTable: a named DisplayMode (spec/40_configure.md R51). -/
structure Preset where
  name : String
  mode : ModeRegs
  deriving DecidableEq, Repr

/-- HPOL: MODE_POL bit 0 (R6). -/
def ModeRegs.hpol (m : ModeRegs) : Bool := m.pol.getLsbD 0

/-- VPOL: MODE_POL bit 1 (R6). -/
def ModeRegs.vpol (m : ModeRegs) : Bool := m.pol.getLsbD 1

/-- HT = HS + HBP + HA + HFP: pixel periods per line (R3). -/
def ModeRegs.ht (m : ModeRegs) : Nat := m.hs.toNat + m.hbp.toNat + m.ha.toNat + m.hfp.toNat

/-- VT = VS + VBP + VA + VFP: lines per frame (R3). -/
def ModeRegs.vt (m : ModeRegs) : Nat := m.vs.toNat + m.vbp.toNat + m.va.toNat + m.vfp.toNat

/-- HA0 = HS + HBP: the first active pixel position of a line (R3). -/
def ModeRegs.ha0 (m : ModeRegs) : Nat := m.hs.toNat + m.hbp.toNat

/-- HA1 = HA0 + HA: one past the last active pixel position (R3). -/
def ModeRegs.ha1 (m : ModeRegs) : Nat := m.ha0 + m.ha.toNat

/-- VA0 = VS + VBP: the first active line (R3). -/
def ModeRegs.va0 (m : ModeRegs) : Nat := m.vs.toNat + m.vbp.toNat

/-- VA1 = VA0 + VA: one past the last active line (R3). -/
def ModeRegs.va1 (m : ModeRegs) : Nat := m.va0 + m.va.toNat

/-- LB = HA * BPP / 8 with BPP = 4: bytes scanned out per framebuffer line (R3, R65). -/
def ModeRegs.lb (m : ModeRegs) : Nat := m.ha.toNat * 4 / 8

/-- FRAME_PX = HT * VT: pixel periods per frame (R3). -/
def ModeRegs.framePx (m : ModeRegs) : Nat := m.ht * m.vt

/-- B = (VFP + VS + VBP) * HT: the service window in pixel periods (spec/70_reset_and_hazards.md R110, R112). -/
def ModeRegs.serviceWindow (m : ModeRegs) : Nat := (m.vfp.toNat + m.vs.toNat + m.vbp.toNat) * m.ht

end Sys2Proof
end

