-- ==== Sys2Proof/Config.lean ====
section
/-! DEFINITION. The OPEN parameters of spec/00_scope.md R2 and the free values. Every opaque constant
here has no body, so that nothing can be proved of its value: what is proved of the model holds for
every value the constraint admits (R2, R105). -/

namespace Sys2Proof.Config

/-- The generator's valid divider range on ratios whose two parts are not zero (OPEN, R2 ValidRatio; log 8). -/
opaque ratioInRange : Half → Half → Bool

/-- ValidRatio(num, den): false when either is 0, else open (R2). -/
def validRatio (num den : Half) : Bool := num != 0 && (den != 0 && ratioInRange num den)

/-- What FQ_CAP exceeds its lower bound by (OPEN, R2; log 9). -/
opaque fqCapExtra : Nat

/-- FQ_CAP: the capacity of the fetch queue in bytes, any natural of at least 8 (R2, R14). -/
def fqCap : Nat := 8 + fqCapExtra

/-- COHERENT: whether a host write to memory is at once visible to the DMA reader (OPEN, R2; log 10). -/
opaque coherent : Bool

/-- The draw `reset_ack_clears`, by draw number: one per CONFIGURE that reaches the handshake (R46; log 7). -/
opaque resetAckClears : Nat → Bool

/-- The value of an active pixel that has no data, by draw number: one per such pixel period (R60; log 7). -/
opaque pixelDraw : Nat → Nibble

/-- Which candidate byte a non-coherent read sees, by draw number and address (R28;
log 10). -/
opaque visibleChoice : Nat → Nat → Nat

/-- Which enabled agent moves when the schedule names none, by draw number (R4, R101; log 3). -/
opaque agentChoice : Nat → Nat

/-- The rows ModeTable is made of (OPEN, R2, R51); `modeTable` in Machine/Configure.lean keeps the valid
ones (log 25). -/
opaque presetRows : List Preset

end Sys2Proof.Config
end

