-- ==== Sys2Proof/Machine/Input.lean ====
section
/-! DEFINITION. What the outside world and the scheduler can bring about: the raw form of an operation
before decoding (spec/30_encoding.md R39 to R41), and the events of a schedule (spec/00_scope.md R4). -/

namespace Sys2Proof

/-- The five steps no host word selects (format AUTO, R41). -/
inductive AutoStep where
  | pixel
  | dmaRead
  | serviceEnter
  | waitRelease
  | hwReset
  deriving DecidableEq, Repr

/-- The raw form of an operation: a bus transaction, which carries no opcode bits of its own (R39), or
an autonomous step, which carries no word at all (R41). A write to CMD carries a command word (R40). -/
inductive Input where
  | busWrite (n : Nat) (v : Word)
  | busRead (n : Nat)
  | auto (a : AutoStep)
  deriving DecidableEq, Repr

/-- One event of a schedule: an operation of the block, or a store the host makes to one byte of the
framebuffer memory by its own means (R24, R28). -/
inductive Event where
  | input (x : Input)
  | hostStore (a : Word) (b : Byte)
  deriving DecidableEq, Repr

end Sys2Proof
end

