-- ==== Sys2Proof/Machine/State.lean ====
section
/-! DEFINITION. The state of the block (spec/10_state.md), as plain data, the reasons a step can stop,
and the state right after reset (R22). -/

namespace Sys2Proof.Machine

/-- RUNSTATE (R11). -/
inductive RunState where
  | unconfigured
  | running
  | stopped
  | halted
  deriving DecidableEq, Repr

/-- HALT_CAUSE (R17, R89); the codes 6 to 15 are never produced. -/
inductive HaltCause where
  | none
  | resetAck
  | hNotMult8
  | badRatio
  | badTiming
  | badBpp
  deriving DecidableEq, Repr

/-- The size of one DMA read: one of 8, 4, 2, 1 bytes (R2 GRANULES, R13). -/
inductive Granule where
  | g8
  | g4
  | g2
  | g1
  deriving DecidableEq, Repr

/-- The mark FAULT (R18): a situation the document gives no behaviour for. -/
inductive FaultMark where
  /-- SERVICE_ENTER came when the next active region had begun (R96). -/
  | lateService
  /-- A frame event found the previous one unserved or in service (R97). -/
  | eventOverrun
  deriving DecidableEq, Repr

/-- The mark REFUSED (R18): the complete list of reasons of R98. -/
inductive RefuseReason where
  | reservedCommand
  | noSuchRegister
  | configureTwice
  | setBufferWhileNotRunning
  | waitInsideHandler
  | granuleNotDividingLine
  | footprintPastEnd
  | eoiOutsideHandler
  | stopBeforeConfigure
  | modeImmutable
  | writeToReadOnly
  deriving DecidableEq, Repr

/-- Why an operation is not enabled in a state, so that no such step exists there. -/
inductive NotEnabled where
  /-- The host is halted with the block (R86, R88). -/
  | hostHalted
  /-- The host is blocked by a waiting SET_NEXT_BUFFER (R66). -/
  | hostBlocked
  /-- PIXEL outside RUNNING and STOPPED (R52). -/
  | timersOff
  /-- PIXEL held until the DMA reader has supplied a byte (R71). -/
  | pixelHeld
  /-- DMA_READ with DMA_EN = 0, or outside RUNNING and STOPPED (R68, R86). -/
  | dmaOff
  /-- DMA_READ with no room in the fetch queue (R68). -/
  | queueFull
  /-- SERVICE_ENTER with no interrupt to take (R73). -/
  | noInterrupt
  /-- WAIT_RELEASE with no wait to end (R67). -/
  | nothingToRelease
  deriving DecidableEq, Repr

/-- Why a step stops with a fault. -/
inductive Fault where
  /-- Raised by every operation but HW_RESET once FAULT is set: the run ended at that mark (R96, R97).
  Safe: the hardware goes on, the model says nothing about it. -/
  | runEnded (m : FaultMark)
  /-- Raised by DMA_READ and SERVICE_ENTER when the read would pass address 2^32, which does not exist
  (R24, R38). Safe: SET_NEXT_BUFFER admits no such buffer, so no run from reset gets there. -/
  | pastAddressSpace
  deriving DecidableEq, Repr

/-- Why a step is refused. -/
inductive Refusal where
  /-- Raised by `exec` for an instruction that has no meaning yet. Safe. -/
  | notModelled (mnemonic : String)
  /-- Raised by every operation but HW_RESET once REFUSED is set: the run ended at that mark (R98). Safe. -/
  | runEnded (r : RefuseReason)
  /-- Raised by an operation whose enabling condition fails: the spec has no such step. Safe; `step`
  passes such an event over. -/
  | notEnabled (why : NotEnabled)
  deriving DecidableEq, Repr

/-- One item of the observation (R21). -/
inductive Obs where
  /-- The sample of one PIXEL step. -/
  | sample (hsync vsync : Bool) (pix : Nibble)
  /-- CALLBACK(fc): the callback is invoked. -/
  | callback (fc : Word)
  /-- FLUSH_REQ: the flush request. -/
  | flushReq
  /-- DMA_RD(addr, n): a DMA read of n bytes at addr. -/
  | dmaRd (addr n : Nat)
  /-- HALT(c). -/
  | halt (c : HaltCause)
  /-- The value a host register read returned. -/
  | readValue (n : Nat) (v : Word)
  deriving DecidableEq, Repr

/-- One host store to the framebuffer memory. -/
structure HostStore where
  addr : Word
  byte : Byte
  deriving DecidableEq, Repr

/-- Everything the spec gives the block, the memory it reads, and the model's own four fields
(`schedule`, `draws`, `obs`, and the pair `flushed`, `fresh`). -/
structure State where
  /-- MODE_HA to MODE_BPP, REG[0x00] to REG[0x0B] (R6, R7). -/
  mode : ModeRegs
  /-- ARG_PTR, REG[0x0C] (R19). -/
  argPtr : Word
  /-- ARG_PITCH, REG[0x0D] (R19). -/
  argPitch : Word
  /-- RUNSTATE (R11). -/
  runstate : RunState
  /-- HALT_CAUSE (R17). -/
  haltCause : HaltCause
  /-- FRAMECOUNT, REG[0x10] (R9). -/
  framecount : Word
  /-- CUR_PTR, REG[0x11] (R9). -/
  curPtr : Word
  /-- CUR_PITCH, REG[0x12] (R9). -/
  curPitch : Word
  /-- NEXT_PTR, REG[0x13] (R9). -/
  nextPtr : Word
  /-- NEXT_PITCH, REG[0x14] (R9). -/
  nextPitch : Word
  /-- CUR_G (R13). -/
  curG : Granule
  /-- NEXT_G (R13). -/
  nextG : Granule
  /-- ARMED (R9, R13). -/
  armed : Bool
  /-- DMA_EN (R13). -/
  dmaEn : Bool
  /-- DMA_LINE (R13). -/
  dmaLine : Nat
  /-- DMA_OFF (R13). -/
  dmaOff : Nat
  /-- FQ, head first (R14). -/
  fq : List Byte
  /-- CURBYTE (R15). -/
  curByte : Byte
  /-- CURVALID (R15). -/
  curValid : Bool
  /-- HPOS (R10). -/
  hpos : Nat
  /-- VLINE (R10). -/
  vline : Nat
  /-- IRQ_EN (R12). -/
  irqEn : Bool
  /-- FB_PENDING (R12). -/
  fbPending : Bool
  /-- IN_SERVICE (R12). -/
  inService : Bool
  /-- CB_EN (R12). -/
  cbEn : Bool
  /-- WAITING (R16). -/
  waiting : Bool
  /-- WAIT_FC (R16). -/
  waitFc : Word
  /-- HSYNC as last driven by PIXEL (R20). -/
  hsync : Bool
  /-- VSYNC as last driven by PIXEL (R20). -/
  vsync : Bool
  /-- PIX as last driven by PIXEL (R20). -/
  pix : Nibble
  /-- FAULT, a mark of the model (R18). -/
  fault : Option FaultMark
  /-- REFUSED, a mark of the model (R18). -/
  refused : Option RefuseReason
  /-- The framebuffer memory as every DMA read surely sees it (R28, R35): addresses strictly rising, no
  entry of value 0, which is what an unlisted address reads as. -/
  mem : List Host.Cell
  /-- Host stores that precede the last flush request, oldest first: the next SERVICE_ENTER makes them
  surely visible (R35). -/
  flushed : List HostStore
  /-- Host stores since the last flush request, oldest first (R35). -/
  fresh : List HostStore
  /-- The events to come, next first: the order of steps is not the block's to choose (R4). -/
  schedule : List Event
  /-- How many free values have been drawn (R2). -/
  draws : Nat
  /-- The observation so far, newest first; read by no rule (R21). -/
  obs : List Obs
  deriving DecidableEq, Repr

/-- The state right after hardware reset at the start of a run (R22, R104): RUNSTATE UNCONFIGURED,
everything else 0, empty or none, and both granules 1. The model's own fields and the memory are empty,
DESIGN CHOICE (log 11, 14). -/
def State.reset : State where
  mode := ⟨0, 0, 0, 0, 0, 0, 0, 0, 0, 0, 0, 0⟩
  argPtr := 0
  argPitch := 0
  runstate := .unconfigured
  haltCause := .none
  framecount := 0
  curPtr := 0
  curPitch := 0
  nextPtr := 0
  nextPitch := 0
  curG := .g1
  nextG := .g1
  armed := false
  dmaEn := false
  dmaLine := 0
  dmaOff := 0
  fq := []
  curByte := 0
  curValid := false
  hpos := 0
  vline := 0
  irqEn := false
  fbPending := false
  inService := false
  cbEn := false
  waiting := false
  waitFc := 0
  hsync := false
  vsync := false
  pix := 0
  fault := none
  refused := none
  mem := []
  flushed := []
  fresh := []
  schedule := []
  draws := 0
  obs := []

end Sys2Proof.Machine
end

