-- ==== Sys2Proof/Machine/Flags.lean ====
section
/-! DEFINITION. The status flags: the codes STATUS shows, STATUS itself (spec/10_state.md R8) and the
output pins (R20). The block has no arithmetic flags. -/

namespace Sys2Proof.Machine

/-- The code of RUNSTATE (R11). -/
def runCode : RunState → BitVec 2
  | .unconfigured => 0
  | .running => 1
  | .stopped => 2
  | .halted => 3

/-- The code of HALT_CAUSE (spec/60_exceptions.md R89). -/
def haltCode : HaltCause → BitVec 4
  | .none => 0
  | .resetAck => 1
  | .hNotMult8 => 2
  | .badRatio => 3
  | .badTiming => 4
  | .badBpp => 5

/-- STATUS, assembled when it is read, high bits first (R8). -/
def status (s : State) : Word :=
  0#16 ++ haltCode s.haltCause ++ 0#3 ++ BitVec.ofBool s.waiting ++ BitVec.ofBool s.cbEn
    ++ BitVec.ofBool s.armed ++ BitVec.ofBool s.dmaEn ++ BitVec.ofBool s.inService
    ++ BitVec.ofBool s.fbPending ++ BitVec.ofBool s.irqEn ++ runCode s.runstate

/-- RUNNING or STOPPED: the timers run (R11). -/
def timersOn (s : State) : Bool :=
  match s.runstate with
  | .unconfigured => false
  | .running => true
  | .stopped => true
  | .halted => false

/-- The HSYNC pin: 0 in UNCONFIGURED and HALTED (R20), else the level last driven (log 16). -/
def hsyncPin (s : State) : Bool := timersOn s && s.hsync

/-- The VSYNC pin: 0 while the timers are off (R20). -/
def vsyncPin (s : State) : Bool := timersOn s && s.vsync

/-- The PIX pins: 0 while the timers are off (R20). -/
def pixPins (s : State) : Nibble := if timersOn s then s.pix else 0

/-- The IRQ pin: FB_PENDING and IRQ_EN, 0 while the timers are off (R20). -/
def irqPin (s : State) : Bool := timersOn s && (s.fbPending && s.irqEn)

end Sys2Proof.Machine
end

