-- ==== Sys2Proof/Machine/Operands.lean ====
section
/-! DEFINITION. Operand forms: granules (spec/42_set_next_buffer.md R64), registers by number
(spec/10_state.md R7), the nibbles of a byte (spec/20_memory.md R26) and framebuffer addresses (R25,
R32, R34). -/

namespace Sys2Proof.Machine

/-- The granule in bytes (R2 GRANULES). -/
def Granule.bytes : Granule → Nat
  | .g8 => 8
  | .g4 => 4
  | .g2 => 2
  | .g1 => 1

/-- `gran(ptr, pitch)`: the read size chosen from the low bits of `ptr | pitch` (R64). -/
def gran (ptr pitch : Word) : Granule :=
  let m := ptr ||| pitch
  if m.extractLsb' 0 3 = 0 then .g8
  else if m.extractLsb' 0 2 = 0 then .g4
  else if m.extractLsb' 0 1 = 0 then .g2
  else .g1

/-- The first address past the footprint of a buffer: `ptr + (VA - 1) * pitch + LB`, in naturals (R38,
R63). -/
def footprintEnd (m : ModeRegs) (ptr pitch : Word) : Nat :=
  ptr.toNat + (m.va.toNat - 1) * pitch.toNat + m.lb

/-- The pixel a byte carries at column `x`: the low nibble when `x` is even, the high one when it is odd
(R26). -/
def nibbleAt (b : Byte) (x : Nat) : Nibble :=
  if x % 2 = 0 then b.extractLsb' 0 4 else b.extractLsb' 4 4

/-- The byte address pixel `(x, y)` is taken from (R25). -/
def pixelAddr (ptr pitch : Word) (x y : Nat) : Nat := ptr.toNat + y * pitch.toNat + x / 2

/-- The address of read `k` of a frame (R34). -/
def readAddr (m : ModeRegs) (ptr pitch : Word) (g : Granule) (k : Nat) : Nat :=
  ptr.toNat + k * g.bytes / m.lb * pitch.toNat + k * g.bytes % m.lb

/-- The footprint of a frame (R32): the addresses of offset `o` of line `y`. -/
def inFootprint (m : ModeRegs) (ptr pitch : Word) (a : Nat) : Prop :=
  ∃ y o, y < m.va.toNat ∧ o < m.lb ∧ a = ptr.toNat + y * pitch.toNat + o

/-- How many reads one armed frame takes: VA * LB / G (R65, R69). -/
def readsPerFrame (m : ModeRegs) (g : Granule) : Nat := m.va.toNat * m.lb / g.bytes

/-- The mode registers with register `n`, 0x00 to 0x0B, written: bits above the field's width are dropped
(R7, spec/45_stop_and_bus.md R82). -/
def writeMode (m : ModeRegs) (n : Nat) (v : Word) : ModeRegs :=
  match n with
  | 0x00 => { m with ha := v.setWidth 16 }
  | 0x01 => { m with hfp := v.setWidth 16 }
  | 0x02 => { m with hs := v.setWidth 16 }
  | 0x03 => { m with hbp := v.setWidth 16 }
  | 0x04 => { m with va := v.setWidth 16 }
  | 0x05 => { m with vfp := v.setWidth 16 }
  | 0x06 => { m with vs := v.setWidth 16 }
  | 0x07 => { m with vbp := v.setWidth 16 }
  | 0x08 => { m with num := v.setWidth 16 }
  | 0x09 => { m with den := v.setWidth 16 }
  | 0x0A => { m with pol := v.setWidth 2 }
  | 0x0B => { m with bpp := v.setWidth 6 }
  | _ => m

/-- What a read of register `n` returns, zero-extended to 32 bits; no register above 0x14 exists (R7,
R83). -/
def readReg (s : State) (n : Nat) : Option Word :=
  match n with
  | 0x00 => some (s.mode.ha.setWidth 32)
  | 0x01 => some (s.mode.hfp.setWidth 32)
  | 0x02 => some (s.mode.hs.setWidth 32)
  | 0x03 => some (s.mode.hbp.setWidth 32)
  | 0x04 => some (s.mode.va.setWidth 32)
  | 0x05 => some (s.mode.vfp.setWidth 32)
  | 0x06 => some (s.mode.vs.setWidth 32)
  | 0x07 => some (s.mode.vbp.setWidth 32)
  | 0x08 => some (s.mode.num.setWidth 32)
  | 0x09 => some (s.mode.den.setWidth 32)
  | 0x0A => some (s.mode.pol.setWidth 32)
  | 0x0B => some (s.mode.bpp.setWidth 32)
  | 0x0C => some s.argPtr
  | 0x0D => some s.argPitch
  | 0x0E => some 0
  | 0x0F => some (status s)
  | 0x10 => some s.framecount
  | 0x11 => some s.curPtr
  | 0x12 => some s.curPitch
  | 0x13 => some s.nextPtr
  | 0x14 => some s.nextPitch
  | _ => none

end Sys2Proof.Machine
end

