-- ==== Sys2Proof/Machine/Timers.lean ====
section
/-! DEFINITION. The timers T0 to T6 as functions of the scan position and the mode (spec/40_configure.md
R49, spec/41_timing_generator.md R53 to R60). They hold no state of their own (spec/10_state.md R10). -/

namespace Sys2Proof.Machine

/-- T0: a base tick begins at every position that is a multiple of 8 (R53). -/
def baseTick (s : State) : Bool := s.hpos % 8 == 0

/-- T1: `hs`, the horizontal sync pulse (R54). -/
def hsActive (s : State) : Bool := decide (s.hpos < s.mode.hs.toNat)

/-- T3: `vs`, the vertical sync pulse (R57). -/
def vsActive (s : State) : Bool := decide (s.vline < s.mode.vs.toNat)

/-- Whether line `l` is one of the VA active lines (R58). -/
def activeLine (m : ModeRegs) (l : Nat) : Bool := decide (m.va0 ≤ l) && decide (l < m.va1)

/-- T4: `va`, the vertical active region (R58). -/
def vaActive (s : State) : Bool := activeLine s.mode s.vline

/-- T5: `ha`, the horizontal active region, before its gating by `va` (R59). -/
def haActive (s : State) : Bool := decide (s.mode.ha0 ≤ s.hpos) && decide (s.hpos < s.mode.ha1)

/-- The display-enable `de`: `va` and `ha`; it gates T6, the shift timer (R59, R60). -/
def deActive (s : State) : Bool := vaActive s && haActive s

/-- The column of the pixel being emitted, `x = HPOS - HA0` (R60). -/
def column (s : State) : Nat := s.hpos - s.mode.ha0

/-- The row of the pixel being emitted, `y = VLINE - VA0`. -/
def row (s : State) : Nat := s.vline - s.mode.va0

/-- The level of a sync pin: the polarity bit while the sync signal is active, its complement otherwise
(R55). -/
def syncLevel (active pol : Bool) : Bool := if active then pol else !pol

end Sys2Proof.Machine
end

