-- ==== Sys2Proof/Machine/Ops.lean ====
section
/-! DEFINITION. The named operations the meanings share: when an operation is enabled, the observation,
the marks, the framebuffer memory and its visibility (spec/20_memory.md), one DMA read, the fatal halt,
the frame event, taking the frame interrupt and returning from it (spec/60_exceptions.md). -/

namespace Sys2Proof.Machine

/-! ## Observation and marks -/

/-- `emit E`: the observation grows by one item (spec/10_state.md R21). DESIGN CHOICE: it is kept in State (log 15). -/
def emit (s : State) (o : Obs) : State := { s with obs := o :: s.obs }

/-- `refuse(why)`: REFUSED takes the first reason (R98). -/
def refuse (why : RefuseReason) (s : State) : State := { s with refused := s.refused.or (some why) }

/-- `fault(F)`: FAULT takes the reason (R96, R97). -/
def markFault (m : FaultMark) (s : State) : State := { s with fault := s.fault.or (some m) }

/-- The next draw has been made: the next free value is a fresh one (R2; log 7). -/
def drawn (s : State) : State := { s with draws := s.draws + 1 }

/-- The schedule has moved on past its first event (R4). -/
def afterEvent (rest : List Event) (s : State) : State := { s with schedule := rest }

/-! ## When an operation is enabled -/

/-- After a mark no step of any agent is enabled (R96 to R98): the run ended there, and what follows is
a stop that names the mark. HW_RESET alone does not ask (R84). DEDUCED (log 5). -/
def unlessEnded (s : State) (k : Host.Outcome State Fault Refusal) : Host.Outcome State Fault Refusal :=
  match s.fault with
  | some m => .fault (.runEnded m)
  | none =>
    match s.refused with
    | some r => .refused (.runEnded r)
    | none => k

/-- A step that exists only where `bar` names nothing against it. DESIGN CHOICE: elsewhere the answer is a
refusal that says so (log 2). -/
def whenEnabled (bar : Option NotEnabled) (s : State) (k : Host.Outcome State Fault Refusal) :
    Host.Outcome State Fault Refusal :=
  unlessEnded s
    (match bar with
     | some why => .refused (.notEnabled why)
     | none => k)

/-- What keeps the host from having a step: the halt of the whole system (R86, R88), or the wait of its
foreground (R66). -/
def hostBar (s : State) : Option NotEnabled :=
  if s.runstate = .halted then some .hostHalted
  else if s.waiting && !s.inService then some .hostBlocked
  else none

/-- A host operation: atomic, with no exception of its own but the halt its effect may raise (R5, R86). -/
def hostStep (effect : State → State) (s : State) : Host.Outcome State Fault Refusal :=
  whenEnabled (hostBar s) s (.next (effect s))

/-- What keeps PIXEL from being enabled: the timers are off (R52), or the pixel needs a byte that the
armed DMA reader has not supplied yet (R71). -/
def pixelBar (s : State) : Option NotEnabled :=
  if !timersOn s then some .timersOff
  else if deActive s && (column s % 2 == 0 && (s.fq.isEmpty && s.dmaEn)) then some .pixelHeld
  else none

/-- What keeps DMA_READ from being enabled (R68, and R86 for the run state: DEDUCED, log 17). -/
def dmaBar (s : State) : Option NotEnabled :=
  if !(timersOn s && s.dmaEn) then some .dmaOff
  else if Config.fqCap < s.fq.length + s.curG.bytes then some .queueFull
  else none

/-- What keeps SERVICE_ENTER from being enabled (R73, R79). -/
def serviceBar (s : State) : Option NotEnabled :=
  if s.runstate = .running ∧ (s.irqEn && (s.fbPending && !s.inService)) = true then none
  else some .noInterrupt

/-- What keeps WAIT_RELEASE from being enabled (R67, and R86 for the run state: DEDUCED, log 17). -/
def releaseBar (s : State) : Option NotEnabled :=
  if (timersOn s && s.waiting) = true ∧ s.framecount ≠ s.waitFc then none
  else some .nothingToRelease

/-! ## Framebuffer memory -/

/-- What an address that memory does not list reads as. DESIGN CHOICE (log 11), unsafe: the contents at
the start of a run are part of the launch state (R105). -/
def Memory.unlisted : Byte := 0

/-- The byte at address `a`. DESIGN CHOICE (log 28), unsafe: every address is ordinary, readable memory
without read side effects; the document does not say what another read does (R29, R107, 93 U20). -/
def Memory.read : List Host.Cell → Nat → Byte
  | [], _ => Memory.unlisted
  | c :: rest, a => if a = c.1 then c.2 else Memory.read rest a

/-- The memory with byte `b` at address `a`, in canonical form again: an entry equal to what an unlisted
address reads as is removed. -/
def Memory.write : List Host.Cell → Nat → Byte → List Host.Cell
  | [], a, b => if b = Memory.unlisted then [] else [(a, b)]
  | c :: rest, a, b =>
    if a < c.1 then (if b = Memory.unlisted then c :: rest else (a, b) :: c :: rest)
    else if a = c.1 then (if b = Memory.unlisted then rest else (a, b) :: rest)
    else c :: Memory.write rest a b

/-- The canonical form: addresses strictly rising and inside the address space (R24), no entry equal to
what an unlisted address reads as. -/
abbrev Memory.wf (m : List Host.Cell) : Prop :=
  m.Pairwise (fun c d => c.1 < d.1) ∧ ∀ c ∈ m, c.2 ≠ Memory.unlisted ∧ c.1 < 2 ^ 32

/-- A host store to one framebuffer byte (R28): it is the newest write to its address, and no flush
request has followed it yet. DESIGN CHOICE (log 12). -/
def hostStore (a : Word) (b : Byte) (s : State) : State := { s with fresh := s.fresh ++ [⟨a, b⟩] }

/-- FLUSH_REQ: every host store so far now precedes a flush request (R33, R35). No state of the block
changes. DEDUCED (log 10), UNVERIFIED (log 20). -/
def requestFlush (s : State) : State :=
  emit { s with flushed := s.flushed ++ s.fresh, fresh := [] } .flushReq

/-- A SERVICE_ENTER makes the stores that precede an earlier flush request surely visible, the older
first (R35). DEDUCED (log 10), UNVERIFIED (log 20). -/
def settle (s : State) : State :=
  { s with
    mem := s.flushed.foldl (fun m w => Memory.write m w.addr.toNat w.byte) s.mem
    flushed := [] }

/-- The values written to address `a` since the newest surely visible one, oldest first (R28). -/
def newerBytes (s : State) (a : Nat) : List Byte :=
  ((s.flushed ++ s.fresh).filter (fun w => w.addr.toNat == a)).map HostStore.byte

/-- The value of the latest write to address `a`, the initial content if there is none (R28). -/
def latestByte (s : State) (a : Nat) : Byte := (newerBytes s a).getLastD (Memory.read s.mem a)

/-- The values a read of address `a` may see: the newest surely visible one and every newer one (R28). -/
def candidates (s : State) (a : Nat) : List Byte := Memory.read s.mem a :: newerBytes s a

/-- One byte of `MemRead` (R28): with COHERENT the latest write, without it a free choice of the
candidates. -/
def readByte (s : State) (a : Nat) : Byte :=
  match newerBytes s a with
  | [] => Memory.read s.mem a
  | _ :: _ =>
    if Config.coherent then latestByte s a
    else (candidates s a).getD (Config.visibleChoice s.draws a % (candidates s a).length) (latestByte s a)

/-- `MemRead(addr, n)`: the bytes at addr to addr + n - 1, lowest address first, each decided on its own
(R27, R28). -/
def memRead (s : State) (addr n : Nat) : List Byte := (List.range n).map (fun i => readByte s (addr + i))

/-! ## The DMA reader -/

/-- The address of the next read: `CUR_PTR + DMA_LINE * CUR_PITCH + DMA_OFF` in naturals (R13, R38). -/
def dmaAddr (s : State) : Nat := s.curPtr.toNat + s.dmaLine * s.curPitch.toNat + s.dmaOff

/-- The position after a read: the next offset, or the start of the next line, where the chain ends
after line VA - 1 (R68, R69). -/
def dmaAdvance (s : State) : State :=
  if s.dmaOff + s.curG.bytes = s.mode.lb then
    { s with
      dmaOff := 0
      dmaLine := s.dmaLine + 1
      dmaEn := s.dmaEn && !(s.dmaLine + 1 == s.mode.va.toNat) }
  else { s with dmaOff := s.dmaOff + s.curG.bytes }

/-- The bytes of one read enter the fetch queue at its tail, lowest address first (R27, R68). -/
def pushRead (s : State) : State := { s with fq := s.fq ++ memRead s (dmaAddr s) s.curG.bytes }

/-- The body of DMA_READ (R68): one read of CUR_G bytes. `none` when the read would pass address 2^32,
which R38 excludes (log 13). -/
def dmaBody (s : State) : Option State :=
  if 2 ^ 32 < dmaAddr s + s.curG.bytes then none
  else some (dmaAdvance (emit (drawn (pushRead s)) (.dmaRd (dmaAddr s) s.curG.bytes)))

/-- Descriptor reload and re-enable (spec/44_frame_boundary.md R74). -/
def loadDescriptor (s : State) : State :=
  { s with
    curPtr := s.nextPtr
    curPitch := s.nextPitch
    curG := s.nextG
    dmaLine := 0
    dmaOff := 0
    fq := []
    dmaEn := true }

/-- The re-arm, sub-step 1 of the frame service: descriptor reload, re-enable, manual trigger, first
bytes (R74). -/
def rearm (s : State) : Option State := if s.armed then dmaBody (loadDescriptor s) else some s

/-! ## The fatal halt and the frame interrupt -/

/-- `raise Halt(c)` (R88): the cause is all that is saved; the interrupt and the DMA reader go off. -/
def raiseHalt (c : HaltCause) (s : State) : State :=
  emit
    { s with
      runstate := .halted
      haltCause := c
      irqEn := false
      fbPending := false
      dmaEn := false }
    (.halt c)

/-- The frame event (R72): latched when the interrupt is enabled and the previous event is done with, a
fault when it is not, lost when the interrupt is disabled. -/
def frameEvent (s : State) : State :=
  if s.irqEn then
    if s.fbPending || s.inService then markFault .eventOverrun s
    else { s with fbPending := true }
  else s

/-- Sub-step 2 of the frame service: the frame is counted and its event is served (R75). -/
def countFrame (s : State) : State := { s with framecount := s.framecount + 1, fbPending := false }

/-- Sub-step 3 with a callback registered: the host enters its handler (R76). -/
def invokeCallback (s : State) : State := emit { s with inService := true } (.callback s.framecount)

/-- Taking the frame interrupt in time, sub-steps 1 to 4 of the frame service (R73 to R77, R93): re-arm,
count, then the callback, or the flush request when no callback is registered. Nothing is saved. -/
def takeFrameInterrupt (s : State) : Option State :=
  match rearm (settle s) with
  | none => none
  | some t => some (if t.cbEn then invokeCallback (countFrame t) else requestFlush (countFrame t))

/-- Returning from the frame interrupt (R94): the flush request, and the interrupt is unmasked. Nothing
is restored. -/
def returnFromFrameInterrupt (s : State) : State := { requestFlush s with inService := false }

/-- What an operation that may leave the address space answers. -/
def orPastAddressSpace : Option State → Host.Outcome State Fault Refusal
  | some t => .next t
  | none => .fault .pastAddressSpace

end Sys2Proof.Machine
end

