-- ==== Sys2Proof/Machine/Dma.lean ====
section
/-! DEFINITION. DMA_READ (spec/43_dma_reader.md). -/

namespace Sys2Proof.Machine

/-- DMA_READ (R68). -/
def execDmaRead (s : State) : Host.Outcome State Fault Refusal :=
  whenEnabled (dmaBar s) s (orPastAddressSpace (dmaBody s))

end Sys2Proof.Machine
end

