-- ==== Sys2Proof/Machine/Pixel.lean ====
section
/-! DEFINITION. PIXEL: the serializer, the sync pins, the sample, the advance of the scan position
(spec/41_timing_generator.md). -/

namespace Sys2Proof.Machine

/-- A fresh byte at every even active pixel, or none when the queue is empty (R60). -/
def loadByte (s : State) : State :=
  match s.fq with
  | b :: rest => { s with curByte := b, curValid := true, fq := rest }
  | [] => { s with curValid := false }

/-- The pixel of an active period: a nibble of the current byte, or a free value when there is no data
(R60). -/
def shiftOut (s : State) : State × Nibble :=
  if s.curValid then (s, nibbleAt s.curByte (column s))
  else (drawn s, Config.pixelDraw s.draws)

/-- The serializer and T6 (R60); blanking puts 0 on the pins and touches nothing else (R61). -/
def serialize (s : State) : State × Nibble :=
  if deActive s then shiftOut (if column s % 2 = 0 then loadByte s else s) else (s, 0)

/-- The pins take their levels, and the sample is emitted (R52 sub-steps 2 and 3, R55). -/
def drivePins (h v : Bool) (px : Nibble) (s : State) : State :=
  emit { s with hsync := h, vsync := v, pix := px } (.sample h v px)

/-- The line after line `l` (R56, R62). -/
def nextLine (m : ModeRegs) (l : Nat) : Nat := if l + 1 < m.vt then l + 1 else 0

/-- Whether `va` falls at the end of the line: an active line is followed by one that is not (R58, R62). -/
def vaFalls (s : State) : Bool := activeLine s.mode s.vline && !activeLine s.mode (nextLine s.mode s.vline)

/-- The scan position is set. -/
def moveTo (line pos : Nat) (s : State) : State := { s with vline := line, hpos := pos }

/-- Advance and wrap, with the frame event where `va` falls (R62). -/
def advance (s : State) : State :=
  if s.hpos + 1 < s.mode.ht then moveTo s.vline (s.hpos + 1) s
  else moveTo (nextLine s.mode s.vline) 0 (if vaFalls s then frameEvent s else s)

/-- One pixel period (R52). -/
def pixelEffect (s : State) : State :=
  let out := serialize s
  advance (drivePins (syncLevel (hsActive s) s.mode.hpol) (syncLevel (vsActive s) s.mode.vpol) out.2 out.1)

/-- PIXEL (R52). -/
def execPixel (s : State) : Host.Outcome State Fault Refusal :=
  whenEnabled (pixelBar s) s (.next (pixelEffect s))

end Sys2Proof.Machine
end

