-- ==== Sys2Proof/Syntax.lean ====
section
/-! DEFINITION. The operations of the block as syntax: one constructor per row of
spec/opcode_table.json (spec/30_encoding.md R39 to R41). -/

namespace Sys2Proof

/-- The thirteen rows of the opcode table: six commands (format CMD), two bus accesses (format BUS)
and five autonomous steps (format AUTO), R41. -/
inductive Instr where
  /-- NOP, command OP 0x00 (R81). -/
  | nop
  /-- CONFIGURE, command OP 0x01 (R45). -/
  | configure
  /-- SET_NEXT_BUFFER, command OP 0x02; `wait` is the flag F (R63). -/
  | setNextBuffer (wait : Bool)
  /-- STOP, command OP 0x03 (R80). -/
  | stop
  /-- REGISTER_CALLBACK, command OP 0x04; `enable` is the flag F (R78). -/
  | registerCallback (enable : Bool)
  /-- EOI, command OP 0x05 (R77). -/
  | eoi
  /-- WR n, v: the bus write of `v` to register `n` (R82). -/
  | wr (n : Nat) (v : Word)
  /-- RD n: the bus read of register `n` (R83). -/
  | rd (n : Nat)
  /-- PIXEL, agent TG (R52). -/
  | pixel
  /-- DMA_READ, agent DMA (R68). -/
  | dmaRead
  /-- SERVICE_ENTER, agent IRQ (R73). -/
  | serviceEnter
  /-- WAIT_RELEASE, the host's wait logic (R67). -/
  | waitRelease
  /-- HW_RESET, the environment (R84). -/
  | hwReset
  deriving DecidableEq, Repr

end Sys2Proof
end

