-- ==== Sys2Proof/WellFormed.lean ====
section
/-! DEFINITION. Which terms of `Instr` are the decoded form of something the outside world can send. -/

namespace Sys2Proof

/-- The register number of CMD, the one write-only register (spec/10_state.md R7). -/
abbrev cmdRegister : Nat := 0x0E

/-- A bus write to CMD is a command (R40): its decoded form is the command's own constructor, or no
instruction at all when the word is reserved (R42). So `wr 0x0E v` is the one ill-formed shape; every
other term is the decoded form of exactly one input. -/
def wellFormed : Instr → Bool
  | .nop => true
  | .configure => true
  | .setNextBuffer _ => true
  | .stop => true
  | .registerCallback _ => true
  | .eoi => true
  | .wr n _ => n != cmdRegister
  | .rd _ => true
  | .pixel => true
  | .dmaRead => true
  | .serviceEnter => true
  | .waitRelease => true
  | .hwReset => true

end Sys2Proof
end

