-- ==== Sys2Proof/Decode.lean ====
section
/-! DEFINITION. The decoder of inputs and command words, total and rejecting by name, and the encoder
(spec/30_encoding.md R39 to R42). -/

namespace Sys2Proof

/-- Why a command word is reserved (R42). Safe: the model gives such a word no meaning. -/
inductive DecodeReject where
  /-- RSV, bits 31 to 9, is not 0. -/
  | reservedBitsSet
  /-- F = 1 on an operation that has no flag. -/
  | flagMustBeZero
  /-- OP in 0x06 to 0xFF. -/
  | reservedOp
  deriving DecidableEq, Repr

/-- OP, bits 7 to 0 of a command word (R40). -/
def cmdOp (w : Word) : BitVec 8 := w.extractLsb' 0 8

/-- F, bit 8 of a command word (R40). -/
def cmdFlag (w : Word) : Bool := w.getLsbD 8

/-- RSV, bits 31 to 9 of a command word (R40). -/
def cmdRsv (w : Word) : BitVec 23 := w.extractLsb' 9 23

/-- An operation whose flag must be 0 (R41, column F). -/
def withoutFlag (f : Bool) (i : Instr) : Except DecodeReject Instr :=
  if f then .error .flagMustBeZero else .ok i

/-- The decoder of a command word: one of the six rows of R41, or reserved (R42). -/
def decodeCommand (w : Word) : Except DecodeReject Instr :=
  if cmdRsv w ≠ 0 then .error .reservedBitsSet
  else if cmdOp w = 0x00 then withoutFlag (cmdFlag w) .nop
  else if cmdOp w = 0x01 then withoutFlag (cmdFlag w) .configure
  else if cmdOp w = 0x02 then .ok (.setNextBuffer (cmdFlag w))
  else if cmdOp w = 0x03 then withoutFlag (cmdFlag w) .stop
  else if cmdOp w = 0x04 then .ok (.registerCallback (cmdFlag w))
  else if cmdOp w = 0x05 then withoutFlag (cmdFlag w) .eoi
  else .error .reservedOp

/-- The instruction an autonomous step is (R41, format AUTO). -/
def autoInstr : AutoStep → Instr
  | .pixel => .pixel
  | .dmaRead => .dmaRead
  | .serviceEnter => .serviceEnter
  | .waitRelease => .waitRelease
  | .hwReset => .hwReset

/-- The decoder of an input: a bus write to CMD is a command (R40), everything else stands for itself
(R39). -/
def decode : Input → Except DecodeReject Instr
  | .busWrite n v => if n = cmdRegister then decodeCommand v else .ok (.wr n v)
  | .busRead n => .ok (.rd n)
  | .auto a => .ok (autoInstr a)

/-- The command word with operation code `op` and flag `f`, RSV = 0 (R40). -/
def commandWord (op : BitVec 8) (f : Bool) : Word := (0#23 ++ BitVec.ofBool f) ++ op

/-- The input an instruction is encoded as, from the operation map of R41. -/
def encode : Instr → Input
  | .nop => .busWrite cmdRegister (commandWord 0x00 false)
  | .configure => .busWrite cmdRegister (commandWord 0x01 false)
  | .setNextBuffer wait => .busWrite cmdRegister (commandWord 0x02 wait)
  | .stop => .busWrite cmdRegister (commandWord 0x03 false)
  | .registerCallback enable => .busWrite cmdRegister (commandWord 0x04 enable)
  | .eoi => .busWrite cmdRegister (commandWord 0x05 false)
  | .wr n v => .busWrite n v
  | .rd n => .busRead n
  | .pixel => .auto .pixel
  | .dmaRead => .auto .dmaRead
  | .serviceEnter => .auto .serviceEnter
  | .waitRelease => .auto .waitRelease
  | .hwReset => .auto .hwReset

/-- The command word of a row of the opcode table: its `nbits` low bits, zero above (one command
length, 32 bits, R40). -/
def tableWord (nbits w : Nat) : Word := BitVec.ofNat 32 (w % 2 ^ nbits)

/-- What the decoder reads from a command word of `nbits` bits. A row without bits (formats BUS and
AUTO) and a longer word are no command words: `none`. -/
def decodeTableWord (nbits w : Nat) : Option Instr :=
  if 0 < nbits ∧ nbits ≤ 32 then
    match decode (.busWrite cmdRegister (tableWord nbits w)) with
    | .ok i => some i
    | .error _ => none
  else none

end Sys2Proof
end

