-- ==== Sys2Proof/Machine/Configure.lean ====
section
/-! DEFINITION. CONFIGURE (spec/40_configure.md) and the preset table (R51). -/

namespace Sys2Proof.Machine

/-- Check K2: all horizontal measurements are multiples of 8 pixels (R44). -/
def checkMult8 (m : ModeRegs) : Bool :=
  m.ha.toNat % 8 == 0 && (m.hfp.toNat % 8 == 0 && (m.hs.toNat % 8 == 0 && m.hbp.toNat % 8 == 0))

/-- Check K3: the pixel-clock ratio is in the valid divider range (R44). -/
def checkRatio (m : ModeRegs) : Bool := Config.validRatio m.num m.den

/-- Check K4: no active size and no sync width is 0 (R44). -/
def checkTiming (m : ModeRegs) : Bool :=
  m.ha.toNat != 0 && (m.hs.toNat != 0 && (m.va.toNat != 0 && m.vs.toNat != 0))

/-- Check K5: 4 bits per pixel (R44). -/
def checkBpp (m : ModeRegs) : Bool := m.bpp == 4

/-- The cause of the first failing check in the order K2, K3, K4, K5 (R47). -/
def modeError (m : ModeRegs) : Option HaltCause :=
  if !checkMult8 m then some .hNotMult8
  else if !checkRatio m then some .badRatio
  else if !checkTiming m then some .badTiming
  else if !checkBpp m then some .badBpp
  else none

/-- A mode with a bpp value is valid when all four checks hold (R44). -/
def validMode (m : ModeRegs) : Bool := (modeError m).isNone

/-- ModeTable: named presets, every one valid; host data that no step reads (R2, R51; log 25). -/
def modeTable : List Preset := Config.presetRows.filter (fun p => validMode p.mode)

/-- The effect of a successful CONFIGURE (R48). -/
def programTimers (s : State) : State :=
  { s with
    hpos := 0
    vline := 0
    framecount := 0
    fbPending := false
    inService := false
    irqEn := true
    dmaEn := false
    dmaLine := 0
    dmaOff := 0
    fq := []
    curByte := 0
    curValid := false
    runstate := .running }

/-- The reset handshake (R46): one draw decides whether the reset-acknowledge clears. -/
def resetHandshake (s : State) : State :=
  if Config.resetAckClears s.draws then programTimers (drawn s) else raiseHalt .resetAck (drawn s)

/-- CONFIGURE (R45): the checks, then the handshake; refused once a mode has been selected. -/
def configureEffect (s : State) : State :=
  if s.runstate ≠ .unconfigured then refuse .configureTwice s
  else
    match modeError s.mode with
    | some c => raiseHalt c s
    | none => resetHandshake s

/-- CONFIGURE (R45). -/
def execConfigure (s : State) : Host.Outcome State Fault Refusal := hostStep configureEffect s

end Sys2Proof.Machine
end

