-- ==== Sys2Proof/Machine/FrameBoundary.lean ====
section
/-! DEFINITION. SERVICE_ENTER, EOI and REGISTER_CALLBACK (spec/44_frame_boundary.md). -/

namespace Sys2Proof.Machine

/-- SERVICE_ENTER (R73): too late when the next active region has begun (R96), else the frame interrupt
is taken. A late one writes FAULT and nothing else (log 23). -/
def execServiceEnter (s : State) : Host.Outcome State Fault Refusal :=
  whenEnabled (serviceBar s) s
    (if vaActive s then .next (markFault .lateService s) else orPastAddressSpace (takeFrameInterrupt s))

/-- EOI, the callback's return (R77). -/
def eoiEffect (s : State) : State :=
  if s.inService then returnFromFrameInterrupt s else refuse .eoiOutsideHandler s

/-- EOI (R77). -/
def execEoi (s : State) : Host.Outcome State Fault Refusal := hostStep eoiEffect s

/-- REGISTER_CALLBACK (R78). -/
def registerCallbackEffect (enable : Bool) (s : State) : State := { s with cbEn := enable }

/-- REGISTER_CALLBACK (R78). -/
def execRegisterCallback (enable : Bool) (s : State) : Host.Outcome State Fault Refusal :=
  hostStep (registerCallbackEffect enable) s

end Sys2Proof.Machine
end

