-- ==== Sys2Proof/Machine/SetNextBuffer.lean ====
section
/-! DEFINITION. SET_NEXT_BUFFER and WAIT_RELEASE (spec/42_set_next_buffer.md). -/

namespace Sys2Proof.Machine

/-- The first of the four refusals that applies, in the order of R63 (R92 e). -/
def setNextBufferRefusal (wait : Bool) (s : State) : Option RefuseReason :=
  if s.runstate ≠ .running then some .setBufferWhileNotRunning
  else if wait && s.inService then some .waitInsideHandler
  else if s.mode.lb % (gran s.argPtr s.argPitch).bytes ≠ 0 then some .granuleNotDividingLine
  else if 2 ^ 32 < footprintEnd s.mode s.argPtr s.argPitch then some .footprintPastEnd
  else none

/-- Arming the DMA descriptor with the operands (R63). -/
def armDescriptor (s : State) : State :=
  { s with
    nextPtr := s.argPtr
    nextPitch := s.argPitch
    nextG := gran s.argPtr s.argPitch
    armed := true }

/-- The beginning of a wait (R16, R66). -/
def beginWait (s : State) : State := { s with waitFc := s.framecount, waiting := true }

/-- SET_NEXT_BUFFER (R63). -/
def setNextBufferEffect (wait : Bool) (s : State) : State :=
  match setNextBufferRefusal wait s with
  | some why => refuse why s
  | none => if wait then beginWait (armDescriptor s) else armDescriptor s

/-- SET_NEXT_BUFFER (R63). -/
def execSetNextBuffer (wait : Bool) (s : State) : Host.Outcome State Fault Refusal :=
  hostStep (setNextBufferEffect wait) s

/-- WAIT_RELEASE (R67). -/
def execWaitRelease (s : State) : Host.Outcome State Fault Refusal :=
  whenEnabled (releaseBar s) s (.next { s with waiting := false })

end Sys2Proof.Machine
end

