-- ==== Sys2Proof/Machine/StopBus.lean ====
section
/-! DEFINITION. STOP, NOP, WR, RD and HW_RESET (spec/45_stop_and_bus.md). -/

namespace Sys2Proof.Machine

/-- STOP (R80): the interrupt and the DMA reader go off, the timers run on. -/
def stopEffect (s : State) : State :=
  if s.runstate = .unconfigured then refuse .stopBeforeConfigure s
  else { s with irqEn := false, fbPending := false, dmaEn := false, runstate := .stopped }

/-- STOP (R80). -/
def execStop (s : State) : Host.Outcome State Fault Refusal := hostStep stopEffect s

/-- NOP (R81): nothing. -/
def nopEffect (s : State) : State := s

/-- NOP (R81). -/
def execNop (s : State) : Host.Outcome State Fault Refusal := hostStep nopEffect s

/-- The command's rule (R82): what a decoded command word does. The decoder of command words answers no
other constructor; its final arm refuses what is not listed (R98). -/
def performCommand (i : Instr) (s : State) : State :=
  match i with
  | .nop => nopEffect s
  | .configure => configureEffect s
  | .setNextBuffer wait => setNextBufferEffect wait s
  | .stop => stopEffect s
  | .registerCallback enable => registerCallbackEffect enable s
  | .eoi => eoiEffect s
  | .wr _ _ => refuse .reservedCommand s
  | .rd _ => refuse .reservedCommand s
  | .pixel => refuse .reservedCommand s
  | .dmaRead => refuse .reservedCommand s
  | .serviceEnter => refuse .reservedCommand s
  | .waitRelease => refuse .reservedCommand s
  | .hwReset => refuse .reservedCommand s

/-- A write of the word `w` to CMD (R40, R42). -/
def commandEffect (w : Word) (s : State) : State :=
  match decodeCommand w with
  | .ok i => performCommand i s
  | .error _ => refuse .reservedCommand s

/-- A write to a mode register: masked to the field's width, and only before the mode is selected (R82,
R85). -/
def modeWriteEffect (n : Nat) (v : Word) (s : State) : State :=
  if s.runstate = .unconfigured then { s with mode := writeMode s.mode n v }
  else refuse .modeImmutable s

/-- WR n, v (R82). -/
def wrEffect (n : Nat) (v : Word) (s : State) : State :=
  if 0x15 ≤ n then refuse .noSuchRegister s
  else if n ≤ 0x0B then modeWriteEffect n v s
  else if n = 0x0C then { s with argPtr := v }
  else if n = 0x0D then { s with argPitch := v }
  else if n = cmdRegister then commandEffect v s
  else refuse .writeToReadOnly s

/-- WR n, v (R82). -/
def execWr (n : Nat) (v : Word) (s : State) : Host.Outcome State Fault Refusal := hostStep (wrEffect n v) s

/-- RD n (R83): the returned value is an item of the observation (spec/10_state.md R21; log 26); nothing
else changes. -/
def rdEffect (n : Nat) (s : State) : State :=
  match readReg s n with
  | some v => emit s (.readValue n v)
  | none => refuse .noSuchRegister s

/-- RD n (R83). -/
def execRd (n : Nat) (s : State) : Host.Outcome State Fault Refusal := hostStep (rdEffect n) s

/-- Hardware reset (R84): every element of the block takes its value of R22; the marks stay (R18), and so
does what is not the block's: the memory and the stores to it, the schedule, the draws, the
observation. DEDUCED (log 27). -/
def hwResetEffect (s : State) : State :=
  { State.reset with
    fault := s.fault
    refused := s.refused
    mem := s.mem
    flushed := s.flushed
    fresh := s.fresh
    schedule := s.schedule
    draws := s.draws
    obs := s.obs }

/-- HW_RESET (R84): always enabled. -/
def execHwReset (s : State) : Host.Outcome State Fault Refusal := .next (hwResetEffect s)

end Sys2Proof.Machine
end

