-- ==== Sys2Proof/Machine/Dispatch.lean ====
section
/-! DEFINITION. One operation from one state: the dispatch over the thirteen rows of the opcode table. -/

namespace Sys2Proof.Machine

def exec (i : Instr) (s : State) : Host.Outcome State Fault Refusal :=
  match i with
  | .nop => Sys2Proof.Machine.execNop s
  | .configure => Sys2Proof.Machine.execConfigure s
  | .setNextBuffer wait => Sys2Proof.Machine.execSetNextBuffer wait s
  | .stop => Sys2Proof.Machine.execStop s
  | .registerCallback enable => Sys2Proof.Machine.execRegisterCallback enable s
  | .eoi => Sys2Proof.Machine.execEoi s
  | .wr n v => Sys2Proof.Machine.execWr n v s
  | .rd n => Sys2Proof.Machine.execRd n s
  | .pixel => Sys2Proof.Machine.execPixel s
  | .dmaRead => Sys2Proof.Machine.execDmaRead s
  | .serviceEnter => Sys2Proof.Machine.execServiceEnter s
  | .waitRelease => Sys2Proof.Machine.execWaitRelease s
  | .hwReset => Sys2Proof.Machine.execHwReset s

end Sys2Proof.Machine
end

