-- ==== Sys2Proof/Machine/Schedule.lean ====
section
/-! DEFINITION. Which step is next: the event the schedule names, or, when it names none, a free choice
among the enabled agents (spec/00_scope.md R4, spec/60_exceptions.md R92, R101). -/

namespace Sys2Proof.Machine

/-- An event that is not enabled is no step of any run: it is passed over and nothing changes. DESIGN CHOICE
(log 2). -/
def passOver (s : State) : Host.Outcome State Fault Refusal → Host.Outcome State Fault Refusal
  | .next t => .next t
  | .fault r => .fault r
  | .refused (.notEnabled _) => .next s
  | .refused r => .refused r

/-- An operation in its raw form: decoded and performed. A reserved command word is a host access that
the model refuses (R42). -/
def runInput (x : Input) (s : State) : Host.Outcome State Fault Refusal :=
  match decode x with
  | .ok i => passOver s (exec i s)
  | .error _ => passOver s (hostStep (refuse .reservedCommand) s)

/-- One event of the schedule. -/
def runEvent (e : Event) (s : State) : Host.Outcome State Fault Refusal :=
  match e with
  | .input x => runInput x s
  | .hostStore a b => unlessEnded s (.next (hostStore a b s))

/-- The autonomous steps of the block itself; HW_RESET is the environment's. -/
def agents : List AutoStep := [.pixel, .dmaRead, .serviceEnter, .waitRelease]

/-- What keeps an agent of the block from moving. -/
def agentBar (s : State) : AutoStep → Option NotEnabled
  | .pixel => pixelBar s
  | .dmaRead => dmaBar s
  | .serviceEnter => serviceBar s
  | .waitRelease => releaseBar s
  | .hwReset => none

/-- The agents that can move in a state. -/
def enabledAgents (s : State) : List AutoStep := agents.filter (fun a => (agentBar s a).isNone)

/-- A step the schedule does not name: a free choice among the agents that can move (R4, R101). When none
can, the block does nothing until the host acts (R104). DESIGN CHOICE (log 3). -/
def freeStep (s : State) : Host.Outcome State Fault Refusal :=
  unlessEnded s
    (match enabledAgents s with
     | [] => .next s
     | a :: rest =>
       exec (autoInstr ((a :: rest).getD (Config.agentChoice s.draws % (a :: rest).length) a))
         (drawn s))

/-- The next step of a run. -/
def nextStep (s : State) : Host.Outcome State Fault Refusal :=
  match s.schedule with
  | [] => freeStep s
  | e :: rest => runEvent e (afterEvent rest s)

end Sys2Proof.Machine
end

