-- ==== Sys2Proof/Machine/Step.lean ====
section
/-! DEFINITION. One step of a run, and how a command word comes to be the next one. -/

namespace Sys2Proof.Machine

/-- One step: the event the schedule names next, or a free step when it is empty. -/
def step (s : State) : Host.Outcome State Fault Refusal := nextStep s

/-- `s` with the command word of a table row as the host's next bus access: the write of that word to CMD
(spec/30_encoding.md R40) stands first in the schedule (log 4). -/
def State.withFetchWord (s : State) (nbits w : Nat) : State :=
  { s with schedule := .input (.busWrite cmdRegister (tableWord nbits w)) :: s.schedule }

end Sys2Proof.Machine
end

