-- ==== Sys2Proof/Safety.lean ====
section
/-! DEFINITION. The terms claims are stated in: runs that have not ended, who can act, the invariant of
the block, and the supply of bytes from the DMA reader to the serializer. -/

namespace Sys2Proof.Machine

/-! ## Runs and who can act -/

/-- No mark of the model is set: the run has not ended (spec/10_state.md R18). -/
def Unmarked (s : State) : Prop := s.fault = none ∧ s.refused = none

/-- RUNNING or STOPPED: the timers run (R11). -/
def TimersRun (s : State) : Prop := s.runstate = .running ∨ s.runstate = .stopped

/-- The host has a step: it is not halted, and its foreground is not blocked by a wait, or its handler
runs (spec/42_set_next_buffer.md R66, spec/45_stop_and_bus.md R86). -/
def HostCanAct (s : State) : Prop :=
  Unmarked s ∧ s.runstate ≠ .halted ∧ (s.waiting = true → s.inService = true)

/-- The scan position is at an active pixel: `de` is true (spec/41_timing_generator.md R59). -/
def AtActivePixel (s : State) : Prop :=
  (s.mode.va0 ≤ s.vline ∧ s.vline < s.mode.va1) ∧ (s.mode.ha0 ≤ s.hpos ∧ s.hpos < s.mode.ha1)

/-- The hold on PIXEL: a new byte is needed, none is queued, and the DMA chain is armed
(spec/43_dma_reader.md R71). -/
def PixelHeld (s : State) : Prop :=
  AtActivePixel s ∧ (s.hpos - s.mode.ha0) % 2 = 0 ∧ s.fq = [] ∧ s.dmaEn = true

/-- A good state: no Halt, no fault, no refusal (spec/70_reset_and_hazards.md R111). -/
def Good (s : State) : Prop := Unmarked s ∧ s.runstate ≠ .halted

/-- The operations of the host: commands and bus accesses. -/
def isHostOp : Instr → Bool
  | .nop => true
  | .configure => true
  | .setNextBuffer _ => true
  | .stop => true
  | .registerCallback _ => true
  | .eoi => true
  | .wr _ _ => true
  | .rd _ => true
  | .pixel => false
  | .dmaRead => false
  | .serviceEnter => false
  | .waitRelease => false
  | .hwReset => false

/-! ## The invariant of the block -/

/-- What a buffer the DMA reader is given satisfies: the granule divides the pointer, the pitch and the
line length, and the footprint stays inside the address space (spec/20_memory.md R31, R38). -/
structure BufferFits (m : ModeRegs) (ptr pitch : Word) (g : Granule) : Prop where
  ptrAligned : g.bytes ∣ ptr.toNat
  pitchAligned : g.bytes ∣ pitch.toNat
  lineDivided : g.bytes ∣ m.lb
  insideSpace : footprintEnd m ptr pitch ≤ 2 ^ 32

/-- The invariant every step keeps. -/
structure BlockInv (s : State) : Prop where
  /-- Memory is in canonical form. -/
  memCanonical : Memory.wf s.mem
  /-- 0 <= len(FQ) <= FQ_CAP (spec/10_state.md R14). -/
  queueBounded : s.fq.length ≤ Config.fqCap
  /-- The frozen mode has passed the checks K2, K4 and K5 (spec/40_configure.md R44). -/
  modeChecked : TimersRun s → checkMult8 s.mode = true ∧ checkTiming s.mode = true ∧ checkBpp s.mode = true
  /-- The scan position lies in the frame (R10). -/
  position : TimersRun s → s.hpos < s.mode.ht ∧ s.vline < s.mode.vt
  /-- HALT_CAUSE is 0 exactly while the block is not HALTED (R17). -/
  haltCauseIff : s.haltCause = .none ↔ s.runstate ≠ .halted
  /-- The interrupt is enabled exactly in RUNNING (R12, spec/60_exceptions.md R91). -/
  irqIffRunning : s.irqEn = true ↔ s.runstate = .running
  /-- An event is pending only with the interrupt enabled (R12). -/
  pendingEnabled : s.fbPending = true → s.irqEn = true
  /-- A pending event and a running service exclude each other (spec/44_frame_boundary.md R79). -/
  serviceAlone : s.inService = true → s.fbPending = false
  /-- Before CONFIGURE and after a Halt there is no handler, no wait and no armed buffer (R86). -/
  offQuiet : ¬ TimersRun s → s.inService = false ∧ s.waiting = false ∧ s.armed = false
  /-- Before CONFIGURE and after a Halt the pins are 0 (R20). -/
  offPins : ¬ TimersRun s → s.hsync = false ∧ s.vsync = false ∧ s.pix = 0
  /-- The DMA chain is enabled only in RUNNING and only once armed (R13, R86). -/
  dmaArmed : s.dmaEn = true → s.runstate = .running ∧ s.armed = true
  /-- An enabled chain has reads left in its frame (R13). -/
  dmaInFrame : s.dmaEn = true →
    s.dmaLine < s.mode.va.toNat ∧ s.dmaOff < s.mode.lb ∧ s.curG.bytes ∣ s.dmaOff
  /-- The queued buffer fits (spec/42_set_next_buffer.md R63). -/
  nextFits : s.armed = true → BufferFits s.mode s.nextPtr s.nextPitch s.nextG
  /-- The buffer of an enabled chain fits. -/
  curFits : s.dmaEn = true → BufferFits s.mode s.curPtr s.curPitch s.curG

/-! ## Supply: what the DMA reader has fetched and the serializer has taken -/

/-- Bytes of the current frame the DMA reader has fetched since the re-arm. -/
def fetched (s : State) : Nat := s.dmaLine * s.mode.lb + s.dmaOff

/-- Bytes of the current frame the serializer has taken, by the scan position: whole lines, and within an
active line one byte per two pixels already emitted (R60). -/
def consumed (s : State) : Nat :=
  if activeLine s.mode s.vline then
    row s * s.mode.lb + min ((s.hpos - s.mode.ha0 + 1) / 2) s.mode.lb
  else 0

/-- No chain is in use: nothing queued, nothing to come, and no byte half emitted. -/
def SupplyIdle (s : State) : Prop :=
  s.fq = [] ∧ s.dmaEn = false ∧ (AtActivePixel s → column s % 2 = 1 → s.curValid = false)

/-- A chain is in use: what was fetched is what was taken and what is queued, and the chain ends with
the frame (R69). -/
def SupplyFlowing (s : State) : Prop :=
  fetched s = consumed s + s.fq.length ∧ (s.dmaEn = false → fetched s = s.mode.va.toNat * s.mode.lb)

/-- While RUNNING the supply is idle or flowing. -/
def SupplyInv (s : State) : Prop := s.runstate = .running → SupplyIdle s ∨ SupplyFlowing s

/-- The address byte `k` of a frame is fetched from: line `k / LB`, offset `k mod LB` (R25, R34). -/
def streamAddr (s : State) (k : Nat) : Nat :=
  s.curPtr.toNat + k / s.mode.lb * s.curPitch.toNat + k % s.mode.lb

/-- What the host has stored is all surely visible to the DMA reader (spec/20_memory.md R28, R35). -/
def StoresSettled (s : State) : Prop := s.flushed = [] ∧ s.fresh = []

/-- The queue holds the bytes of the current buffer that are next on the pins, and inside a byte the
current byte is the one the buffer holds for this pixel (R25 to R27). -/
def PictureQueued (s : State) : Prop :=
  s.fq = (List.range s.fq.length).map (fun j => Memory.read s.mem (streamAddr s (consumed s + j))) ∧
  (AtActivePixel s → column s % 2 = 1 →
    s.curValid = true ∧
    s.curByte = Memory.read s.mem (pixelAddr s.curPtr s.curPitch (column s) (row s)))

/-- All host stores are settled, and while RUNNING no chain is in use or the queue holds the picture. -/
def PictureInv (s : State) : Prop :=
  StoresSettled s ∧ (s.runstate = .running → SupplyIdle s ∨ (SupplyFlowing s ∧ PictureQueued s))

/-- The next event of the schedule is no host store. -/
def NoStoreNext (s : State) : Prop := ∀ a b rest, s.schedule ≠ .hostStore a b :: rest

/-! ## Scan positions -/

/-- The position `(VLINE, HPOS)` after one pixel period (spec/41_timing_generator.md R62). -/
def nextPosition (m : ModeRegs) (p : Nat × Nat) : Nat × Nat :=
  if p.2 + 1 < m.ht then (p.1, p.2 + 1)
  else (if p.1 + 1 < m.vt then p.1 + 1 else 0, 0)

/-- How many samples an observation holds. -/
def sampleCount (l : List Obs) : Nat :=
  l.countP (fun o => match o with
    | .sample _ _ _ => true
    | .callback _ => false
    | .flushReq => false
    | .dmaRd _ _ => false
    | .halt _ => false
    | .readValue _ _ => false)

/-- What a mode register keeps of a written word: the bits of its field (R7, R82). -/
def modeMask (n : Nat) : Word := if n ≤ 9 then 0xFFFF else if n = 10 then 0x3 else 0x3F

end Sys2Proof.Machine
end

