-- ==== Sys2Proof/Certificates/Slice0/Obligations.lean ====
section
/-! DEFINITION. The statements for the provers, one per rule or group of rules of spec/. -/

open Sys2Proof Sys2Proof.Machine

/-! ## Encoding -/

/-- The words of spec/95_test_vectors.md section 2.2 decode as listed there. -/
def Obligations.CommandWordsDecode : Prop :=
  decodeCommand 0x00000000 = .ok .nop ∧
  decodeCommand 0x00000001 = .ok .configure ∧
  decodeCommand 0x00000102 = .ok (.setNextBuffer true) ∧
  decodeCommand 0x00000003 = .ok .stop ∧
  decodeCommand 0x00000004 = .ok (.registerCallback false) ∧
  decodeCommand 0x00000005 = .ok .eoi ∧
  decodeCommand 0x00000101 = .error .flagMustBeZero ∧
  decodeCommand 0x000000FF = .error .reservedOp ∧
  decodeCommand 0x80000002 = .error .reservedBitsSet ∧
  decode (.busWrite 0x00 0x00010280) = .ok (.wr 0x00 0x00010280) ∧
  decode (.busRead 0x10) = .ok (.rd 0x10) ∧
  decode (.auto .pixel) = .ok .pixel

/-- R41: the six rows of the operation map by match and mask, with F as the flag of the two operations
that have one; every other word is reserved (R42). -/
def Obligations.DecoderIsOperationMap : Prop :=
  ∀ w : Word,
    (w &&& 0xFFFFFFFF = 0x00000000 ↔ decodeCommand w = .ok .nop) ∧
    (w &&& 0xFFFFFFFF = 0x00000001 ↔ decodeCommand w = .ok .configure) ∧
    (w &&& 0xFFFFFEFF = 0x00000002 ↔ decodeCommand w = .ok (.setNextBuffer (w.getLsbD 8))) ∧
    (w &&& 0xFFFFFFFF = 0x00000003 ↔ decodeCommand w = .ok .stop) ∧
    (w &&& 0xFFFFFEFF = 0x00000004 ↔ decodeCommand w = .ok (.registerCallback (w.getLsbD 8))) ∧
    (w &&& 0xFFFFFFFF = 0x00000005 ↔ decodeCommand w = .ok .eoi) ∧
    ((∃ e, decodeCommand w = .error e) ↔
      6 ≤ w.toNat % 256 ∨ 512 ≤ w.toNat ∨
        (w.getLsbD 8 = true ∧ w.toNat % 256 ∈ [0, 1, 3, 5]))

/-- Decoding gives back every well-formed instruction from its encoding, every operand at every value. -/
def Obligations.DecodeEncodeRoundTrip : Prop :=
  ∀ i, wellFormed i = true → decode (encode i) = .ok i

/-- Nothing but the encoding of a well-formed instruction decodes to it: no bit of an input is dropped. -/
def Obligations.DecodedInputIsEncoding : Prop :=
  ∀ x i, decode x = .ok i → wellFormed i = true ∧ encode i = x

/-- R42: a reserved command word and a register number 0x15 or above are refused, whether the bus write
is performed as WR or comes from the schedule; nothing but the mark changes. -/
def Obligations.ReservedIsRefused : Prop :=
  ∀ s, HostCanAct s →
    (∀ w, 6 ≤ w.toNat % 256 ∨ 512 ≤ w.toNat ∨ (w.getLsbD 8 = true ∧ w.toNat % 256 ∈ [0, 1, 3, 5]) →
      exec (.wr 0x0E w) s = .next { s with refused := some .reservedCommand } ∧
      ∀ rest, step { s with schedule := .input (.busWrite 0x0E w) :: rest } =
        .next { s with schedule := rest, refused := some .reservedCommand }) ∧
    (∀ n v, 0x15 ≤ n →
      exec (.wr n v) s = .next { s with refused := some .noSuchRegister } ∧
      exec (.rd n) s = .next { s with refused := some .noSuchRegister })

/-- A write of a command's word to CMD is the command (R40, R82), in every state. -/
def Obligations.BusWriteToCmdIsCommand : Prop :=
  ∀ w i s, decodeCommand w = .ok i → exec (.wr 0x0E w) s = exec i s

/-! ## One step of a run -/

/-- The model's own scheduling (log 1, 2): a step whose next event is an input that decodes to `i` is
`exec i` from the state whose schedule has moved on, and leaves just that state when `i` is not enabled
there. The same of a command word placed by `withFetchWord`. -/
def Obligations.StepRunsDecodedInput : Prop :=
  (∀ s x rest i, s.schedule = .input x :: rest → decode x = .ok i →
    ((∀ why, exec i { s with schedule := rest } ≠ .refused (.notEnabled why)) →
      step s = exec i { s with schedule := rest }) ∧
    ((∃ why, exec i { s with schedule := rest } = .refused (.notEnabled why)) →
      step s = .next { s with schedule := rest })) ∧
  (∀ s nbits w i, decodeTableWord nbits w = some i →
    (∀ why, exec i s ≠ .refused (.notEnabled why)) → step (s.withFetchWord nbits w) = exec i s)

/-- The model's own scheduling (log 2, 3): with an empty schedule either no agent of the block is enabled and
nothing changes, or one that is enabled moves. Right after reset, and wherever the block is UNCONFIGURED, it
does nothing until the host acts (R104). -/
def Obligations.EmptyScheduleStep : Prop :=
  (∀ s, Unmarked s → s.schedule = [] →
    (step s = .next s ∧ ∀ a ∈ agents, ∃ why, exec (autoInstr a) s = .refused (.notEnabled why)) ∨
    (∃ a ∈ agents, step s = exec (autoInstr a) { s with draws := s.draws + 1 } ∧
      ∀ why, exec (autoInstr a) s ≠ .refused (.notEnabled why))) ∧
  (∀ s, Unmarked s → s.runstate = .unconfigured → s.schedule = [] → step s = .next s) ∧
  step State.reset = .next State.reset

/-- The model's own form of R28 (log 10, 12): a host store makes its byte the latest write to its address
and no other, and changes nothing of the block. -/
def Obligations.HostStoreIsLatestWrite : Prop :=
  ∀ s a b rest, Unmarked s → s.schedule = .hostStore a b :: rest →
    ∃ t, step s = .next t ∧ t = { s with schedule := rest, fresh := t.fresh } ∧
      ∀ x, latestByte t x = if x = a.toNat then b else latestByte s x

/-! ## Who can act -/

/-- R66: while WAITING = 1 and IN_SERVICE = 0 the host has no step; while WAITING = 1 and IN_SERVICE = 1
its steps are enabled as usual. That a missing step is answered by `notEnabled` is the model's form (log 2). -/
def Obligations.WaitBlocksForeground : Prop :=
  ∀ s, Unmarked s → s.runstate ≠ .halted → s.waiting = true →
    (s.inService = false → ∀ i, isHostOp i = true → exec i s = .refused (.notEnabled .hostBlocked)) ∧
    (s.inService = true → ∀ i, isHostOp i = true → ∃ t, exec i s = .next t)

/-- R88: in HALTED no step of any agent is enabled except HW_RESET (`notEnabled`: the model's form, log 2). -/
def Obligations.HaltedAllowsOnlyReset : Prop :=
  ∀ s, Unmarked s → s.runstate = .halted →
    (∀ i, i ≠ .hwReset → ∃ why, exec i s = .refused (.notEnabled why)) ∧
    (∃ t, exec .hwReset s = .next t ∧ t.runstate = .unconfigured)

/-- After a mark no step of any agent is enabled (R96 to R98); the model stops with the mark's name, and
HW_RESET alone goes on (log 5). -/
def Obligations.MarkEndsRun : Prop :=
  ∀ s i, i ≠ .hwReset →
    (∀ m, s.fault = some m → exec i s = .fault (.runEnded m)) ∧
    (∀ r, s.fault = none → s.refused = some r → exec i s = .refused (.runEnded r))

/-- R18: once set, neither mark is ever cleared by any step, hardware reset included. -/
def Obligations.MarksNeverCleared : Prop :=
  (∀ i s t, exec i s = .next t →
    (s.fault ≠ none → t.fault = s.fault) ∧ (s.refused ≠ none → t.refused = s.refused)) ∧
  (∀ s t, step s = .next t →
    (s.fault ≠ none → t.fault = s.fault) ∧ (s.refused ≠ none → t.refused = s.refused))

/-- The autonomous steps are enabled where their rules say (R52 with R71, R68, R73, R67, R84), and none but
HW_RESET in UNCONFIGURED and HALTED (R86; log 17). The two conditions that the read lies inside 2^32, one of
DMA_READ and one of SERVICE_ENTER, stand in no enabling rule: they are the model's (log 13), and under BlockInv
they hold. -/
def Obligations.AutonomousStepsEnabled : Prop :=
  ∀ s, Unmarked s →
    ((∃ t, exec .pixel s = .next t) ↔ TimersRun s ∧ ¬ PixelHeld s) ∧
    ((∃ t, exec .dmaRead s = .next t) ↔
      TimersRun s ∧ s.dmaEn = true ∧ s.fq.length + s.curG.bytes ≤ Config.fqCap ∧
        s.curPtr.toNat + s.dmaLine * s.curPitch.toNat + s.dmaOff + s.curG.bytes ≤ 2 ^ 32) ∧
    ((∃ t, exec .serviceEnter s = .next t) ↔
      s.runstate = .running ∧ s.irqEn = true ∧ s.fbPending = true ∧ s.inService = false ∧
        (s.armed = true → ¬ (s.mode.va0 ≤ s.vline ∧ s.vline < s.mode.va1) →
          s.nextPtr.toNat + s.nextG.bytes ≤ 2 ^ 32)) ∧
    ((∃ t, exec .waitRelease s = .next t) ↔
      TimersRun s ∧ s.waiting = true ∧ s.framecount ≠ s.waitFc) ∧
    (∃ t, exec .hwReset s = .next t)

/-! ## The commands and bus accesses -/

/-- R81: the word 0x00000000 is NOP, and NOP changes nothing wherever the host has a step. -/
def Obligations.NopChangesNothing : Prop :=
  decode (.busWrite 0x0E 0x00000000) = .ok .nop ∧ ∀ s, HostCanAct s → exec .nop s = .next s

/-- R45 to R48: CONFIGURE is refused outside UNCONFIGURED; there it halts with the cause of the first
failing check in the order K2, K3, K4, K5, then, after the draw, with RESET_ACK or not at all; on success
it writes what R48 lists. Both outcomes are whole states, so everything else is unchanged. -/
def Obligations.ConfigureOutcome : Prop :=
  decode (.busWrite 0x0E 0x00000001) = .ok .configure ∧
  ∀ s, HostCanAct s →
    (s.runstate ≠ .unconfigured → exec .configure s = .next { s with refused := some .configureTwice }) ∧
    (s.runstate = .unconfigured →
      exec .configure s = .next
        (let halt (c : HaltCause) (draws : Nat) : State :=
          { s with
            runstate := .halted, haltCause := c, irqEn := false, fbPending := false, dmaEn := false,
            draws := draws, obs := .halt c :: s.obs }
         if ¬ (8 ∣ s.mode.ha.toNat ∧ 8 ∣ s.mode.hfp.toNat ∧ 8 ∣ s.mode.hs.toNat ∧ 8 ∣ s.mode.hbp.toNat) then
           halt .hNotMult8 s.draws
         else if Config.validRatio s.mode.num s.mode.den = false then halt .badRatio s.draws
         else if ¬ (0 < s.mode.ha.toNat ∧ 0 < s.mode.hs.toNat ∧ 0 < s.mode.va.toNat ∧ 0 < s.mode.vs.toNat) then
           halt .badTiming s.draws
         else if s.mode.bpp ≠ 4 then halt .badBpp s.draws
         else if Config.resetAckClears s.draws = false then halt .resetAck (s.draws + 1)
         else
           { s with
             hpos := 0, vline := 0, framecount := 0, fbPending := false, inService := false, irqEn := true,
             dmaEn := false, dmaLine := 0, dmaOff := 0, fq := [], curByte := 0, curValid := false,
             runstate := .running, draws := s.draws + 1 }))

/-- R2: a ratio with a zero part is never valid, so that CONFIGURE with the mode registers at their reset
values halts with BAD_RATIO (R45, corner case; 95 section 2.3). -/
def Obligations.ZeroRatioHalts : Prop :=
  (∀ n : Half, Config.validRatio n 0 = false ∧ Config.validRatio 0 n = false) ∧
  (∀ s, HostCanAct s → s.runstate = .unconfigured →
    s.mode.ha.toNat % 8 = 0 → s.mode.hfp.toNat % 8 = 0 → s.mode.hs.toNat % 8 = 0 →
    s.mode.hbp.toNat % 8 = 0 → (s.mode.num = 0 ∨ s.mode.den = 0) →
    ∃ t, exec .configure s = .next t ∧ t.runstate = .halted ∧ t.haltCause = .badRatio)

/-- R63: the four refusals in order, and what an accepted SET_NEXT_BUFFER writes; nothing else changes. -/
def Obligations.SetNextBufferOutcome : Prop :=
  decode (.busWrite 0x0E 0x00000002) = .ok (.setNextBuffer false) ∧
  decode (.busWrite 0x0E 0x00000102) = .ok (.setNextBuffer true) ∧
  ∀ s wait, HostCanAct s →
    exec (.setNextBuffer wait) s = .next
      (let g := gran s.argPtr s.argPitch
       if s.runstate ≠ .running then { s with refused := some .setBufferWhileNotRunning }
       else if wait = true ∧ s.inService = true then { s with refused := some .waitInsideHandler }
       else if ¬ g.bytes ∣ s.mode.ha.toNat * 4 / 8 then { s with refused := some .granuleNotDividingLine }
       else if 2 ^ 32 <
           s.argPtr.toNat + (s.mode.va.toNat - 1) * s.argPitch.toNat + s.mode.ha.toNat * 4 / 8 then
         { s with refused := some .footprintPastEnd }
       else
         { s with
           nextPtr := s.argPtr, nextPitch := s.argPitch, nextG := g, armed := true,
           waitFc := if wait then s.framecount else s.waitFc,
           waiting := if wait then true else s.waiting })

/-- R64: the granule is the largest of 8, 4, 2, 1 that divides both operands, and only the low three bits
of each matter. -/
def Obligations.GranuleIsLargestDivisor : Prop :=
  ∀ ptr pitch : Word,
    (gran ptr pitch).bytes ∈ [8, 4, 2, 1] ∧
    (gran ptr pitch).bytes ∣ ptr.toNat ∧ (gran ptr pitch).bytes ∣ pitch.toNat ∧
    (∀ d ∈ [8, 4, 2, 1], d ∣ ptr.toNat → d ∣ pitch.toNat → d ≤ (gran ptr pitch).bytes) ∧
    gran ptr pitch = gran (ptr &&& 7) (pitch &&& 7)

/-- R80: STOP is refused before CONFIGURE; otherwise it turns the interrupt and the DMA reader off, drops
a pending event, and nothing else changes. -/
def Obligations.StopOutcome : Prop :=
  decode (.busWrite 0x0E 0x00000003) = .ok .stop ∧
  ∀ s, HostCanAct s →
    (s.runstate = .unconfigured → exec .stop s = .next { s with refused := some .stopBeforeConfigure }) ∧
    (s.runstate ≠ .unconfigured →
      exec .stop s = .next
        { s with irqEn := false, fbPending := false, dmaEn := false, runstate := .stopped })

/-- R78: REGISTER_CALLBACK writes CB_EN and nothing else. -/
def Obligations.RegisterCallbackOutcome : Prop :=
  decode (.busWrite 0x0E 0x00000004) = .ok (.registerCallback false) ∧
  decode (.busWrite 0x0E 0x00000104) = .ok (.registerCallback true) ∧
  ∀ s enable, HostCanAct s → exec (.registerCallback enable) s = .next { s with cbEn := enable }

/-- R77: EOI emits FLUSH_REQ and clears IN_SERVICE, whatever CB_EN is, and is refused outside the handler.
Nothing else of the block changes (R33). The candidates of every address stay (R29); which stores a flush
request covers is the model's own book-keeping (log 10) and left open here. -/
def Obligations.EoiOutcome : Prop :=
  decode (.busWrite 0x0E 0x00000005) = .ok .eoi ∧
  ∀ s, HostCanAct s →
    (s.inService = true →
      ∃ t, exec .eoi s = .next t ∧
        t = { s with
              inService := false, obs := .flushReq :: s.obs, flushed := t.flushed, fresh := t.fresh } ∧
        ∀ a, candidates t a = candidates s a) ∧
    (s.inService = false → exec .eoi s = .next { s with refused := some .eoiOutsideHandler })

/-- R82: what a bus write does to each of the 21 registers and beyond, for every value written. -/
def Obligations.WrOutcome : Prop :=
  ∀ s n v, HostCanAct s →
    (0x15 ≤ n → exec (.wr n v) s = .next { s with refused := some .noSuchRegister }) ∧
    (n ≤ 0x0B → s.runstate = .unconfigured →
      ∃ m, exec (.wr n v) s = .next { s with mode := m } ∧
        (∀ k, k ≤ 0x0B → readReg { s with mode := m } k =
          if k = n then some (v &&& modeMask n) else readReg s k)) ∧
    (n ≤ 0x0B → s.runstate ≠ .unconfigured →
      exec (.wr n v) s = .next { s with refused := some .modeImmutable }) ∧
    (n = 0x0C → exec (.wr n v) s = .next { s with argPtr := v }) ∧
    (n = 0x0D → exec (.wr n v) s = .next { s with argPitch := v }) ∧
    (n = 0x0E → ∀ i, decodeCommand v = .ok i → exec (.wr n v) s = exec i s) ∧
    (n = 0x0E → (∃ e, decodeCommand v = .error e) →
      exec (.wr n v) s = .next { s with refused := some .reservedCommand }) ∧
    (0x0F ≤ n → n ≤ 0x14 → exec (.wr n v) s = .next { s with refused := some .writeToReadOnly })

/-- R83 with the register table of R7: what a bus read of each register returns; nothing but the
observation changes. -/
def Obligations.RdOutcome : Prop :=
  ∀ s, HostCanAct s →
    (∀ p ∈ [(0x00, s.mode.ha.setWidth 32), (0x01, s.mode.hfp.setWidth 32), (0x02, s.mode.hs.setWidth 32),
        (0x03, s.mode.hbp.setWidth 32), (0x04, s.mode.va.setWidth 32), (0x05, s.mode.vfp.setWidth 32),
        (0x06, s.mode.vs.setWidth 32), (0x07, s.mode.vbp.setWidth 32), (0x08, s.mode.num.setWidth 32),
        (0x09, s.mode.den.setWidth 32), (0x0A, s.mode.pol.setWidth 32), (0x0B, s.mode.bpp.setWidth 32),
        (0x0C, s.argPtr), (0x0D, s.argPitch), (0x0E, 0), (0x0F, status s), (0x10, s.framecount),
        (0x11, s.curPtr), (0x12, s.curPitch), (0x13, s.nextPtr), (0x14, s.nextPitch)],
      exec (.rd p.1) s = .next { s with obs := .readValue p.1 p.2 :: s.obs }) ∧
    (∀ n, 0x15 ≤ n → exec (.rd n) s = .next { s with refused := some .noSuchRegister })

/-- R8: the fields of STATUS, bit by bit, the reserved ones reading 0, with the codes of RUNSTATE (R8, R11) and
of HALT_CAUSE (R89) as numbers. -/
def Obligations.StatusFields : Prop :=
  ∀ s,
    ((s.runstate = .unconfigured → (status s).extractLsb' 0 2 = 0) ∧
      (s.runstate = .running → (status s).extractLsb' 0 2 = 1) ∧
      (s.runstate = .stopped → (status s).extractLsb' 0 2 = 2) ∧
      (s.runstate = .halted → (status s).extractLsb' 0 2 = 3)) ∧
    (status s).getLsbD 2 = s.irqEn ∧ (status s).getLsbD 3 = s.fbPending ∧
    (status s).getLsbD 4 = s.inService ∧ (status s).getLsbD 5 = s.dmaEn ∧
    (status s).getLsbD 6 = s.armed ∧ (status s).getLsbD 7 = s.cbEn ∧
    (status s).getLsbD 8 = s.waiting ∧ (status s).extractLsb' 9 3 = 0 ∧
    ((s.haltCause = .none → (status s).extractLsb' 12 4 = 0) ∧
      (s.haltCause = .resetAck → (status s).extractLsb' 12 4 = 1) ∧
      (s.haltCause = .hNotMult8 → (status s).extractLsb' 12 4 = 2) ∧
      (s.haltCause = .badRatio → (status s).extractLsb' 12 4 = 3) ∧
      (s.haltCause = .badTiming → (status s).extractLsb' 12 4 = 4) ∧
      (s.haltCause = .badBpp → (status s).extractLsb' 12 4 = 5)) ∧
    (status s).extractLsb' 16 16 = 0

/-- R85: from CONFIGURE on no operation but HW_RESET changes the mode registers, a write to one is
refused, and they can be read wherever the host has a step. -/
def Obligations.ModeIsImmutable : Prop :=
  (∀ i s t, s.runstate ≠ .unconfigured → exec i s = .next t → i ≠ .hwReset → t.mode = s.mode) ∧
  (∀ s n v, HostCanAct s → s.runstate ≠ .unconfigured → n ≤ 0x0B →
    exec (.wr n v) s = .next { s with refused := some .modeImmutable }) ∧
  (∀ s n, HostCanAct s → n ≤ 0x0B →
    ∃ v, readReg s n = some v ∧ exec (.rd n) s = .next { s with obs := .readValue n v :: s.obs })

/-! ## PIXEL -/

/-- R52, R54, R55, R57: an enabled PIXEL emits one sample whose sync levels are the polarity bit while the
sync signal is active and its complement otherwise, drives the pins with it, and changes nothing but the
fields R52 names. R20: the pins then show these levels, IRQ is FB_PENDING and IRQ_EN, and in UNCONFIGURED and
HALTED all four pins are 0. What the pins show between PIXEL steps (log 16) is not stated here. -/
def Obligations.PixelEmitsSample : Prop :=
  (∀ s, Unmarked s → TimersRun s → ¬ PixelHeld s →
    ∃ t, exec .pixel s = .next t ∧
      (let h := if s.hpos < s.mode.hs.toNat then s.mode.pol.getLsbD 0 else !s.mode.pol.getLsbD 0
       let v := if s.vline < s.mode.vs.toNat then s.mode.pol.getLsbD 1 else !s.mode.pol.getLsbD 1
       t = { s with
             hpos := t.hpos, vline := t.vline, curByte := t.curByte, curValid := t.curValid, fq := t.fq,
             fbPending := t.fbPending, fault := t.fault, draws := t.draws,
             hsync := h, vsync := v, pix := t.pix, obs := .sample h v t.pix :: s.obs } ∧
       hsyncPin t = h ∧ vsyncPin t = v ∧ pixPins t = t.pix ∧ irqPin t = (t.fbPending && t.irqEn))) ∧
  (∀ s, s.runstate = .unconfigured ∨ s.runstate = .halted →
    hsyncPin s = false ∧ vsyncPin s = false ∧ pixPins s = 0 ∧ irqPin s = false)

/-- R60 and R61: what the serializer takes and puts on PIX, in each of its cases. -/
def Obligations.PixelSerializer : Prop :=
  ∀ s t, exec .pixel s = .next t →
    (¬ AtActivePixel s →
      t.pix = 0 ∧ t.fq = s.fq ∧ t.curByte = s.curByte ∧ t.curValid = s.curValid ∧ t.draws = s.draws) ∧
    (AtActivePixel s → (s.hpos - s.mode.ha0) % 2 = 0 → ∀ b rest, s.fq = b :: rest →
      t.pix = b.extractLsb' 0 4 ∧ t.fq = rest ∧ t.curByte = b ∧ t.curValid = true ∧ t.draws = s.draws) ∧
    (AtActivePixel s → (s.hpos - s.mode.ha0) % 2 = 0 → s.fq = [] →
      s.dmaEn = false ∧ t.pix = Config.pixelDraw s.draws ∧ t.fq = [] ∧ t.curByte = s.curByte ∧
        t.curValid = false ∧ t.draws = s.draws + 1) ∧
    (AtActivePixel s → (s.hpos - s.mode.ha0) % 2 = 1 → s.curValid = true →
      t.pix = s.curByte.extractLsb' 4 4 ∧ t.fq = s.fq ∧ t.curByte = s.curByte ∧ t.curValid = true ∧
        t.draws = s.draws) ∧
    (AtActivePixel s → (s.hpos - s.mode.ha0) % 2 = 1 → s.curValid = false →
      t.pix = Config.pixelDraw s.draws ∧ t.fq = s.fq ∧ t.curByte = s.curByte ∧ t.curValid = false ∧
        t.draws = s.draws + 1)

/-- R62 and R72: the advance of the scan position, and the frame event in the one step in which `va`
falls: latched, lost with the interrupt disabled, or the fault EVENT_OVERRUN. That the PIXEL that raises
EVENT_OVERRUN still advances the position is the model's (log 6). -/
def Obligations.PixelAdvancesAndRaisesEvent : Prop :=
  ∀ s t, exec .pixel s = .next t →
    (t.vline, t.hpos) =
      (if s.hpos + 1 < s.mode.ht then (s.vline, s.hpos + 1)
       else (if s.vline + 1 < s.mode.vt then s.vline + 1 else 0, 0)) ∧
    ((s.mode.va0 ≤ s.vline ∧ s.vline < s.mode.va1) ∧ ¬ (s.mode.va0 ≤ t.vline ∧ t.vline < s.mode.va1) →
      (s.irqEn = false → t.fbPending = s.fbPending ∧ t.fault = none) ∧
      (s.irqEn = true → s.fbPending = false → s.inService = false → t.fbPending = true ∧ t.fault = none) ∧
      (s.irqEn = true → (s.fbPending = true ∨ s.inService = true) →
        t.fbPending = s.fbPending ∧ t.fault = some .eventOverrun)) ∧
    (¬ ((s.mode.va0 ≤ s.vline ∧ s.vline < s.mode.va1) ∧ ¬ (s.mode.va0 ≤ t.vline ∧ t.vline < s.mode.va1)) →
      t.fbPending = s.fbPending ∧ t.fault = none)

/-- R71: a PIXEL that needs a byte the armed chain has not supplied is held, and is held in no other
case; a DMA_READ is enabled there, and ends the hold. That a held PIXEL is answered by `notEnabled` is the
model's form (log 2); the hold itself is R71's and errs toward proving (log 18). -/
def Obligations.SupplyHoldsPixel : Prop :=
  ∀ s, Unmarked s → TimersRun s →
    (exec .pixel s = .refused (.notEnabled .pixelHeld) ↔ PixelHeld s) ∧
    (BlockInv s → PixelHeld s → ∃ t, exec .dmaRead s = .next t ∧ t.fq ≠ [] ∧ ¬ PixelHeld t)

/-! ## The DMA reader -/

/-- R68: one DMA_READ; the position moves on by the granule, to the next line at the line's end, and the
chain ends after line VA - 1. Nothing else changes. -/
def Obligations.DmaReadOutcome : Prop :=
  ∀ s, Unmarked s → TimersRun s → s.dmaEn = true → s.fq.length + s.curG.bytes ≤ Config.fqCap →
    (let addr := s.curPtr.toNat + s.dmaLine * s.curPitch.toNat + s.dmaOff
     addr + s.curG.bytes ≤ 2 ^ 32 →
     exec .dmaRead s = .next
      (let eol := s.dmaOff + s.curG.bytes = s.mode.ha.toNat * 4 / 8
       { s with
         fq := s.fq ++ (List.range s.curG.bytes).map (fun i => readByte s (addr + i))
         obs := .dmaRd addr s.curG.bytes :: s.obs
         draws := s.draws + 1
         dmaOff := if eol then 0 else s.dmaOff + s.curG.bytes
         dmaLine := if eol then s.dmaLine + 1 else s.dmaLine
         dmaEn := if eol then decide (s.dmaLine + 1 ≠ s.mode.va.toNat) else true }))

/-- R28: every byte a DMA read delivers is one that its address really held: the latest write if the
memory is coherent, else the newest surely visible one or any newer one. How the candidates are kept is the
model's form (log 10). -/
def Obligations.ReadSeesCandidate : Prop :=
  ∀ s t, exec .dmaRead s = .next t →
    ∃ bytes, t.fq = s.fq ++ bytes ∧ bytes.length = s.curG.bytes ∧
      ∀ i, (hi : i < bytes.length) →
        if Config.coherent = true then bytes[i] = latestByte s (dmaAddr s + i)
        else bytes[i] ∈ candidates s (dmaAddr s + i)

/-- R31, R32 and R38: a DMA read is naturally aligned, inside the address space, and touches only bytes of
the footprint: a DMA_READ of the current buffer, and the first read of a frame, inside SERVICE_ENTER (R74), of
the buffer that becomes current. No other operation reads. -/
def Obligations.ReadsAlignedInFootprint : Prop :=
  (∀ s t, BlockInv s → exec .dmaRead s = .next t →
    t.obs = .dmaRd (dmaAddr s) s.curG.bytes :: s.obs ∧
    s.curG.bytes ∣ dmaAddr s ∧ dmaAddr s + s.curG.bytes ≤ 2 ^ 32 ∧
    ∀ i, i < s.curG.bytes → inFootprint s.mode s.curPtr s.curPitch (dmaAddr s + i)) ∧
  (∀ s t, BlockInv s → exec .serviceEnter s = .next t → vaActive s = false → s.armed = true →
    (∃ e, t.obs = e :: .dmaRd s.nextPtr.toNat s.nextG.bytes :: s.obs ∧ ∀ a n, e ≠ .dmaRd a n) ∧
    s.nextG.bytes ∣ s.nextPtr.toNat ∧ s.nextPtr.toNat + s.nextG.bytes ≤ 2 ^ 32 ∧
    ∀ i, i < s.nextG.bytes → inFootprint s.mode s.nextPtr s.nextPitch (s.nextPtr.toNat + i)) ∧
  (∀ i s t, exec i s = .next t →
    i = .dmaRead ∨ (i = .serviceEnter ∧ vaActive s = false ∧ s.armed = true) ∨
      ∀ a n, Obs.dmaRd a n ∈ t.obs → Obs.dmaRd a n ∈ s.obs)

/-- R34: read `k` of a frame is at `CUR_PTR + (k*G / LB) * CUR_PITCH + (k*G mod LB)`, where `k` reads have
been made when the position is at byte `k * G` of the frame. -/
def Obligations.ReadOrder : Prop :=
  ∀ s t k, BlockInv s → exec .dmaRead s = .next t → fetched s = k * s.curG.bytes →
    t.obs = .dmaRd (s.curPtr.toNat + k * s.curG.bytes / s.mode.lb * s.curPitch.toNat
      + k * s.curG.bytes % s.mode.lb) s.curG.bytes :: s.obs ∧
    fetched t = (k + 1) * s.curG.bytes

/-- R69: the chain disables itself exactly at its end, after VA * LB / CUR_G reads. -/
def Obligations.ChainEndsWithFrame : Prop :=
  ∀ s t, BlockInv s → exec .dmaRead s = .next t →
    fetched s % s.curG.bytes = 0 ∧ fetched t ≤ s.mode.va.toNat * s.mode.lb ∧
    (t.dmaEn = false ↔ fetched t = s.mode.va.toNat * s.mode.lb) ∧
    (t.dmaEn = false ↔ fetched t / s.curG.bytes = readsPerFrame s.mode s.curG)

/-! ## The frame interrupt -/

/-- R73 and R96: a SERVICE_ENTER in the active region sets FAULT. That it writes nothing else, the pending
stores included, which it does not settle, is the model's reading of the `stop` in sub-step 0 of R73 (log 23). -/
def Obligations.LateServiceFaults : Prop :=
  ∀ s, Unmarked s → s.runstate = .running → s.irqEn = true → s.fbPending = true → s.inService = false →
    s.mode.va0 ≤ s.vline → s.vline < s.mode.va1 →
    exec .serviceEnter s = .next { s with fault := some .lateService }

/-- R73 to R76: a SERVICE_ENTER in time re-arms the DMA reader when a buffer is armed, counts the frame,
clears FB_PENDING, and then either calls back or requests the flush. Everything else of the block is
unchanged. The bytes of the first read are values their addresses really held (R28). Which stores become
surely visible is the model's own book-keeping (log 10) and left open here. -/
def Obligations.ServiceEnterOutcome : Prop :=
  ∀ s, Unmarked s → s.runstate = .running → s.irqEn = true → s.fbPending = true → s.inService = false →
    ¬ (s.mode.va0 ≤ s.vline ∧ s.vline < s.mode.va1) →
    (s.armed = true → s.nextPtr.toNat + s.nextG.bytes ≤ 2 ^ 32) →
    ∃ t, exec .serviceEnter s = .next t ∧
      t = (let g := s.nextG.bytes
           let eol := g = s.mode.ha.toNat * 4 / 8
           let armed : State := if s.armed then
               { s with
                 curPtr := s.nextPtr
                 curPitch := s.nextPitch
                 curG := s.nextG
                 fq := t.fq
                 obs := .dmaRd s.nextPtr.toNat g :: s.obs
                 draws := s.draws + 1
                 dmaOff := if eol then 0 else g
                 dmaLine := if eol then 1 else 0
                 dmaEn := if eol then decide (1 ≠ s.mode.va.toNat) else true }
             else s
           let counted : State :=
             { armed with
               framecount := s.framecount + 1, fbPending := false
               mem := t.mem, flushed := t.flushed, fresh := t.fresh }
           if s.cbEn then
             { counted with inService := true, obs := .callback (s.framecount + 1) :: armed.obs }
           else { counted with obs := .flushReq :: armed.obs }) ∧
      (s.armed = true → t.fq.length = s.nextG.bytes ∧
        ∀ i, (hi : i < t.fq.length) →
          if Config.coherent = true then t.fq[i] = latestByte t (s.nextPtr.toNat + i)
          else t.fq[i] ∈ candidates t (s.nextPtr.toNat + i))

/-- R35: from a SERVICE_ENTER on, a byte that no store has touched since the flush request before it is
surely visible: a read has one candidate, the latest write. The stores no flush request has followed are
the model's `fresh` (log 10): a service without a callback, and an EOI, leave none. -/
def Obligations.ServiceMakesFlushedVisible : Prop :=
  (∀ (s t : State) (a : Nat), BlockInv s → exec .serviceEnter s = .next t →
    ¬ (s.mode.va0 ≤ s.vline ∧ s.vline < s.mode.va1) → (∀ w ∈ s.fresh, w.addr.toNat ≠ a) →
    candidates t a = [latestByte s a] ∧ readByte t a = latestByte s a) ∧
  (∀ s t : State, exec .serviceEnter s = .next t → ¬ (s.mode.va0 ≤ s.vline ∧ s.vline < s.mode.va1) →
    s.cbEn = false → t.fresh = []) ∧
  (∀ s t : State, exec .eoi s = .next t → s.inService = true → t.fresh = [])

/-- R67: WAIT_RELEASE clears WAITING and nothing else, exactly when FRAMECOUNT differs from WAIT_FC. That a
step that is not enabled is answered by `notEnabled` is the model's form (log 2), and that the timers must be on
is deduced from R86 (log 17). -/
def Obligations.WaitReleaseOutcome : Prop :=
  ∀ s, Unmarked s → TimersRun s →
    (s.waiting = true → s.framecount ≠ s.waitFc →
      exec .waitRelease s = .next { s with waiting := false }) ∧
    (s.waiting = false ∨ s.framecount = s.waitFc →
      exec .waitRelease s = .refused (.notEnabled .nothingToRelease))

/-! ## Reset -/

/-- R84: HW_RESET is enabled in every state, gives every element of the block its reset value (R22), and
leaves FAULT and REFUSED; so every register reads 0, and the pins are 0. -/
def Obligations.HwResetOutcome : Prop :=
  ∀ s, ∃ t, exec .hwReset s = .next t ∧
    (∀ n, n ≤ 0x14 → readReg t n = some 0) ∧
    t.runstate = .unconfigured ∧ t.haltCause = .none ∧ t.curG = .g1 ∧ t.nextG = .g1 ∧
    t.armed = false ∧ t.dmaEn = false ∧ t.dmaLine = 0 ∧ t.dmaOff = 0 ∧ t.fq = [] ∧
    t.curByte = 0 ∧ t.curValid = false ∧ t.hpos = 0 ∧ t.vline = 0 ∧
    t.irqEn = false ∧ t.fbPending = false ∧ t.inService = false ∧ t.cbEn = false ∧
    t.waiting = false ∧ t.waitFc = 0 ∧
    hsyncPin t = false ∧ vsyncPin t = false ∧ pixPins t = 0 ∧ irqPin t = false ∧
    t.fault = s.fault ∧ t.refused = s.refused

/-- The reset values of the model's state: those of R22, and the model's own fields empty (log 14). -/
def Obligations.ResetStateValues : Prop :=
  (∀ n, n ≤ 0x14 → readReg State.reset n = some 0) ∧ status State.reset = 0 ∧
  State.reset.runstate = .unconfigured ∧ State.reset.curG = .g1 ∧ State.reset.nextG = .g1 ∧
  State.reset.fq = [] ∧ State.reset.hpos = 0 ∧ State.reset.vline = 0 ∧ Good State.reset ∧
  (∀ a, candidates State.reset a = [0])

/-! ## Rules of the whole machine -/

/-- R4 with R10: one PIXEL step emits exactly one sample and every other operation none; the scan position
is written by PIXEL, CONFIGURE and HW_RESET only. -/
def Obligations.OneSamplePerPixel : Prop :=
  ∀ i s t, exec i s = .next t →
    sampleCount t.obs = sampleCount s.obs + (if i = .pixel then 1 else 0) ∧
    (i ≠ .pixel → i ≠ .hwReset → s.runstate ≠ .unconfigured → t.hpos = s.hpos ∧ t.vline = s.vline)

/-- R21: no operation reads the observation or takes anything back from it: whatever was observed before,
an operation answers the same and adds the same items. That State keeps it is the model's form (log 15). -/
def Obligations.ObservationIsNotRead : Prop :=
  ∀ i s o,
    (∀ t, exec i s = .next t → ∃ new, new.length ≤ 2 ∧ t.obs = new ++ s.obs ∧
      exec i { s with obs := o } = .next { t with obs := new ++ o }) ∧
    (∀ r, exec i s = .fault r → exec i { s with obs := o } = .fault r) ∧
    (∀ r, exec i s = .refused r → exec i { s with obs := o } = .refused r)

/-- R75 with R9: FRAMECOUNT goes up by exactly one at a SERVICE_ENTER in time, modulo 2^32, and by nothing
else; CONFIGURE and HW_RESET set it to 0. -/
def Obligations.FrameCounterCountsServices : Prop :=
  ∀ i s t, exec i s = .next t →
    (i = .serviceEnter → vaActive s = false → t.framecount.toNat = (s.framecount.toNat + 1) % 2 ^ 32) ∧
    (i = .serviceEnter → vaActive s = true → t.framecount = s.framecount) ∧
    (i ≠ .serviceEnter → t.framecount = s.framecount ∨
      (t.framecount = 0 ∧ (i = .hwReset ∨ s.runstate = .unconfigured ∧ t.runstate = .running)))

/-- R9 and R19: CUR_* change only at a SERVICE_ENTER outside the active region (so no frame mixes two
buffers), NEXT_* only at SET_NEXT_BUFFER, ARG_* only at WR; ARMED is cleared by HW_RESET only. -/
def Obligations.BufferRegisterWriters : Prop :=
  ∀ i s t, exec i s = .next t → i ≠ .hwReset →
    ((t.curPtr, t.curPitch, t.curG) ≠ (s.curPtr, s.curPitch, s.curG) →
      i = .serviceEnter ∧ vaActive s = false ∧ s.armed = true ∧
        (t.curPtr, t.curPitch, t.curG) = (s.nextPtr, s.nextPitch, s.nextG)) ∧
    ((t.nextPtr, t.nextPitch, t.nextG) ≠ (s.nextPtr, s.nextPitch, s.nextG) ∨ t.armed ≠ s.armed →
      (∃ wait, i = .setNextBuffer wait ∨
        ∃ w, i = .wr 0x0E w ∧ decodeCommand w = .ok (.setNextBuffer wait)) ∧
      (t.nextPtr, t.nextPitch) = (s.argPtr, s.argPitch)) ∧
    (s.armed = true → t.armed = true) ∧
    (t.argPtr ≠ s.argPtr → ∃ v, i = .wr 0x0C v ∧ t.argPtr = v) ∧
    (t.argPitch ≠ s.argPitch → ∃ v, i = .wr 0x0D v ∧ t.argPitch = v)

/-- R11: the transitions of RUNSTATE. UNCONFIGURED goes to RUNNING or HALTED, RUNNING to STOPPED, any state
to UNCONFIGURED by HW_RESET; there is no other transition. -/
def Obligations.RunStateTransitions : Prop :=
  ∀ i s t, exec i s = .next t → i ≠ .hwReset →
    t.runstate = s.runstate ∨
    (s.runstate = .unconfigured ∧ (t.runstate = .running ∨ t.runstate = .halted) ∧
      (i = .configure ∨ i = .wr 0x0E 0x00000001)) ∨
    (s.runstate = .running ∧ t.runstate = .stopped ∧ (i = .stop ∨ i = .wr 0x0E 0x00000003))

/-- R12: what sets and what clears each of the four flags of the interrupt controller (hardware reset
clears all four, R84), and the IRQ pin. While IN_SERVICE = 1 there is no SERVICE_ENTER. -/
def Obligations.InterruptFlagWriters : Prop :=
  (∀ s, TimersRun s → irqPin s = (s.fbPending && s.irqEn)) ∧
  (∀ s t, s.inService = true → exec .serviceEnter s ≠ .next t) ∧
  ∀ i s t, exec i s = .next t → i ≠ .hwReset →
    (s.irqEn = false → t.irqEn = true → s.runstate = .unconfigured ∧ t.runstate = .running) ∧
    (s.irqEn = true → t.irqEn = false → t.runstate = .stopped ∨ t.runstate = .halted) ∧
    (s.fbPending = false → t.fbPending = true → i = .pixel ∧ s.irqEn = true) ∧
    (s.fbPending = true → t.fbPending = false →
      i = .serviceEnter ∨ t.runstate = .stopped ∨ t.runstate = .halted ∨
        (s.runstate = .unconfigured ∧ t.runstate = .running)) ∧
    (s.inService = false → t.inService = true → i = .serviceEnter ∧ s.cbEn = true) ∧
    (s.inService = true → t.inService = false →
      i = .eoi ∨ i = .wr 0x0E 0x00000005 ∨ (s.runstate = .unconfigured ∧ t.runstate = .running)) ∧
    (t.cbEn ≠ s.cbEn →
      i = .registerCallback t.cbEn ∨
        i = .wr 0x0E (if t.cbEn then 0x00000104 else 0x00000004))

/-- R79: between a callback and its EOI the service is not entered again: FRAMECOUNT, CUR_PTR and CUR_PITCH
do not change and no second CALLBACK is emitted. -/
def Obligations.HandlerNotReentered : Prop :=
  ∀ i s t, TimersRun s → s.inService = true → exec i s = .next t → i ≠ .hwReset →
    t.framecount = s.framecount ∧ t.curPtr = s.curPtr ∧ t.curPitch = s.curPitch ∧
    (∀ fc, Obs.callback fc ∈ t.obs → Obs.callback fc ∈ s.obs) ∧
    (t.inService = true ∨ i = .eoi ∨ i = .wr 0x0E 0x00000005)

/-- R67 and R16: a wait ends only by WAIT_RELEASE (or HW_RESET), and only once FRAMECOUNT differs from the
value it had at the command; that value is kept while the wait lasts. -/
def Obligations.WaitEndsOnlyAfterCount : Prop :=
  (∀ i s t, exec i s = .next t → i ≠ .hwReset → s.waiting = true →
    t.waitFc = s.waitFc ∧ (t.waiting = false → i = .waitRelease ∧ s.framecount ≠ s.waitFc)) ∧
  (∀ s t, exec (.setNextBuffer true) s = .next t → t.refused = none →
    t.waiting = true ∧ t.waitFc = s.framecount ∧ t.framecount = s.framecount)

/-- R88 and R89: only CONFIGURE raises a Halt; the cause is one of the five codes and is observed. -/
def Obligations.OnlyConfigureHalts : Prop :=
  ∀ i s t, exec i s = .next t → s.runstate ≠ .halted → t.runstate = .halted →
    (i = .configure ∨ i = .wr 0x0E 0x00000001) ∧ s.runstate = .unconfigured ∧
    t.obs = .halt t.haltCause :: s.obs ∧ haltCode t.haltCause ∈ [1, 2, 3, 4, 5] ∧
    t.irqEn = false ∧ t.fbPending = false ∧ t.dmaEn = false

/-- R29 and R33: no operation of the block writes memory, a flush request included: the latest write to
every address stays what it was. The lists of stores are the model's form (log 10). -/
def Obligations.BlockNeverWritesMemory : Prop :=
  ∀ i (s t : State) (a : Nat), BlockInv s → exec i s = .next t → latestByte t a = latestByte s a

/-- The frame of every operation but SERVICE_ENTER, DMA_READ and EOI included: every byte, surely visible or
newer, is as before (R24, R29). The surely visible memory, the candidates and the schedule are the model's own
forms (log 1, 10), and that HW_RESET keeps memory and the pending stores is deduced (log 27). -/
def Obligations.MemoryFrame : Prop :=
  ∀ i s t, exec i s = .next t → i ≠ .serviceEnter →
    (∀ a, Memory.read t.mem a = Memory.read s.mem a) ∧ (∀ a, candidates t a = candidates s a) ∧
    t.schedule = s.schedule

/-! ## Invariants -/

/-- The invariants hold at reset. -/
def Obligations.InvariantsHoldAtReset : Prop :=
  BlockInv State.reset ∧ SupplyInv State.reset ∧ PictureInv State.reset

/-- Every step keeps the invariant of the block. -/
def Obligations.StepKeepsInvariant : Prop :=
  ∀ s t, BlockInv s → step s = .next t → BlockInv t

/-- Every step keeps the balance of supply: in RUNNING no chain is in use, or what was fetched is what was
taken and what is queued, so that an armed frame never runs short (R60, R69, R71; the hold of R71 errs
toward proving, log 18). -/
def Obligations.StepKeepsSupply : Prop :=
  ∀ s t, BlockInv s → SupplyInv s → step s = .next t → SupplyInv t

/-- Without host stores, every step keeps the queue holding the picture of the current buffer (R25 to R27,
R34). -/
def Obligations.StepKeepsPicture : Prop :=
  ∀ s t, BlockInv s → PictureInv s → NoStoreNext s → step s = .next t → PictureInv t

/-- R25 and R26: in an armed frame, with a chain in use, the pixel at column x and row y on the pins is the
nibble of the byte at `CUR_PTR + y * CUR_PITCH + x / 2`, the low nibble for even x. It rests on the hold of R71,
which errs toward proving (log 18), and is about memory without stores under way (log 10). -/
def Obligations.ArmedPixelShowsBuffer : Prop :=
  ∀ s t, BlockInv s → PictureInv s → s.runstate = .running → ¬ SupplyIdle s → AtActivePixel s →
    exec .pixel s = .next t →
    t.pix = nibbleAt
      (Memory.read s.mem
        (s.curPtr.toNat + (s.vline - s.mode.va0) * s.curPitch.toNat + (s.hpos - s.mode.ha0) / 2))
      (s.hpos - s.mode.ha0) ∧
    t.draws = s.draws

/-- R38: no address past 2^32 is ever read: under the invariant no operation stops for that. -/
def Obligations.NoReadPastAddressSpace : Prop :=
  ∀ i s, BlockInv s → exec i s ≠ .fault .pastAddressSpace

/-! ## Scan timing -/

/-- R62: every PIXEL moves the position on by `nextPosition`, so that after n PIXEL steps from (0, 0), whatever
other operations lie between them, the position is ((n / HT) mod VT, n mod HT); frames are exactly FRAME_PX
steps apart. `τ k` is the state before PIXEL step k; what lies between two of them keeps the position
(OneSamplePerPixel) and the mode (ModeIsImmutable). That the PIXEL that raises EVENT_OVERRUN still moves the
position is the model's (log 6). -/
def Obligations.PositionAfterPixels : Prop :=
  (∀ s t, exec .pixel s = .next t →
    t.mode = s.mode ∧ (t.vline, t.hpos) = nextPosition s.mode (s.vline, s.hpos)) ∧
  (∀ m : ModeRegs, 0 < m.ht → 0 < m.vt →
    (∀ n, (nextPosition m)^[n] (0, 0) = (n / m.ht % m.vt, n % m.ht) ∧
      (nextPosition m)^[n + m.framePx] (0, 0) = (nextPosition m)^[n] (0, 0)) ∧
    ∀ (τ : Nat → State) (n : Nat), ((τ 0).vline, (τ 0).hpos) = (0, 0) →
      (∀ k, k < n → (τ k).mode = m ∧
        ∃ t, exec .pixel (τ k) = .next t ∧ (τ (k + 1)).vline = t.vline ∧ (τ (k + 1)).hpos = t.hpos) →
      ((τ n).vline, (τ n).hpos) = (n / m.ht % m.vt, n % m.ht))

/-- R110 and R112: a PIXEL that raises the frame event leaves position (VA1 mod VT, 0); from there on, and
PIXEL moves the position by `nextPosition`, the scan is outside the active lines for exactly
B = (VFP + VS + VBP) * HT pixel periods; so a SERVICE_ENTER that happens d periods later sets no FAULT exactly
when d < B, and LATE_SERVICE otherwise (R96), for every d below FRAME_PX. That the first read lies inside
2^32 is a condition of the model (log 13), and that the PIXEL that raises EVENT_OVERRUN still moves the position
is the model's (log 6). -/
def Obligations.ServiceWindowIsB : Prop :=
  (∀ s t, exec .pixel s = .next t →
    (t.vline, t.hpos) = nextPosition s.mode (s.vline, s.hpos) ∧
    (s.fbPending = false → t.fbPending = true → (t.vline, t.hpos) = (s.mode.va1 % s.mode.vt, 0))) ∧
  (∀ m : ModeRegs, checkTiming m = true → ∀ d, d < m.framePx →
    ((m.va0 ≤ ((nextPosition m)^[d] (m.va1 % m.vt, 0)).1 ∧
        ((nextPosition m)^[d] (m.va1 % m.vt, 0)).1 < m.va1) ↔
      m.serviceWindow ≤ d)) ∧
  (∀ s d, checkTiming s.mode = true → d < s.mode.framePx →
    (s.vline, s.hpos) = (nextPosition s.mode)^[d] (s.mode.va1 % s.mode.vt, 0) →
    Unmarked s → s.runstate = .running → s.irqEn = true → s.fbPending = true → s.inService = false →
    (s.armed = true → s.nextPtr.toNat + s.nextG.bytes ≤ 2 ^ 32) →
    ∃ t, exec .serviceEnter s = .next t ∧
      t.fault = if d < s.mode.serviceWindow then none else some .lateService)
end

