-- ==== Sys2Proof/Laws/State.lean ====
section
/-! SUPPORT. One lemma per field per update of the state, so that no proof unfolds a record update. -/

namespace Sys2Proof.Machine

@[simp] theorem emit_mode (s : State) (o : Obs) : (emit s o).mode = s.mode := rfl
@[simp] theorem emit_argPtr (s : State) (o : Obs) : (emit s o).argPtr = s.argPtr := rfl
@[simp] theorem emit_argPitch (s : State) (o : Obs) : (emit s o).argPitch = s.argPitch := rfl
@[simp] theorem emit_runstate (s : State) (o : Obs) : (emit s o).runstate = s.runstate := rfl
@[simp] theorem emit_haltCause (s : State) (o : Obs) : (emit s o).haltCause = s.haltCause := rfl
@[simp] theorem emit_framecount (s : State) (o : Obs) : (emit s o).framecount = s.framecount := rfl
@[simp] theorem emit_curPtr (s : State) (o : Obs) : (emit s o).curPtr = s.curPtr := rfl
@[simp] theorem emit_curPitch (s : State) (o : Obs) : (emit s o).curPitch = s.curPitch := rfl
@[simp] theorem emit_nextPtr (s : State) (o : Obs) : (emit s o).nextPtr = s.nextPtr := rfl
@[simp] theorem emit_nextPitch (s : State) (o : Obs) : (emit s o).nextPitch = s.nextPitch := rfl
@[simp] theorem emit_curG (s : State) (o : Obs) : (emit s o).curG = s.curG := rfl
@[simp] theorem emit_nextG (s : State) (o : Obs) : (emit s o).nextG = s.nextG := rfl
@[simp] theorem emit_armed (s : State) (o : Obs) : (emit s o).armed = s.armed := rfl
@[simp] theorem emit_dmaEn (s : State) (o : Obs) : (emit s o).dmaEn = s.dmaEn := rfl
@[simp] theorem emit_dmaLine (s : State) (o : Obs) : (emit s o).dmaLine = s.dmaLine := rfl
@[simp] theorem emit_dmaOff (s : State) (o : Obs) : (emit s o).dmaOff = s.dmaOff := rfl
@[simp] theorem emit_fq (s : State) (o : Obs) : (emit s o).fq = s.fq := rfl
@[simp] theorem emit_curByte (s : State) (o : Obs) : (emit s o).curByte = s.curByte := rfl
@[simp] theorem emit_curValid (s : State) (o : Obs) : (emit s o).curValid = s.curValid := rfl
@[simp] theorem emit_hpos (s : State) (o : Obs) : (emit s o).hpos = s.hpos := rfl
@[simp] theorem emit_vline (s : State) (o : Obs) : (emit s o).vline = s.vline := rfl
@[simp] theorem emit_irqEn (s : State) (o : Obs) : (emit s o).irqEn = s.irqEn := rfl
@[simp] theorem emit_fbPending (s : State) (o : Obs) : (emit s o).fbPending = s.fbPending := rfl
@[simp] theorem emit_inService (s : State) (o : Obs) : (emit s o).inService = s.inService := rfl
@[simp] theorem emit_cbEn (s : State) (o : Obs) : (emit s o).cbEn = s.cbEn := rfl
@[simp] theorem emit_waiting (s : State) (o : Obs) : (emit s o).waiting = s.waiting := rfl
@[simp] theorem emit_waitFc (s : State) (o : Obs) : (emit s o).waitFc = s.waitFc := rfl
@[simp] theorem emit_hsync (s : State) (o : Obs) : (emit s o).hsync = s.hsync := rfl
@[simp] theorem emit_vsync (s : State) (o : Obs) : (emit s o).vsync = s.vsync := rfl
@[simp] theorem emit_pix (s : State) (o : Obs) : (emit s o).pix = s.pix := rfl
@[simp] theorem emit_fault (s : State) (o : Obs) : (emit s o).fault = s.fault := rfl
@[simp] theorem emit_refused (s : State) (o : Obs) : (emit s o).refused = s.refused := rfl
@[simp] theorem emit_mem (s : State) (o : Obs) : (emit s o).mem = s.mem := rfl
@[simp] theorem emit_flushed (s : State) (o : Obs) : (emit s o).flushed = s.flushed := rfl
@[simp] theorem emit_fresh (s : State) (o : Obs) : (emit s o).fresh = s.fresh := rfl
@[simp] theorem emit_schedule (s : State) (o : Obs) : (emit s o).schedule = s.schedule := rfl
@[simp] theorem emit_draws (s : State) (o : Obs) : (emit s o).draws = s.draws := rfl
@[simp] theorem emit_obs (s : State) (o : Obs) : (emit s o).obs = o :: s.obs := rfl

@[simp] theorem drawn_mode (s : State) : (drawn s).mode = s.mode := rfl
@[simp] theorem drawn_argPtr (s : State) : (drawn s).argPtr = s.argPtr := rfl
@[simp] theorem drawn_argPitch (s : State) : (drawn s).argPitch = s.argPitch := rfl
@[simp] theorem drawn_runstate (s : State) : (drawn s).runstate = s.runstate := rfl
@[simp] theorem drawn_haltCause (s : State) : (drawn s).haltCause = s.haltCause := rfl
@[simp] theorem drawn_framecount (s : State) : (drawn s).framecount = s.framecount := rfl
@[simp] theorem drawn_curPtr (s : State) : (drawn s).curPtr = s.curPtr := rfl
@[simp] theorem drawn_curPitch (s : State) : (drawn s).curPitch = s.curPitch := rfl
@[simp] theorem drawn_nextPtr (s : State) : (drawn s).nextPtr = s.nextPtr := rfl
@[simp] theorem drawn_nextPitch (s : State) : (drawn s).nextPitch = s.nextPitch := rfl
@[simp] theorem drawn_curG (s : State) : (drawn s).curG = s.curG := rfl
@[simp] theorem drawn_nextG (s : State) : (drawn s).nextG = s.nextG := rfl
@[simp] theorem drawn_armed (s : State) : (drawn s).armed = s.armed := rfl
@[simp] theorem drawn_dmaEn (s : State) : (drawn s).dmaEn = s.dmaEn := rfl
@[simp] theorem drawn_dmaLine (s : State) : (drawn s).dmaLine = s.dmaLine := rfl
@[simp] theorem drawn_dmaOff (s : State) : (drawn s).dmaOff = s.dmaOff := rfl
@[simp] theorem drawn_fq (s : State) : (drawn s).fq = s.fq := rfl
@[simp] theorem drawn_curByte (s : State) : (drawn s).curByte = s.curByte := rfl
@[simp] theorem drawn_curValid (s : State) : (drawn s).curValid = s.curValid := rfl
@[simp] theorem drawn_hpos (s : State) : (drawn s).hpos = s.hpos := rfl
@[simp] theorem drawn_vline (s : State) : (drawn s).vline = s.vline := rfl
@[simp] theorem drawn_irqEn (s : State) : (drawn s).irqEn = s.irqEn := rfl
@[simp] theorem drawn_fbPending (s : State) : (drawn s).fbPending = s.fbPending := rfl
@[simp] theorem drawn_inService (s : State) : (drawn s).inService = s.inService := rfl
@[simp] theorem drawn_cbEn (s : State) : (drawn s).cbEn = s.cbEn := rfl
@[simp] theorem drawn_waiting (s : State) : (drawn s).waiting = s.waiting := rfl
@[simp] theorem drawn_waitFc (s : State) : (drawn s).waitFc = s.waitFc := rfl
@[simp] theorem drawn_hsync (s : State) : (drawn s).hsync = s.hsync := rfl
@[simp] theorem drawn_vsync (s : State) : (drawn s).vsync = s.vsync := rfl
@[simp] theorem drawn_pix (s : State) : (drawn s).pix = s.pix := rfl
@[simp] theorem drawn_fault (s : State) : (drawn s).fault = s.fault := rfl
@[simp] theorem drawn_refused (s : State) : (drawn s).refused = s.refused := rfl
@[simp] theorem drawn_mem (s : State) : (drawn s).mem = s.mem := rfl
@[simp] theorem drawn_flushed (s : State) : (drawn s).flushed = s.flushed := rfl
@[simp] theorem drawn_fresh (s : State) : (drawn s).fresh = s.fresh := rfl
@[simp] theorem drawn_schedule (s : State) : (drawn s).schedule = s.schedule := rfl
@[simp] theorem drawn_draws (s : State) : (drawn s).draws = s.draws + 1 := rfl
@[simp] theorem drawn_obs (s : State) : (drawn s).obs = s.obs := rfl

@[simp] theorem afterEvent_mode (rest : List Event) (s : State) : (afterEvent rest s).mode = s.mode := rfl
@[simp] theorem afterEvent_argPtr (rest : List Event) (s : State) : (afterEvent rest s).argPtr = s.argPtr := rfl
@[simp] theorem afterEvent_argPitch (rest : List Event) (s : State) : (afterEvent rest s).argPitch = s.argPitch := rfl
@[simp] theorem afterEvent_runstate (rest : List Event) (s : State) : (afterEvent rest s).runstate = s.runstate := rfl
@[simp] theorem afterEvent_haltCause (rest : List Event) (s : State) : (afterEvent rest s).haltCause = s.haltCause := rfl
@[simp] theorem afterEvent_framecount (rest : List Event) (s : State) : (afterEvent rest s).framecount = s.framecount := rfl
@[simp] theorem afterEvent_curPtr (rest : List Event) (s : State) : (afterEvent rest s).curPtr = s.curPtr := rfl
@[simp] theorem afterEvent_curPitch (rest : List Event) (s : State) : (afterEvent rest s).curPitch = s.curPitch := rfl
@[simp] theorem afterEvent_nextPtr (rest : List Event) (s : State) : (afterEvent rest s).nextPtr = s.nextPtr := rfl
@[simp] theorem afterEvent_nextPitch (rest : List Event) (s : State) : (afterEvent rest s).nextPitch = s.nextPitch := rfl
@[simp] theorem afterEvent_curG (rest : List Event) (s : State) : (afterEvent rest s).curG = s.curG := rfl
@[simp] theorem afterEvent_nextG (rest : List Event) (s : State) : (afterEvent rest s).nextG = s.nextG := rfl
@[simp] theorem afterEvent_armed (rest : List Event) (s : State) : (afterEvent rest s).armed = s.armed := rfl
@[simp] theorem afterEvent_dmaEn (rest : List Event) (s : State) : (afterEvent rest s).dmaEn = s.dmaEn := rfl
@[simp] theorem afterEvent_dmaLine (rest : List Event) (s : State) : (afterEvent rest s).dmaLine = s.dmaLine := rfl
@[simp] theorem afterEvent_dmaOff (rest : List Event) (s : State) : (afterEvent rest s).dmaOff = s.dmaOff := rfl
@[simp] theorem afterEvent_fq (rest : List Event) (s : State) : (afterEvent rest s).fq = s.fq := rfl
@[simp] theorem afterEvent_curByte (rest : List Event) (s : State) : (afterEvent rest s).curByte = s.curByte := rfl
@[simp] theorem afterEvent_curValid (rest : List Event) (s : State) : (afterEvent rest s).curValid = s.curValid := rfl
@[simp] theorem afterEvent_hpos (rest : List Event) (s : State) : (afterEvent rest s).hpos = s.hpos := rfl
@[simp] theorem afterEvent_vline (rest : List Event) (s : State) : (afterEvent rest s).vline = s.vline := rfl
@[simp] theorem afterEvent_irqEn (rest : List Event) (s : State) : (afterEvent rest s).irqEn = s.irqEn := rfl
@[simp] theorem afterEvent_fbPending (rest : List Event) (s : State) : (afterEvent rest s).fbPending = s.fbPending := rfl
@[simp] theorem afterEvent_inService (rest : List Event) (s : State) : (afterEvent rest s).inService = s.inService := rfl
@[simp] theorem afterEvent_cbEn (rest : List Event) (s : State) : (afterEvent rest s).cbEn = s.cbEn := rfl
@[simp] theorem afterEvent_waiting (rest : List Event) (s : State) : (afterEvent rest s).waiting = s.waiting := rfl
@[simp] theorem afterEvent_waitFc (rest : List Event) (s : State) : (afterEvent rest s).waitFc = s.waitFc := rfl
@[simp] theorem afterEvent_hsync (rest : List Event) (s : State) : (afterEvent rest s).hsync = s.hsync := rfl
@[simp] theorem afterEvent_vsync (rest : List Event) (s : State) : (afterEvent rest s).vsync = s.vsync := rfl
@[simp] theorem afterEvent_pix (rest : List Event) (s : State) : (afterEvent rest s).pix = s.pix := rfl
@[simp] theorem afterEvent_fault (rest : List Event) (s : State) : (afterEvent rest s).fault = s.fault := rfl
@[simp] theorem afterEvent_refused (rest : List Event) (s : State) : (afterEvent rest s).refused = s.refused := rfl
@[simp] theorem afterEvent_mem (rest : List Event) (s : State) : (afterEvent rest s).mem = s.mem := rfl
@[simp] theorem afterEvent_flushed (rest : List Event) (s : State) : (afterEvent rest s).flushed = s.flushed := rfl
@[simp] theorem afterEvent_fresh (rest : List Event) (s : State) : (afterEvent rest s).fresh = s.fresh := rfl
@[simp] theorem afterEvent_schedule (rest : List Event) (s : State) : (afterEvent rest s).schedule = rest := rfl
@[simp] theorem afterEvent_draws (rest : List Event) (s : State) : (afterEvent rest s).draws = s.draws := rfl
@[simp] theorem afterEvent_obs (rest : List Event) (s : State) : (afterEvent rest s).obs = s.obs := rfl

@[simp] theorem pushRead_mode (s : State) : (pushRead s).mode = s.mode := rfl
@[simp] theorem pushRead_argPtr (s : State) : (pushRead s).argPtr = s.argPtr := rfl
@[simp] theorem pushRead_argPitch (s : State) : (pushRead s).argPitch = s.argPitch := rfl
@[simp] theorem pushRead_runstate (s : State) : (pushRead s).runstate = s.runstate := rfl
@[simp] theorem pushRead_haltCause (s : State) : (pushRead s).haltCause = s.haltCause := rfl
@[simp] theorem pushRead_framecount (s : State) : (pushRead s).framecount = s.framecount := rfl
@[simp] theorem pushRead_curPtr (s : State) : (pushRead s).curPtr = s.curPtr := rfl
@[simp] theorem pushRead_curPitch (s : State) : (pushRead s).curPitch = s.curPitch := rfl
@[simp] theorem pushRead_nextPtr (s : State) : (pushRead s).nextPtr = s.nextPtr := rfl
@[simp] theorem pushRead_nextPitch (s : State) : (pushRead s).nextPitch = s.nextPitch := rfl
@[simp] theorem pushRead_curG (s : State) : (pushRead s).curG = s.curG := rfl
@[simp] theorem pushRead_nextG (s : State) : (pushRead s).nextG = s.nextG := rfl
@[simp] theorem pushRead_armed (s : State) : (pushRead s).armed = s.armed := rfl
@[simp] theorem pushRead_dmaEn (s : State) : (pushRead s).dmaEn = s.dmaEn := rfl
@[simp] theorem pushRead_dmaLine (s : State) : (pushRead s).dmaLine = s.dmaLine := rfl
@[simp] theorem pushRead_dmaOff (s : State) : (pushRead s).dmaOff = s.dmaOff := rfl
@[simp] theorem pushRead_fq (s : State) : (pushRead s).fq = s.fq ++ memRead s (dmaAddr s) s.curG.bytes := rfl
@[simp] theorem pushRead_curByte (s : State) : (pushRead s).curByte = s.curByte := rfl
@[simp] theorem pushRead_curValid (s : State) : (pushRead s).curValid = s.curValid := rfl
@[simp] theorem pushRead_hpos (s : State) : (pushRead s).hpos = s.hpos := rfl
@[simp] theorem pushRead_vline (s : State) : (pushRead s).vline = s.vline := rfl
@[simp] theorem pushRead_irqEn (s : State) : (pushRead s).irqEn = s.irqEn := rfl
@[simp] theorem pushRead_fbPending (s : State) : (pushRead s).fbPending = s.fbPending := rfl
@[simp] theorem pushRead_inService (s : State) : (pushRead s).inService = s.inService := rfl
@[simp] theorem pushRead_cbEn (s : State) : (pushRead s).cbEn = s.cbEn := rfl
@[simp] theorem pushRead_waiting (s : State) : (pushRead s).waiting = s.waiting := rfl
@[simp] theorem pushRead_waitFc (s : State) : (pushRead s).waitFc = s.waitFc := rfl
@[simp] theorem pushRead_hsync (s : State) : (pushRead s).hsync = s.hsync := rfl
@[simp] theorem pushRead_vsync (s : State) : (pushRead s).vsync = s.vsync := rfl
@[simp] theorem pushRead_pix (s : State) : (pushRead s).pix = s.pix := rfl
@[simp] theorem pushRead_fault (s : State) : (pushRead s).fault = s.fault := rfl
@[simp] theorem pushRead_refused (s : State) : (pushRead s).refused = s.refused := rfl
@[simp] theorem pushRead_mem (s : State) : (pushRead s).mem = s.mem := rfl
@[simp] theorem pushRead_flushed (s : State) : (pushRead s).flushed = s.flushed := rfl
@[simp] theorem pushRead_fresh (s : State) : (pushRead s).fresh = s.fresh := rfl
@[simp] theorem pushRead_schedule (s : State) : (pushRead s).schedule = s.schedule := rfl
@[simp] theorem pushRead_draws (s : State) : (pushRead s).draws = s.draws := rfl
@[simp] theorem pushRead_obs (s : State) : (pushRead s).obs = s.obs := rfl

@[simp] theorem loadDescriptor_mode (s : State) : (loadDescriptor s).mode = s.mode := rfl
@[simp] theorem loadDescriptor_argPtr (s : State) : (loadDescriptor s).argPtr = s.argPtr := rfl
@[simp] theorem loadDescriptor_argPitch (s : State) : (loadDescriptor s).argPitch = s.argPitch := rfl
@[simp] theorem loadDescriptor_runstate (s : State) : (loadDescriptor s).runstate = s.runstate := rfl
@[simp] theorem loadDescriptor_haltCause (s : State) : (loadDescriptor s).haltCause = s.haltCause := rfl
@[simp] theorem loadDescriptor_framecount (s : State) : (loadDescriptor s).framecount = s.framecount := rfl
@[simp] theorem loadDescriptor_curPtr (s : State) : (loadDescriptor s).curPtr = s.nextPtr := rfl
@[simp] theorem loadDescriptor_curPitch (s : State) : (loadDescriptor s).curPitch = s.nextPitch := rfl
@[simp] theorem loadDescriptor_nextPtr (s : State) : (loadDescriptor s).nextPtr = s.nextPtr := rfl
@[simp] theorem loadDescriptor_nextPitch (s : State) : (loadDescriptor s).nextPitch = s.nextPitch := rfl
@[simp] theorem loadDescriptor_curG (s : State) : (loadDescriptor s).curG = s.nextG := rfl
@[simp] theorem loadDescriptor_nextG (s : State) : (loadDescriptor s).nextG = s.nextG := rfl
@[simp] theorem loadDescriptor_armed (s : State) : (loadDescriptor s).armed = s.armed := rfl
@[simp] theorem loadDescriptor_dmaEn (s : State) : (loadDescriptor s).dmaEn = true := rfl
@[simp] theorem loadDescriptor_dmaLine (s : State) : (loadDescriptor s).dmaLine = 0 := rfl
@[simp] theorem loadDescriptor_dmaOff (s : State) : (loadDescriptor s).dmaOff = 0 := rfl
@[simp] theorem loadDescriptor_fq (s : State) : (loadDescriptor s).fq = [] := rfl
@[simp] theorem loadDescriptor_curByte (s : State) : (loadDescriptor s).curByte = s.curByte := rfl
@[simp] theorem loadDescriptor_curValid (s : State) : (loadDescriptor s).curValid = s.curValid := rfl
@[simp] theorem loadDescriptor_hpos (s : State) : (loadDescriptor s).hpos = s.hpos := rfl
@[simp] theorem loadDescriptor_vline (s : State) : (loadDescriptor s).vline = s.vline := rfl
@[simp] theorem loadDescriptor_irqEn (s : State) : (loadDescriptor s).irqEn = s.irqEn := rfl
@[simp] theorem loadDescriptor_fbPending (s : State) : (loadDescriptor s).fbPending = s.fbPending := rfl
@[simp] theorem loadDescriptor_inService (s : State) : (loadDescriptor s).inService = s.inService := rfl
@[simp] theorem loadDescriptor_cbEn (s : State) : (loadDescriptor s).cbEn = s.cbEn := rfl
@[simp] theorem loadDescriptor_waiting (s : State) : (loadDescriptor s).waiting = s.waiting := rfl
@[simp] theorem loadDescriptor_waitFc (s : State) : (loadDescriptor s).waitFc = s.waitFc := rfl
@[simp] theorem loadDescriptor_hsync (s : State) : (loadDescriptor s).hsync = s.hsync := rfl
@[simp] theorem loadDescriptor_vsync (s : State) : (loadDescriptor s).vsync = s.vsync := rfl
@[simp] theorem loadDescriptor_pix (s : State) : (loadDescriptor s).pix = s.pix := rfl
@[simp] theorem loadDescriptor_fault (s : State) : (loadDescriptor s).fault = s.fault := rfl
@[simp] theorem loadDescriptor_refused (s : State) : (loadDescriptor s).refused = s.refused := rfl
@[simp] theorem loadDescriptor_mem (s : State) : (loadDescriptor s).mem = s.mem := rfl
@[simp] theorem loadDescriptor_flushed (s : State) : (loadDescriptor s).flushed = s.flushed := rfl
@[simp] theorem loadDescriptor_fresh (s : State) : (loadDescriptor s).fresh = s.fresh := rfl
@[simp] theorem loadDescriptor_schedule (s : State) : (loadDescriptor s).schedule = s.schedule := rfl
@[simp] theorem loadDescriptor_draws (s : State) : (loadDescriptor s).draws = s.draws := rfl
@[simp] theorem loadDescriptor_obs (s : State) : (loadDescriptor s).obs = s.obs := rfl

@[simp] theorem countFrame_mode (s : State) : (countFrame s).mode = s.mode := rfl
@[simp] theorem countFrame_argPtr (s : State) : (countFrame s).argPtr = s.argPtr := rfl
@[simp] theorem countFrame_argPitch (s : State) : (countFrame s).argPitch = s.argPitch := rfl
@[simp] theorem countFrame_runstate (s : State) : (countFrame s).runstate = s.runstate := rfl
@[simp] theorem countFrame_haltCause (s : State) : (countFrame s).haltCause = s.haltCause := rfl
@[simp] theorem countFrame_framecount (s : State) : (countFrame s).framecount = s.framecount + 1 := rfl
@[simp] theorem countFrame_curPtr (s : State) : (countFrame s).curPtr = s.curPtr := rfl
@[simp] theorem countFrame_curPitch (s : State) : (countFrame s).curPitch = s.curPitch := rfl
@[simp] theorem countFrame_nextPtr (s : State) : (countFrame s).nextPtr = s.nextPtr := rfl
@[simp] theorem countFrame_nextPitch (s : State) : (countFrame s).nextPitch = s.nextPitch := rfl
@[simp] theorem countFrame_curG (s : State) : (countFrame s).curG = s.curG := rfl
@[simp] theorem countFrame_nextG (s : State) : (countFrame s).nextG = s.nextG := rfl
@[simp] theorem countFrame_armed (s : State) : (countFrame s).armed = s.armed := rfl
@[simp] theorem countFrame_dmaEn (s : State) : (countFrame s).dmaEn = s.dmaEn := rfl
@[simp] theorem countFrame_dmaLine (s : State) : (countFrame s).dmaLine = s.dmaLine := rfl
@[simp] theorem countFrame_dmaOff (s : State) : (countFrame s).dmaOff = s.dmaOff := rfl
@[simp] theorem countFrame_fq (s : State) : (countFrame s).fq = s.fq := rfl
@[simp] theorem countFrame_curByte (s : State) : (countFrame s).curByte = s.curByte := rfl
@[simp] theorem countFrame_curValid (s : State) : (countFrame s).curValid = s.curValid := rfl
@[simp] theorem countFrame_hpos (s : State) : (countFrame s).hpos = s.hpos := rfl
@[simp] theorem countFrame_vline (s : State) : (countFrame s).vline = s.vline := rfl
@[simp] theorem countFrame_irqEn (s : State) : (countFrame s).irqEn = s.irqEn := rfl
@[simp] theorem countFrame_fbPending (s : State) : (countFrame s).fbPending = false := rfl
@[simp] theorem countFrame_inService (s : State) : (countFrame s).inService = s.inService := rfl
@[simp] theorem countFrame_cbEn (s : State) : (countFrame s).cbEn = s.cbEn := rfl
@[simp] theorem countFrame_waiting (s : State) : (countFrame s).waiting = s.waiting := rfl
@[simp] theorem countFrame_waitFc (s : State) : (countFrame s).waitFc = s.waitFc := rfl
@[simp] theorem countFrame_hsync (s : State) : (countFrame s).hsync = s.hsync := rfl
@[simp] theorem countFrame_vsync (s : State) : (countFrame s).vsync = s.vsync := rfl
@[simp] theorem countFrame_pix (s : State) : (countFrame s).pix = s.pix := rfl
@[simp] theorem countFrame_fault (s : State) : (countFrame s).fault = s.fault := rfl
@[simp] theorem countFrame_refused (s : State) : (countFrame s).refused = s.refused := rfl
@[simp] theorem countFrame_mem (s : State) : (countFrame s).mem = s.mem := rfl
@[simp] theorem countFrame_flushed (s : State) : (countFrame s).flushed = s.flushed := rfl
@[simp] theorem countFrame_fresh (s : State) : (countFrame s).fresh = s.fresh := rfl
@[simp] theorem countFrame_schedule (s : State) : (countFrame s).schedule = s.schedule := rfl
@[simp] theorem countFrame_draws (s : State) : (countFrame s).draws = s.draws := rfl
@[simp] theorem countFrame_obs (s : State) : (countFrame s).obs = s.obs := rfl

@[simp] theorem invokeCallback_mode (s : State) : (invokeCallback s).mode = s.mode := rfl
@[simp] theorem invokeCallback_argPtr (s : State) : (invokeCallback s).argPtr = s.argPtr := rfl
@[simp] theorem invokeCallback_argPitch (s : State) : (invokeCallback s).argPitch = s.argPitch := rfl
@[simp] theorem invokeCallback_runstate (s : State) : (invokeCallback s).runstate = s.runstate := rfl
@[simp] theorem invokeCallback_haltCause (s : State) : (invokeCallback s).haltCause = s.haltCause := rfl
@[simp] theorem invokeCallback_framecount (s : State) : (invokeCallback s).framecount = s.framecount := rfl
@[simp] theorem invokeCallback_curPtr (s : State) : (invokeCallback s).curPtr = s.curPtr := rfl
@[simp] theorem invokeCallback_curPitch (s : State) : (invokeCallback s).curPitch = s.curPitch := rfl
@[simp] theorem invokeCallback_nextPtr (s : State) : (invokeCallback s).nextPtr = s.nextPtr := rfl
@[simp] theorem invokeCallback_nextPitch (s : State) : (invokeCallback s).nextPitch = s.nextPitch := rfl
@[simp] theorem invokeCallback_curG (s : State) : (invokeCallback s).curG = s.curG := rfl
@[simp] theorem invokeCallback_nextG (s : State) : (invokeCallback s).nextG = s.nextG := rfl
@[simp] theorem invokeCallback_armed (s : State) : (invokeCallback s).armed = s.armed := rfl
@[simp] theorem invokeCallback_dmaEn (s : State) : (invokeCallback s).dmaEn = s.dmaEn := rfl
@[simp] theorem invokeCallback_dmaLine (s : State) : (invokeCallback s).dmaLine = s.dmaLine := rfl
@[simp] theorem invokeCallback_dmaOff (s : State) : (invokeCallback s).dmaOff = s.dmaOff := rfl
@[simp] theorem invokeCallback_fq (s : State) : (invokeCallback s).fq = s.fq := rfl
@[simp] theorem invokeCallback_curByte (s : State) : (invokeCallback s).curByte = s.curByte := rfl
@[simp] theorem invokeCallback_curValid (s : State) : (invokeCallback s).curValid = s.curValid := rfl
@[simp] theorem invokeCallback_hpos (s : State) : (invokeCallback s).hpos = s.hpos := rfl
@[simp] theorem invokeCallback_vline (s : State) : (invokeCallback s).vline = s.vline := rfl
@[simp] theorem invokeCallback_irqEn (s : State) : (invokeCallback s).irqEn = s.irqEn := rfl
@[simp] theorem invokeCallback_fbPending (s : State) : (invokeCallback s).fbPending = s.fbPending := rfl
@[simp] theorem invokeCallback_inService (s : State) : (invokeCallback s).inService = true := rfl
@[simp] theorem invokeCallback_cbEn (s : State) : (invokeCallback s).cbEn = s.cbEn := rfl
@[simp] theorem invokeCallback_waiting (s : State) : (invokeCallback s).waiting = s.waiting := rfl
@[simp] theorem invokeCallback_waitFc (s : State) : (invokeCallback s).waitFc = s.waitFc := rfl
@[simp] theorem invokeCallback_hsync (s : State) : (invokeCallback s).hsync = s.hsync := rfl
@[simp] theorem invokeCallback_vsync (s : State) : (invokeCallback s).vsync = s.vsync := rfl
@[simp] theorem invokeCallback_pix (s : State) : (invokeCallback s).pix = s.pix := rfl
@[simp] theorem invokeCallback_fault (s : State) : (invokeCallback s).fault = s.fault := rfl
@[simp] theorem invokeCallback_refused (s : State) : (invokeCallback s).refused = s.refused := rfl
@[simp] theorem invokeCallback_mem (s : State) : (invokeCallback s).mem = s.mem := rfl
@[simp] theorem invokeCallback_flushed (s : State) : (invokeCallback s).flushed = s.flushed := rfl
@[simp] theorem invokeCallback_fresh (s : State) : (invokeCallback s).fresh = s.fresh := rfl
@[simp] theorem invokeCallback_schedule (s : State) : (invokeCallback s).schedule = s.schedule := rfl
@[simp] theorem invokeCallback_draws (s : State) : (invokeCallback s).draws = s.draws := rfl
@[simp] theorem invokeCallback_obs (s : State) : (invokeCallback s).obs = .callback s.framecount :: s.obs := rfl

@[simp] theorem returnFromFrameInterrupt_mode (s : State) : (returnFromFrameInterrupt s).mode = s.mode := rfl
@[simp] theorem returnFromFrameInterrupt_argPtr (s : State) : (returnFromFrameInterrupt s).argPtr = s.argPtr := rfl
@[simp] theorem returnFromFrameInterrupt_argPitch (s : State) : (returnFromFrameInterrupt s).argPitch = s.argPitch := rfl
@[simp] theorem returnFromFrameInterrupt_runstate (s : State) : (returnFromFrameInterrupt s).runstate = s.runstate := rfl
@[simp] theorem returnFromFrameInterrupt_haltCause (s : State) : (returnFromFrameInterrupt s).haltCause = s.haltCause := rfl
@[simp] theorem returnFromFrameInterrupt_framecount (s : State) : (returnFromFrameInterrupt s).framecount = s.framecount := rfl
@[simp] theorem returnFromFrameInterrupt_curPtr (s : State) : (returnFromFrameInterrupt s).curPtr = s.curPtr := rfl
@[simp] theorem returnFromFrameInterrupt_curPitch (s : State) : (returnFromFrameInterrupt s).curPitch = s.curPitch := rfl
@[simp] theorem returnFromFrameInterrupt_nextPtr (s : State) : (returnFromFrameInterrupt s).nextPtr = s.nextPtr := rfl
@[simp] theorem returnFromFrameInterrupt_nextPitch (s : State) : (returnFromFrameInterrupt s).nextPitch = s.nextPitch := rfl
@[simp] theorem returnFromFrameInterrupt_curG (s : State) : (returnFromFrameInterrupt s).curG = s.curG := rfl
@[simp] theorem returnFromFrameInterrupt_nextG (s : State) : (returnFromFrameInterrupt s).nextG = s.nextG := rfl
@[simp] theorem returnFromFrameInterrupt_armed (s : State) : (returnFromFrameInterrupt s).armed = s.armed := rfl
@[simp] theorem returnFromFrameInterrupt_dmaEn (s : State) : (returnFromFrameInterrupt s).dmaEn = s.dmaEn := rfl
@[simp] theorem returnFromFrameInterrupt_dmaLine (s : State) : (returnFromFrameInterrupt s).dmaLine = s.dmaLine := rfl
@[simp] theorem returnFromFrameInterrupt_dmaOff (s : State) : (returnFromFrameInterrupt s).dmaOff = s.dmaOff := rfl
@[simp] theorem returnFromFrameInterrupt_fq (s : State) : (returnFromFrameInterrupt s).fq = s.fq := rfl
@[simp] theorem returnFromFrameInterrupt_curByte (s : State) : (returnFromFrameInterrupt s).curByte = s.curByte := rfl
@[simp] theorem returnFromFrameInterrupt_curValid (s : State) : (returnFromFrameInterrupt s).curValid = s.curValid := rfl
@[simp] theorem returnFromFrameInterrupt_hpos (s : State) : (returnFromFrameInterrupt s).hpos = s.hpos := rfl
@[simp] theorem returnFromFrameInterrupt_vline (s : State) : (returnFromFrameInterrupt s).vline = s.vline := rfl
@[simp] theorem returnFromFrameInterrupt_irqEn (s : State) : (returnFromFrameInterrupt s).irqEn = s.irqEn := rfl
@[simp] theorem returnFromFrameInterrupt_fbPending (s : State) : (returnFromFrameInterrupt s).fbPending = s.fbPending := rfl
@[simp] theorem returnFromFrameInterrupt_inService (s : State) : (returnFromFrameInterrupt s).inService = false := rfl
@[simp] theorem returnFromFrameInterrupt_cbEn (s : State) : (returnFromFrameInterrupt s).cbEn = s.cbEn := rfl
@[simp] theorem returnFromFrameInterrupt_waiting (s : State) : (returnFromFrameInterrupt s).waiting = s.waiting := rfl
@[simp] theorem returnFromFrameInterrupt_waitFc (s : State) : (returnFromFrameInterrupt s).waitFc = s.waitFc := rfl
@[simp] theorem returnFromFrameInterrupt_hsync (s : State) : (returnFromFrameInterrupt s).hsync = s.hsync := rfl
@[simp] theorem returnFromFrameInterrupt_vsync (s : State) : (returnFromFrameInterrupt s).vsync = s.vsync := rfl
@[simp] theorem returnFromFrameInterrupt_pix (s : State) : (returnFromFrameInterrupt s).pix = s.pix := rfl
@[simp] theorem returnFromFrameInterrupt_fault (s : State) : (returnFromFrameInterrupt s).fault = s.fault := rfl
@[simp] theorem returnFromFrameInterrupt_refused (s : State) : (returnFromFrameInterrupt s).refused = s.refused := rfl
@[simp] theorem returnFromFrameInterrupt_mem (s : State) : (returnFromFrameInterrupt s).mem = s.mem := rfl
@[simp] theorem returnFromFrameInterrupt_flushed (s : State) : (returnFromFrameInterrupt s).flushed = s.flushed ++ s.fresh := rfl
@[simp] theorem returnFromFrameInterrupt_fresh (s : State) : (returnFromFrameInterrupt s).fresh = [] := rfl
@[simp] theorem returnFromFrameInterrupt_schedule (s : State) : (returnFromFrameInterrupt s).schedule = s.schedule := rfl
@[simp] theorem returnFromFrameInterrupt_draws (s : State) : (returnFromFrameInterrupt s).draws = s.draws := rfl
@[simp] theorem returnFromFrameInterrupt_obs (s : State) : (returnFromFrameInterrupt s).obs = .flushReq :: s.obs := rfl

@[simp] theorem moveTo_mode (line pos : Nat) (s : State) : (moveTo line pos s).mode = s.mode := rfl
@[simp] theorem moveTo_argPtr (line pos : Nat) (s : State) : (moveTo line pos s).argPtr = s.argPtr := rfl
@[simp] theorem moveTo_argPitch (line pos : Nat) (s : State) : (moveTo line pos s).argPitch = s.argPitch := rfl
@[simp] theorem moveTo_runstate (line pos : Nat) (s : State) : (moveTo line pos s).runstate = s.runstate := rfl
@[simp] theorem moveTo_haltCause (line pos : Nat) (s : State) : (moveTo line pos s).haltCause = s.haltCause := rfl
@[simp] theorem moveTo_framecount (line pos : Nat) (s : State) : (moveTo line pos s).framecount = s.framecount := rfl
@[simp] theorem moveTo_curPtr (line pos : Nat) (s : State) : (moveTo line pos s).curPtr = s.curPtr := rfl
@[simp] theorem moveTo_curPitch (line pos : Nat) (s : State) : (moveTo line pos s).curPitch = s.curPitch := rfl
@[simp] theorem moveTo_nextPtr (line pos : Nat) (s : State) : (moveTo line pos s).nextPtr = s.nextPtr := rfl
@[simp] theorem moveTo_nextPitch (line pos : Nat) (s : State) : (moveTo line pos s).nextPitch = s.nextPitch := rfl
@[simp] theorem moveTo_curG (line pos : Nat) (s : State) : (moveTo line pos s).curG = s.curG := rfl
@[simp] theorem moveTo_nextG (line pos : Nat) (s : State) : (moveTo line pos s).nextG = s.nextG := rfl
@[simp] theorem moveTo_armed (line pos : Nat) (s : State) : (moveTo line pos s).armed = s.armed := rfl
@[simp] theorem moveTo_dmaEn (line pos : Nat) (s : State) : (moveTo line pos s).dmaEn = s.dmaEn := rfl
@[simp] theorem moveTo_dmaLine (line pos : Nat) (s : State) : (moveTo line pos s).dmaLine = s.dmaLine := rfl
@[simp] theorem moveTo_dmaOff (line pos : Nat) (s : State) : (moveTo line pos s).dmaOff = s.dmaOff := rfl
@[simp] theorem moveTo_fq (line pos : Nat) (s : State) : (moveTo line pos s).fq = s.fq := rfl
@[simp] theorem moveTo_curByte (line pos : Nat) (s : State) : (moveTo line pos s).curByte = s.curByte := rfl
@[simp] theorem moveTo_curValid (line pos : Nat) (s : State) : (moveTo line pos s).curValid = s.curValid := rfl
@[simp] theorem moveTo_hpos (line pos : Nat) (s : State) : (moveTo line pos s).hpos = pos := rfl
@[simp] theorem moveTo_vline (line pos : Nat) (s : State) : (moveTo line pos s).vline = line := rfl
@[simp] theorem moveTo_irqEn (line pos : Nat) (s : State) : (moveTo line pos s).irqEn = s.irqEn := rfl
@[simp] theorem moveTo_fbPending (line pos : Nat) (s : State) : (moveTo line pos s).fbPending = s.fbPending := rfl
@[simp] theorem moveTo_inService (line pos : Nat) (s : State) : (moveTo line pos s).inService = s.inService := rfl
@[simp] theorem moveTo_cbEn (line pos : Nat) (s : State) : (moveTo line pos s).cbEn = s.cbEn := rfl
@[simp] theorem moveTo_waiting (line pos : Nat) (s : State) : (moveTo line pos s).waiting = s.waiting := rfl
@[simp] theorem moveTo_waitFc (line pos : Nat) (s : State) : (moveTo line pos s).waitFc = s.waitFc := rfl
@[simp] theorem moveTo_hsync (line pos : Nat) (s : State) : (moveTo line pos s).hsync = s.hsync := rfl
@[simp] theorem moveTo_vsync (line pos : Nat) (s : State) : (moveTo line pos s).vsync = s.vsync := rfl
@[simp] theorem moveTo_pix (line pos : Nat) (s : State) : (moveTo line pos s).pix = s.pix := rfl
@[simp] theorem moveTo_fault (line pos : Nat) (s : State) : (moveTo line pos s).fault = s.fault := rfl
@[simp] theorem moveTo_refused (line pos : Nat) (s : State) : (moveTo line pos s).refused = s.refused := rfl
@[simp] theorem moveTo_mem (line pos : Nat) (s : State) : (moveTo line pos s).mem = s.mem := rfl
@[simp] theorem moveTo_flushed (line pos : Nat) (s : State) : (moveTo line pos s).flushed = s.flushed := rfl
@[simp] theorem moveTo_fresh (line pos : Nat) (s : State) : (moveTo line pos s).fresh = s.fresh := rfl
@[simp] theorem moveTo_schedule (line pos : Nat) (s : State) : (moveTo line pos s).schedule = s.schedule := rfl
@[simp] theorem moveTo_draws (line pos : Nat) (s : State) : (moveTo line pos s).draws = s.draws := rfl
@[simp] theorem moveTo_obs (line pos : Nat) (s : State) : (moveTo line pos s).obs = s.obs := rfl

@[simp] theorem hwResetEffect_mode (s : State) : (hwResetEffect s).mode = State.reset.mode := rfl
@[simp] theorem hwResetEffect_argPtr (s : State) : (hwResetEffect s).argPtr = State.reset.argPtr := rfl
@[simp] theorem hwResetEffect_argPitch (s : State) : (hwResetEffect s).argPitch = State.reset.argPitch := rfl
@[simp] theorem hwResetEffect_runstate (s : State) : (hwResetEffect s).runstate = State.reset.runstate := rfl
@[simp] theorem hwResetEffect_haltCause (s : State) : (hwResetEffect s).haltCause = State.reset.haltCause := rfl
@[simp] theorem hwResetEffect_framecount (s : State) : (hwResetEffect s).framecount = State.reset.framecount := rfl
@[simp] theorem hwResetEffect_curPtr (s : State) : (hwResetEffect s).curPtr = State.reset.curPtr := rfl
@[simp] theorem hwResetEffect_curPitch (s : State) : (hwResetEffect s).curPitch = State.reset.curPitch := rfl
@[simp] theorem hwResetEffect_nextPtr (s : State) : (hwResetEffect s).nextPtr = State.reset.nextPtr := rfl
@[simp] theorem hwResetEffect_nextPitch (s : State) : (hwResetEffect s).nextPitch = State.reset.nextPitch := rfl
@[simp] theorem hwResetEffect_curG (s : State) : (hwResetEffect s).curG = State.reset.curG := rfl
@[simp] theorem hwResetEffect_nextG (s : State) : (hwResetEffect s).nextG = State.reset.nextG := rfl
@[simp] theorem hwResetEffect_armed (s : State) : (hwResetEffect s).armed = State.reset.armed := rfl
@[simp] theorem hwResetEffect_dmaEn (s : State) : (hwResetEffect s).dmaEn = State.reset.dmaEn := rfl
@[simp] theorem hwResetEffect_dmaLine (s : State) : (hwResetEffect s).dmaLine = State.reset.dmaLine := rfl
@[simp] theorem hwResetEffect_dmaOff (s : State) : (hwResetEffect s).dmaOff = State.reset.dmaOff := rfl
@[simp] theorem hwResetEffect_fq (s : State) : (hwResetEffect s).fq = State.reset.fq := rfl
@[simp] theorem hwResetEffect_curByte (s : State) : (hwResetEffect s).curByte = State.reset.curByte := rfl
@[simp] theorem hwResetEffect_curValid (s : State) : (hwResetEffect s).curValid = State.reset.curValid := rfl
@[simp] theorem hwResetEffect_hpos (s : State) : (hwResetEffect s).hpos = State.reset.hpos := rfl
@[simp] theorem hwResetEffect_vline (s : State) : (hwResetEffect s).vline = State.reset.vline := rfl
@[simp] theorem hwResetEffect_irqEn (s : State) : (hwResetEffect s).irqEn = State.reset.irqEn := rfl
@[simp] theorem hwResetEffect_fbPending (s : State) : (hwResetEffect s).fbPending = State.reset.fbPending := rfl
@[simp] theorem hwResetEffect_inService (s : State) : (hwResetEffect s).inService = State.reset.inService := rfl
@[simp] theorem hwResetEffect_cbEn (s : State) : (hwResetEffect s).cbEn = State.reset.cbEn := rfl
@[simp] theorem hwResetEffect_waiting (s : State) : (hwResetEffect s).waiting = State.reset.waiting := rfl
@[simp] theorem hwResetEffect_waitFc (s : State) : (hwResetEffect s).waitFc = State.reset.waitFc := rfl
@[simp] theorem hwResetEffect_hsync (s : State) : (hwResetEffect s).hsync = State.reset.hsync := rfl
@[simp] theorem hwResetEffect_vsync (s : State) : (hwResetEffect s).vsync = State.reset.vsync := rfl
@[simp] theorem hwResetEffect_pix (s : State) : (hwResetEffect s).pix = State.reset.pix := rfl
@[simp] theorem hwResetEffect_fault (s : State) : (hwResetEffect s).fault = s.fault := rfl
@[simp] theorem hwResetEffect_refused (s : State) : (hwResetEffect s).refused = s.refused := rfl
@[simp] theorem hwResetEffect_mem (s : State) : (hwResetEffect s).mem = s.mem := rfl
@[simp] theorem hwResetEffect_flushed (s : State) : (hwResetEffect s).flushed = s.flushed := rfl
@[simp] theorem hwResetEffect_fresh (s : State) : (hwResetEffect s).fresh = s.fresh := rfl
@[simp] theorem hwResetEffect_schedule (s : State) : (hwResetEffect s).schedule = s.schedule := rfl
@[simp] theorem hwResetEffect_draws (s : State) : (hwResetEffect s).draws = s.draws := rfl
@[simp] theorem hwResetEffect_obs (s : State) : (hwResetEffect s).obs = s.obs := rfl

@[simp] theorem refuse_mode (why : RefuseReason) (s : State) : (refuse why s).mode = s.mode := rfl
@[simp] theorem refuse_argPtr (why : RefuseReason) (s : State) : (refuse why s).argPtr = s.argPtr := rfl
@[simp] theorem refuse_argPitch (why : RefuseReason) (s : State) : (refuse why s).argPitch = s.argPitch := rfl
@[simp] theorem refuse_runstate (why : RefuseReason) (s : State) : (refuse why s).runstate = s.runstate := rfl
@[simp] theorem refuse_haltCause (why : RefuseReason) (s : State) : (refuse why s).haltCause = s.haltCause := rfl
@[simp] theorem refuse_framecount (why : RefuseReason) (s : State) : (refuse why s).framecount = s.framecount := rfl
@[simp] theorem refuse_curPtr (why : RefuseReason) (s : State) : (refuse why s).curPtr = s.curPtr := rfl
@[simp] theorem refuse_curPitch (why : RefuseReason) (s : State) : (refuse why s).curPitch = s.curPitch := rfl
@[simp] theorem refuse_nextPtr (why : RefuseReason) (s : State) : (refuse why s).nextPtr = s.nextPtr := rfl
@[simp] theorem refuse_nextPitch (why : RefuseReason) (s : State) : (refuse why s).nextPitch = s.nextPitch := rfl
@[simp] theorem refuse_curG (why : RefuseReason) (s : State) : (refuse why s).curG = s.curG := rfl
@[simp] theorem refuse_nextG (why : RefuseReason) (s : State) : (refuse why s).nextG = s.nextG := rfl
@[simp] theorem refuse_armed (why : RefuseReason) (s : State) : (refuse why s).armed = s.armed := rfl
@[simp] theorem refuse_dmaEn (why : RefuseReason) (s : State) : (refuse why s).dmaEn = s.dmaEn := rfl
@[simp] theorem refuse_dmaLine (why : RefuseReason) (s : State) : (refuse why s).dmaLine = s.dmaLine := rfl
@[simp] theorem refuse_dmaOff (why : RefuseReason) (s : State) : (refuse why s).dmaOff = s.dmaOff := rfl
@[simp] theorem refuse_fq (why : RefuseReason) (s : State) : (refuse why s).fq = s.fq := rfl
@[simp] theorem refuse_curByte (why : RefuseReason) (s : State) : (refuse why s).curByte = s.curByte := rfl
@[simp] theorem refuse_curValid (why : RefuseReason) (s : State) : (refuse why s).curValid = s.curValid := rfl
@[simp] theorem refuse_hpos (why : RefuseReason) (s : State) : (refuse why s).hpos = s.hpos := rfl
@[simp] theorem refuse_vline (why : RefuseReason) (s : State) : (refuse why s).vline = s.vline := rfl
@[simp] theorem refuse_irqEn (why : RefuseReason) (s : State) : (refuse why s).irqEn = s.irqEn := rfl
@[simp] theorem refuse_fbPending (why : RefuseReason) (s : State) : (refuse why s).fbPending = s.fbPending := rfl
@[simp] theorem refuse_inService (why : RefuseReason) (s : State) : (refuse why s).inService = s.inService := rfl
@[simp] theorem refuse_cbEn (why : RefuseReason) (s : State) : (refuse why s).cbEn = s.cbEn := rfl
@[simp] theorem refuse_waiting (why : RefuseReason) (s : State) : (refuse why s).waiting = s.waiting := rfl
@[simp] theorem refuse_waitFc (why : RefuseReason) (s : State) : (refuse why s).waitFc = s.waitFc := rfl
@[simp] theorem refuse_hsync (why : RefuseReason) (s : State) : (refuse why s).hsync = s.hsync := rfl
@[simp] theorem refuse_vsync (why : RefuseReason) (s : State) : (refuse why s).vsync = s.vsync := rfl
@[simp] theorem refuse_pix (why : RefuseReason) (s : State) : (refuse why s).pix = s.pix := rfl
@[simp] theorem refuse_fault (why : RefuseReason) (s : State) : (refuse why s).fault = s.fault := rfl
@[simp] theorem refuse_refused (why : RefuseReason) (s : State) : (refuse why s).refused = s.refused.or (some why) := rfl
@[simp] theorem refuse_mem (why : RefuseReason) (s : State) : (refuse why s).mem = s.mem := rfl
@[simp] theorem refuse_flushed (why : RefuseReason) (s : State) : (refuse why s).flushed = s.flushed := rfl
@[simp] theorem refuse_fresh (why : RefuseReason) (s : State) : (refuse why s).fresh = s.fresh := rfl
@[simp] theorem refuse_schedule (why : RefuseReason) (s : State) : (refuse why s).schedule = s.schedule := rfl
@[simp] theorem refuse_draws (why : RefuseReason) (s : State) : (refuse why s).draws = s.draws := rfl
@[simp] theorem refuse_obs (why : RefuseReason) (s : State) : (refuse why s).obs = s.obs := rfl

@[simp] theorem markFault_mode (m : FaultMark) (s : State) : (markFault m s).mode = s.mode := rfl
@[simp] theorem markFault_argPtr (m : FaultMark) (s : State) : (markFault m s).argPtr = s.argPtr := rfl
@[simp] theorem markFault_argPitch (m : FaultMark) (s : State) : (markFault m s).argPitch = s.argPitch := rfl
@[simp] theorem markFault_runstate (m : FaultMark) (s : State) : (markFault m s).runstate = s.runstate := rfl
@[simp] theorem markFault_haltCause (m : FaultMark) (s : State) : (markFault m s).haltCause = s.haltCause := rfl
@[simp] theorem markFault_framecount (m : FaultMark) (s : State) : (markFault m s).framecount = s.framecount := rfl
@[simp] theorem markFault_curPtr (m : FaultMark) (s : State) : (markFault m s).curPtr = s.curPtr := rfl
@[simp] theorem markFault_curPitch (m : FaultMark) (s : State) : (markFault m s).curPitch = s.curPitch := rfl
@[simp] theorem markFault_nextPtr (m : FaultMark) (s : State) : (markFault m s).nextPtr = s.nextPtr := rfl
@[simp] theorem markFault_nextPitch (m : FaultMark) (s : State) : (markFault m s).nextPitch = s.nextPitch := rfl
@[simp] theorem markFault_curG (m : FaultMark) (s : State) : (markFault m s).curG = s.curG := rfl
@[simp] theorem markFault_nextG (m : FaultMark) (s : State) : (markFault m s).nextG = s.nextG := rfl
@[simp] theorem markFault_armed (m : FaultMark) (s : State) : (markFault m s).armed = s.armed := rfl
@[simp] theorem markFault_dmaEn (m : FaultMark) (s : State) : (markFault m s).dmaEn = s.dmaEn := rfl
@[simp] theorem markFault_dmaLine (m : FaultMark) (s : State) : (markFault m s).dmaLine = s.dmaLine := rfl
@[simp] theorem markFault_dmaOff (m : FaultMark) (s : State) : (markFault m s).dmaOff = s.dmaOff := rfl
@[simp] theorem markFault_fq (m : FaultMark) (s : State) : (markFault m s).fq = s.fq := rfl
@[simp] theorem markFault_curByte (m : FaultMark) (s : State) : (markFault m s).curByte = s.curByte := rfl
@[simp] theorem markFault_curValid (m : FaultMark) (s : State) : (markFault m s).curValid = s.curValid := rfl
@[simp] theorem markFault_hpos (m : FaultMark) (s : State) : (markFault m s).hpos = s.hpos := rfl
@[simp] theorem markFault_vline (m : FaultMark) (s : State) : (markFault m s).vline = s.vline := rfl
@[simp] theorem markFault_irqEn (m : FaultMark) (s : State) : (markFault m s).irqEn = s.irqEn := rfl
@[simp] theorem markFault_fbPending (m : FaultMark) (s : State) : (markFault m s).fbPending = s.fbPending := rfl
@[simp] theorem markFault_inService (m : FaultMark) (s : State) : (markFault m s).inService = s.inService := rfl
@[simp] theorem markFault_cbEn (m : FaultMark) (s : State) : (markFault m s).cbEn = s.cbEn := rfl
@[simp] theorem markFault_waiting (m : FaultMark) (s : State) : (markFault m s).waiting = s.waiting := rfl
@[simp] theorem markFault_waitFc (m : FaultMark) (s : State) : (markFault m s).waitFc = s.waitFc := rfl
@[simp] theorem markFault_hsync (m : FaultMark) (s : State) : (markFault m s).hsync = s.hsync := rfl
@[simp] theorem markFault_vsync (m : FaultMark) (s : State) : (markFault m s).vsync = s.vsync := rfl
@[simp] theorem markFault_pix (m : FaultMark) (s : State) : (markFault m s).pix = s.pix := rfl
@[simp] theorem markFault_fault (m : FaultMark) (s : State) : (markFault m s).fault = s.fault.or (some m) := rfl
@[simp] theorem markFault_refused (m : FaultMark) (s : State) : (markFault m s).refused = s.refused := rfl
@[simp] theorem markFault_mem (m : FaultMark) (s : State) : (markFault m s).mem = s.mem := rfl
@[simp] theorem markFault_flushed (m : FaultMark) (s : State) : (markFault m s).flushed = s.flushed := rfl
@[simp] theorem markFault_fresh (m : FaultMark) (s : State) : (markFault m s).fresh = s.fresh := rfl
@[simp] theorem markFault_schedule (m : FaultMark) (s : State) : (markFault m s).schedule = s.schedule := rfl
@[simp] theorem markFault_draws (m : FaultMark) (s : State) : (markFault m s).draws = s.draws := rfl
@[simp] theorem markFault_obs (m : FaultMark) (s : State) : (markFault m s).obs = s.obs := rfl

@[simp] theorem hostStore_mode (a : Word) (b : Byte) (s : State) : (hostStore a b s).mode = s.mode := rfl
@[simp] theorem hostStore_argPtr (a : Word) (b : Byte) (s : State) : (hostStore a b s).argPtr = s.argPtr := rfl
@[simp] theorem hostStore_argPitch (a : Word) (b : Byte) (s : State) : (hostStore a b s).argPitch = s.argPitch := rfl
@[simp] theorem hostStore_runstate (a : Word) (b : Byte) (s : State) : (hostStore a b s).runstate = s.runstate := rfl
@[simp] theorem hostStore_haltCause (a : Word) (b : Byte) (s : State) : (hostStore a b s).haltCause = s.haltCause := rfl
@[simp] theorem hostStore_framecount (a : Word) (b : Byte) (s : State) : (hostStore a b s).framecount = s.framecount := rfl
@[simp] theorem hostStore_curPtr (a : Word) (b : Byte) (s : State) : (hostStore a b s).curPtr = s.curPtr := rfl
@[simp] theorem hostStore_curPitch (a : Word) (b : Byte) (s : State) : (hostStore a b s).curPitch = s.curPitch := rfl
@[simp] theorem hostStore_nextPtr (a : Word) (b : Byte) (s : State) : (hostStore a b s).nextPtr = s.nextPtr := rfl
@[simp] theorem hostStore_nextPitch (a : Word) (b : Byte) (s : State) : (hostStore a b s).nextPitch = s.nextPitch := rfl
@[simp] theorem hostStore_curG (a : Word) (b : Byte) (s : State) : (hostStore a b s).curG = s.curG := rfl
@[simp] theorem hostStore_nextG (a : Word) (b : Byte) (s : State) : (hostStore a b s).nextG = s.nextG := rfl
@[simp] theorem hostStore_armed (a : Word) (b : Byte) (s : State) : (hostStore a b s).armed = s.armed := rfl
@[simp] theorem hostStore_dmaEn (a : Word) (b : Byte) (s : State) : (hostStore a b s).dmaEn = s.dmaEn := rfl
@[simp] theorem hostStore_dmaLine (a : Word) (b : Byte) (s : State) : (hostStore a b s).dmaLine = s.dmaLine := rfl
@[simp] theorem hostStore_dmaOff (a : Word) (b : Byte) (s : State) : (hostStore a b s).dmaOff = s.dmaOff := rfl
@[simp] theorem hostStore_fq (a : Word) (b : Byte) (s : State) : (hostStore a b s).fq = s.fq := rfl
@[simp] theorem hostStore_curByte (a : Word) (b : Byte) (s : State) : (hostStore a b s).curByte = s.curByte := rfl
@[simp] theorem hostStore_curValid (a : Word) (b : Byte) (s : State) : (hostStore a b s).curValid = s.curValid := rfl
@[simp] theorem hostStore_hpos (a : Word) (b : Byte) (s : State) : (hostStore a b s).hpos = s.hpos := rfl
@[simp] theorem hostStore_vline (a : Word) (b : Byte) (s : State) : (hostStore a b s).vline = s.vline := rfl
@[simp] theorem hostStore_irqEn (a : Word) (b : Byte) (s : State) : (hostStore a b s).irqEn = s.irqEn := rfl
@[simp] theorem hostStore_fbPending (a : Word) (b : Byte) (s : State) : (hostStore a b s).fbPending = s.fbPending := rfl
@[simp] theorem hostStore_inService (a : Word) (b : Byte) (s : State) : (hostStore a b s).inService = s.inService := rfl
@[simp] theorem hostStore_cbEn (a : Word) (b : Byte) (s : State) : (hostStore a b s).cbEn = s.cbEn := rfl
@[simp] theorem hostStore_waiting (a : Word) (b : Byte) (s : State) : (hostStore a b s).waiting = s.waiting := rfl
@[simp] theorem hostStore_waitFc (a : Word) (b : Byte) (s : State) : (hostStore a b s).waitFc = s.waitFc := rfl
@[simp] theorem hostStore_hsync (a : Word) (b : Byte) (s : State) : (hostStore a b s).hsync = s.hsync := rfl
@[simp] theorem hostStore_vsync (a : Word) (b : Byte) (s : State) : (hostStore a b s).vsync = s.vsync := rfl
@[simp] theorem hostStore_pix (a : Word) (b : Byte) (s : State) : (hostStore a b s).pix = s.pix := rfl
@[simp] theorem hostStore_fault (a : Word) (b : Byte) (s : State) : (hostStore a b s).fault = s.fault := rfl
@[simp] theorem hostStore_refused (a : Word) (b : Byte) (s : State) : (hostStore a b s).refused = s.refused := rfl
@[simp] theorem hostStore_mem (a : Word) (b : Byte) (s : State) : (hostStore a b s).mem = s.mem := rfl
@[simp] theorem hostStore_flushed (a : Word) (b : Byte) (s : State) : (hostStore a b s).flushed = s.flushed := rfl
@[simp] theorem hostStore_fresh (a : Word) (b : Byte) (s : State) : (hostStore a b s).fresh = s.fresh ++ [⟨a, b⟩] := rfl
@[simp] theorem hostStore_schedule (a : Word) (b : Byte) (s : State) : (hostStore a b s).schedule = s.schedule := rfl
@[simp] theorem hostStore_draws (a : Word) (b : Byte) (s : State) : (hostStore a b s).draws = s.draws := rfl
@[simp] theorem hostStore_obs (a : Word) (b : Byte) (s : State) : (hostStore a b s).obs = s.obs := rfl

@[simp] theorem requestFlush_mode (s : State) : (requestFlush s).mode = s.mode := rfl
@[simp] theorem requestFlush_argPtr (s : State) : (requestFlush s).argPtr = s.argPtr := rfl
@[simp] theorem requestFlush_argPitch (s : State) : (requestFlush s).argPitch = s.argPitch := rfl
@[simp] theorem requestFlush_runstate (s : State) : (requestFlush s).runstate = s.runstate := rfl
@[simp] theorem requestFlush_haltCause (s : State) : (requestFlush s).haltCause = s.haltCause := rfl
@[simp] theorem requestFlush_framecount (s : State) : (requestFlush s).framecount = s.framecount := rfl
@[simp] theorem requestFlush_curPtr (s : State) : (requestFlush s).curPtr = s.curPtr := rfl
@[simp] theorem requestFlush_curPitch (s : State) : (requestFlush s).curPitch = s.curPitch := rfl
@[simp] theorem requestFlush_nextPtr (s : State) : (requestFlush s).nextPtr = s.nextPtr := rfl
@[simp] theorem requestFlush_nextPitch (s : State) : (requestFlush s).nextPitch = s.nextPitch := rfl
@[simp] theorem requestFlush_curG (s : State) : (requestFlush s).curG = s.curG := rfl
@[simp] theorem requestFlush_nextG (s : State) : (requestFlush s).nextG = s.nextG := rfl
@[simp] theorem requestFlush_armed (s : State) : (requestFlush s).armed = s.armed := rfl
@[simp] theorem requestFlush_dmaEn (s : State) : (requestFlush s).dmaEn = s.dmaEn := rfl
@[simp] theorem requestFlush_dmaLine (s : State) : (requestFlush s).dmaLine = s.dmaLine := rfl
@[simp] theorem requestFlush_dmaOff (s : State) : (requestFlush s).dmaOff = s.dmaOff := rfl
@[simp] theorem requestFlush_fq (s : State) : (requestFlush s).fq = s.fq := rfl
@[simp] theorem requestFlush_curByte (s : State) : (requestFlush s).curByte = s.curByte := rfl
@[simp] theorem requestFlush_curValid (s : State) : (requestFlush s).curValid = s.curValid := rfl
@[simp] theorem requestFlush_hpos (s : State) : (requestFlush s).hpos = s.hpos := rfl
@[simp] theorem requestFlush_vline (s : State) : (requestFlush s).vline = s.vline := rfl
@[simp] theorem requestFlush_irqEn (s : State) : (requestFlush s).irqEn = s.irqEn := rfl
@[simp] theorem requestFlush_fbPending (s : State) : (requestFlush s).fbPending = s.fbPending := rfl
@[simp] theorem requestFlush_inService (s : State) : (requestFlush s).inService = s.inService := rfl
@[simp] theorem requestFlush_cbEn (s : State) : (requestFlush s).cbEn = s.cbEn := rfl
@[simp] theorem requestFlush_waiting (s : State) : (requestFlush s).waiting = s.waiting := rfl
@[simp] theorem requestFlush_waitFc (s : State) : (requestFlush s).waitFc = s.waitFc := rfl
@[simp] theorem requestFlush_hsync (s : State) : (requestFlush s).hsync = s.hsync := rfl
@[simp] theorem requestFlush_vsync (s : State) : (requestFlush s).vsync = s.vsync := rfl
@[simp] theorem requestFlush_pix (s : State) : (requestFlush s).pix = s.pix := rfl
@[simp] theorem requestFlush_fault (s : State) : (requestFlush s).fault = s.fault := rfl
@[simp] theorem requestFlush_refused (s : State) : (requestFlush s).refused = s.refused := rfl
@[simp] theorem requestFlush_mem (s : State) : (requestFlush s).mem = s.mem := rfl
@[simp] theorem requestFlush_flushed (s : State) : (requestFlush s).flushed = s.flushed ++ s.fresh := rfl
@[simp] theorem requestFlush_fresh (s : State) : (requestFlush s).fresh = [] := rfl
@[simp] theorem requestFlush_schedule (s : State) : (requestFlush s).schedule = s.schedule := rfl
@[simp] theorem requestFlush_draws (s : State) : (requestFlush s).draws = s.draws := rfl
@[simp] theorem requestFlush_obs (s : State) : (requestFlush s).obs = .flushReq :: s.obs := rfl

@[simp] theorem settle_mode (s : State) : (settle s).mode = s.mode := rfl
@[simp] theorem settle_argPtr (s : State) : (settle s).argPtr = s.argPtr := rfl
@[simp] theorem settle_argPitch (s : State) : (settle s).argPitch = s.argPitch := rfl
@[simp] theorem settle_runstate (s : State) : (settle s).runstate = s.runstate := rfl
@[simp] theorem settle_haltCause (s : State) : (settle s).haltCause = s.haltCause := rfl
@[simp] theorem settle_framecount (s : State) : (settle s).framecount = s.framecount := rfl
@[simp] theorem settle_curPtr (s : State) : (settle s).curPtr = s.curPtr := rfl
@[simp] theorem settle_curPitch (s : State) : (settle s).curPitch = s.curPitch := rfl
@[simp] theorem settle_nextPtr (s : State) : (settle s).nextPtr = s.nextPtr := rfl
@[simp] theorem settle_nextPitch (s : State) : (settle s).nextPitch = s.nextPitch := rfl
@[simp] theorem settle_curG (s : State) : (settle s).curG = s.curG := rfl
@[simp] theorem settle_nextG (s : State) : (settle s).nextG = s.nextG := rfl
@[simp] theorem settle_armed (s : State) : (settle s).armed = s.armed := rfl
@[simp] theorem settle_dmaEn (s : State) : (settle s).dmaEn = s.dmaEn := rfl
@[simp] theorem settle_dmaLine (s : State) : (settle s).dmaLine = s.dmaLine := rfl
@[simp] theorem settle_dmaOff (s : State) : (settle s).dmaOff = s.dmaOff := rfl
@[simp] theorem settle_fq (s : State) : (settle s).fq = s.fq := rfl
@[simp] theorem settle_curByte (s : State) : (settle s).curByte = s.curByte := rfl
@[simp] theorem settle_curValid (s : State) : (settle s).curValid = s.curValid := rfl
@[simp] theorem settle_hpos (s : State) : (settle s).hpos = s.hpos := rfl
@[simp] theorem settle_vline (s : State) : (settle s).vline = s.vline := rfl
@[simp] theorem settle_irqEn (s : State) : (settle s).irqEn = s.irqEn := rfl
@[simp] theorem settle_fbPending (s : State) : (settle s).fbPending = s.fbPending := rfl
@[simp] theorem settle_inService (s : State) : (settle s).inService = s.inService := rfl
@[simp] theorem settle_cbEn (s : State) : (settle s).cbEn = s.cbEn := rfl
@[simp] theorem settle_waiting (s : State) : (settle s).waiting = s.waiting := rfl
@[simp] theorem settle_waitFc (s : State) : (settle s).waitFc = s.waitFc := rfl
@[simp] theorem settle_hsync (s : State) : (settle s).hsync = s.hsync := rfl
@[simp] theorem settle_vsync (s : State) : (settle s).vsync = s.vsync := rfl
@[simp] theorem settle_pix (s : State) : (settle s).pix = s.pix := rfl
@[simp] theorem settle_fault (s : State) : (settle s).fault = s.fault := rfl
@[simp] theorem settle_refused (s : State) : (settle s).refused = s.refused := rfl
@[simp] theorem settle_mem (s : State) : (settle s).mem = s.flushed.foldl (fun m w => Memory.write m w.addr.toNat w.byte) s.mem := rfl
@[simp] theorem settle_flushed (s : State) : (settle s).flushed = [] := rfl
@[simp] theorem settle_fresh (s : State) : (settle s).fresh = s.fresh := rfl
@[simp] theorem settle_schedule (s : State) : (settle s).schedule = s.schedule := rfl
@[simp] theorem settle_draws (s : State) : (settle s).draws = s.draws := rfl
@[simp] theorem settle_obs (s : State) : (settle s).obs = s.obs := rfl

@[simp] theorem raiseHalt_mode (c : HaltCause) (s : State) : (raiseHalt c s).mode = s.mode := rfl
@[simp] theorem raiseHalt_argPtr (c : HaltCause) (s : State) : (raiseHalt c s).argPtr = s.argPtr := rfl
@[simp] theorem raiseHalt_argPitch (c : HaltCause) (s : State) : (raiseHalt c s).argPitch = s.argPitch := rfl
@[simp] theorem raiseHalt_runstate (c : HaltCause) (s : State) : (raiseHalt c s).runstate = .halted := rfl
@[simp] theorem raiseHalt_haltCause (c : HaltCause) (s : State) : (raiseHalt c s).haltCause = c := rfl
@[simp] theorem raiseHalt_framecount (c : HaltCause) (s : State) : (raiseHalt c s).framecount = s.framecount := rfl
@[simp] theorem raiseHalt_curPtr (c : HaltCause) (s : State) : (raiseHalt c s).curPtr = s.curPtr := rfl
@[simp] theorem raiseHalt_curPitch (c : HaltCause) (s : State) : (raiseHalt c s).curPitch = s.curPitch := rfl
@[simp] theorem raiseHalt_nextPtr (c : HaltCause) (s : State) : (raiseHalt c s).nextPtr = s.nextPtr := rfl
@[simp] theorem raiseHalt_nextPitch (c : HaltCause) (s : State) : (raiseHalt c s).nextPitch = s.nextPitch := rfl
@[simp] theorem raiseHalt_curG (c : HaltCause) (s : State) : (raiseHalt c s).curG = s.curG := rfl
@[simp] theorem raiseHalt_nextG (c : HaltCause) (s : State) : (raiseHalt c s).nextG = s.nextG := rfl
@[simp] theorem raiseHalt_armed (c : HaltCause) (s : State) : (raiseHalt c s).armed = s.armed := rfl
@[simp] theorem raiseHalt_dmaEn (c : HaltCause) (s : State) : (raiseHalt c s).dmaEn = false := rfl
@[simp] theorem raiseHalt_dmaLine (c : HaltCause) (s : State) : (raiseHalt c s).dmaLine = s.dmaLine := rfl
@[simp] theorem raiseHalt_dmaOff (c : HaltCause) (s : State) : (raiseHalt c s).dmaOff = s.dmaOff := rfl
@[simp] theorem raiseHalt_fq (c : HaltCause) (s : State) : (raiseHalt c s).fq = s.fq := rfl
@[simp] theorem raiseHalt_curByte (c : HaltCause) (s : State) : (raiseHalt c s).curByte = s.curByte := rfl
@[simp] theorem raiseHalt_curValid (c : HaltCause) (s : State) : (raiseHalt c s).curValid = s.curValid := rfl
@[simp] theorem raiseHalt_hpos (c : HaltCause) (s : State) : (raiseHalt c s).hpos = s.hpos := rfl
@[simp] theorem raiseHalt_vline (c : HaltCause) (s : State) : (raiseHalt c s).vline = s.vline := rfl
@[simp] theorem raiseHalt_irqEn (c : HaltCause) (s : State) : (raiseHalt c s).irqEn = false := rfl
@[simp] theorem raiseHalt_fbPending (c : HaltCause) (s : State) : (raiseHalt c s).fbPending = false := rfl
@[simp] theorem raiseHalt_inService (c : HaltCause) (s : State) : (raiseHalt c s).inService = s.inService := rfl
@[simp] theorem raiseHalt_cbEn (c : HaltCause) (s : State) : (raiseHalt c s).cbEn = s.cbEn := rfl
@[simp] theorem raiseHalt_waiting (c : HaltCause) (s : State) : (raiseHalt c s).waiting = s.waiting := rfl
@[simp] theorem raiseHalt_waitFc (c : HaltCause) (s : State) : (raiseHalt c s).waitFc = s.waitFc := rfl
@[simp] theorem raiseHalt_hsync (c : HaltCause) (s : State) : (raiseHalt c s).hsync = s.hsync := rfl
@[simp] theorem raiseHalt_vsync (c : HaltCause) (s : State) : (raiseHalt c s).vsync = s.vsync := rfl
@[simp] theorem raiseHalt_pix (c : HaltCause) (s : State) : (raiseHalt c s).pix = s.pix := rfl
@[simp] theorem raiseHalt_fault (c : HaltCause) (s : State) : (raiseHalt c s).fault = s.fault := rfl
@[simp] theorem raiseHalt_refused (c : HaltCause) (s : State) : (raiseHalt c s).refused = s.refused := rfl
@[simp] theorem raiseHalt_mem (c : HaltCause) (s : State) : (raiseHalt c s).mem = s.mem := rfl
@[simp] theorem raiseHalt_flushed (c : HaltCause) (s : State) : (raiseHalt c s).flushed = s.flushed := rfl
@[simp] theorem raiseHalt_fresh (c : HaltCause) (s : State) : (raiseHalt c s).fresh = s.fresh := rfl
@[simp] theorem raiseHalt_schedule (c : HaltCause) (s : State) : (raiseHalt c s).schedule = s.schedule := rfl
@[simp] theorem raiseHalt_draws (c : HaltCause) (s : State) : (raiseHalt c s).draws = s.draws := rfl
@[simp] theorem raiseHalt_obs (c : HaltCause) (s : State) : (raiseHalt c s).obs = .halt c :: s.obs := rfl

@[simp] theorem programTimers_mode (s : State) : (programTimers s).mode = s.mode := rfl
@[simp] theorem programTimers_argPtr (s : State) : (programTimers s).argPtr = s.argPtr := rfl
@[simp] theorem programTimers_argPitch (s : State) : (programTimers s).argPitch = s.argPitch := rfl
@[simp] theorem programTimers_runstate (s : State) : (programTimers s).runstate = .running := rfl
@[simp] theorem programTimers_haltCause (s : State) : (programTimers s).haltCause = s.haltCause := rfl
@[simp] theorem programTimers_framecount (s : State) : (programTimers s).framecount = 0 := rfl
@[simp] theorem programTimers_curPtr (s : State) : (programTimers s).curPtr = s.curPtr := rfl
@[simp] theorem programTimers_curPitch (s : State) : (programTimers s).curPitch = s.curPitch := rfl
@[simp] theorem programTimers_nextPtr (s : State) : (programTimers s).nextPtr = s.nextPtr := rfl
@[simp] theorem programTimers_nextPitch (s : State) : (programTimers s).nextPitch = s.nextPitch := rfl
@[simp] theorem programTimers_curG (s : State) : (programTimers s).curG = s.curG := rfl
@[simp] theorem programTimers_nextG (s : State) : (programTimers s).nextG = s.nextG := rfl
@[simp] theorem programTimers_armed (s : State) : (programTimers s).armed = s.armed := rfl
@[simp] theorem programTimers_dmaEn (s : State) : (programTimers s).dmaEn = false := rfl
@[simp] theorem programTimers_dmaLine (s : State) : (programTimers s).dmaLine = 0 := rfl
@[simp] theorem programTimers_dmaOff (s : State) : (programTimers s).dmaOff = 0 := rfl
@[simp] theorem programTimers_fq (s : State) : (programTimers s).fq = [] := rfl
@[simp] theorem programTimers_curByte (s : State) : (programTimers s).curByte = 0 := rfl
@[simp] theorem programTimers_curValid (s : State) : (programTimers s).curValid = false := rfl
@[simp] theorem programTimers_hpos (s : State) : (programTimers s).hpos = 0 := rfl
@[simp] theorem programTimers_vline (s : State) : (programTimers s).vline = 0 := rfl
@[simp] theorem programTimers_irqEn (s : State) : (programTimers s).irqEn = true := rfl
@[simp] theorem programTimers_fbPending (s : State) : (programTimers s).fbPending = false := rfl
@[simp] theorem programTimers_inService (s : State) : (programTimers s).inService = false := rfl
@[simp] theorem programTimers_cbEn (s : State) : (programTimers s).cbEn = s.cbEn := rfl
@[simp] theorem programTimers_waiting (s : State) : (programTimers s).waiting = s.waiting := rfl
@[simp] theorem programTimers_waitFc (s : State) : (programTimers s).waitFc = s.waitFc := rfl
@[simp] theorem programTimers_hsync (s : State) : (programTimers s).hsync = s.hsync := rfl
@[simp] theorem programTimers_vsync (s : State) : (programTimers s).vsync = s.vsync := rfl
@[simp] theorem programTimers_pix (s : State) : (programTimers s).pix = s.pix := rfl
@[simp] theorem programTimers_fault (s : State) : (programTimers s).fault = s.fault := rfl
@[simp] theorem programTimers_refused (s : State) : (programTimers s).refused = s.refused := rfl
@[simp] theorem programTimers_mem (s : State) : (programTimers s).mem = s.mem := rfl
@[simp] theorem programTimers_flushed (s : State) : (programTimers s).flushed = s.flushed := rfl
@[simp] theorem programTimers_fresh (s : State) : (programTimers s).fresh = s.fresh := rfl
@[simp] theorem programTimers_schedule (s : State) : (programTimers s).schedule = s.schedule := rfl
@[simp] theorem programTimers_draws (s : State) : (programTimers s).draws = s.draws := rfl
@[simp] theorem programTimers_obs (s : State) : (programTimers s).obs = s.obs := rfl

@[simp] theorem armDescriptor_mode (s : State) : (armDescriptor s).mode = s.mode := rfl
@[simp] theorem armDescriptor_argPtr (s : State) : (armDescriptor s).argPtr = s.argPtr := rfl
@[simp] theorem armDescriptor_argPitch (s : State) : (armDescriptor s).argPitch = s.argPitch := rfl
@[simp] theorem armDescriptor_runstate (s : State) : (armDescriptor s).runstate = s.runstate := rfl
@[simp] theorem armDescriptor_haltCause (s : State) : (armDescriptor s).haltCause = s.haltCause := rfl
@[simp] theorem armDescriptor_framecount (s : State) : (armDescriptor s).framecount = s.framecount := rfl
@[simp] theorem armDescriptor_curPtr (s : State) : (armDescriptor s).curPtr = s.curPtr := rfl
@[simp] theorem armDescriptor_curPitch (s : State) : (armDescriptor s).curPitch = s.curPitch := rfl
@[simp] theorem armDescriptor_nextPtr (s : State) : (armDescriptor s).nextPtr = s.argPtr := rfl
@[simp] theorem armDescriptor_nextPitch (s : State) : (armDescriptor s).nextPitch = s.argPitch := rfl
@[simp] theorem armDescriptor_curG (s : State) : (armDescriptor s).curG = s.curG := rfl
@[simp] theorem armDescriptor_nextG (s : State) : (armDescriptor s).nextG = gran s.argPtr s.argPitch := rfl
@[simp] theorem armDescriptor_armed (s : State) : (armDescriptor s).armed = true := rfl
@[simp] theorem armDescriptor_dmaEn (s : State) : (armDescriptor s).dmaEn = s.dmaEn := rfl
@[simp] theorem armDescriptor_dmaLine (s : State) : (armDescriptor s).dmaLine = s.dmaLine := rfl
@[simp] theorem armDescriptor_dmaOff (s : State) : (armDescriptor s).dmaOff = s.dmaOff := rfl
@[simp] theorem armDescriptor_fq (s : State) : (armDescriptor s).fq = s.fq := rfl
@[simp] theorem armDescriptor_curByte (s : State) : (armDescriptor s).curByte = s.curByte := rfl
@[simp] theorem armDescriptor_curValid (s : State) : (armDescriptor s).curValid = s.curValid := rfl
@[simp] theorem armDescriptor_hpos (s : State) : (armDescriptor s).hpos = s.hpos := rfl
@[simp] theorem armDescriptor_vline (s : State) : (armDescriptor s).vline = s.vline := rfl
@[simp] theorem armDescriptor_irqEn (s : State) : (armDescriptor s).irqEn = s.irqEn := rfl
@[simp] theorem armDescriptor_fbPending (s : State) : (armDescriptor s).fbPending = s.fbPending := rfl
@[simp] theorem armDescriptor_inService (s : State) : (armDescriptor s).inService = s.inService := rfl
@[simp] theorem armDescriptor_cbEn (s : State) : (armDescriptor s).cbEn = s.cbEn := rfl
@[simp] theorem armDescriptor_waiting (s : State) : (armDescriptor s).waiting = s.waiting := rfl
@[simp] theorem armDescriptor_waitFc (s : State) : (armDescriptor s).waitFc = s.waitFc := rfl
@[simp] theorem armDescriptor_hsync (s : State) : (armDescriptor s).hsync = s.hsync := rfl
@[simp] theorem armDescriptor_vsync (s : State) : (armDescriptor s).vsync = s.vsync := rfl
@[simp] theorem armDescriptor_pix (s : State) : (armDescriptor s).pix = s.pix := rfl
@[simp] theorem armDescriptor_fault (s : State) : (armDescriptor s).fault = s.fault := rfl
@[simp] theorem armDescriptor_refused (s : State) : (armDescriptor s).refused = s.refused := rfl
@[simp] theorem armDescriptor_mem (s : State) : (armDescriptor s).mem = s.mem := rfl
@[simp] theorem armDescriptor_flushed (s : State) : (armDescriptor s).flushed = s.flushed := rfl
@[simp] theorem armDescriptor_fresh (s : State) : (armDescriptor s).fresh = s.fresh := rfl
@[simp] theorem armDescriptor_schedule (s : State) : (armDescriptor s).schedule = s.schedule := rfl
@[simp] theorem armDescriptor_draws (s : State) : (armDescriptor s).draws = s.draws := rfl
@[simp] theorem armDescriptor_obs (s : State) : (armDescriptor s).obs = s.obs := rfl

@[simp] theorem beginWait_mode (s : State) : (beginWait s).mode = s.mode := rfl
@[simp] theorem beginWait_argPtr (s : State) : (beginWait s).argPtr = s.argPtr := rfl
@[simp] theorem beginWait_argPitch (s : State) : (beginWait s).argPitch = s.argPitch := rfl
@[simp] theorem beginWait_runstate (s : State) : (beginWait s).runstate = s.runstate := rfl
@[simp] theorem beginWait_haltCause (s : State) : (beginWait s).haltCause = s.haltCause := rfl
@[simp] theorem beginWait_framecount (s : State) : (beginWait s).framecount = s.framecount := rfl
@[simp] theorem beginWait_curPtr (s : State) : (beginWait s).curPtr = s.curPtr := rfl
@[simp] theorem beginWait_curPitch (s : State) : (beginWait s).curPitch = s.curPitch := rfl
@[simp] theorem beginWait_nextPtr (s : State) : (beginWait s).nextPtr = s.nextPtr := rfl
@[simp] theorem beginWait_nextPitch (s : State) : (beginWait s).nextPitch = s.nextPitch := rfl
@[simp] theorem beginWait_curG (s : State) : (beginWait s).curG = s.curG := rfl
@[simp] theorem beginWait_nextG (s : State) : (beginWait s).nextG = s.nextG := rfl
@[simp] theorem beginWait_armed (s : State) : (beginWait s).armed = s.armed := rfl
@[simp] theorem beginWait_dmaEn (s : State) : (beginWait s).dmaEn = s.dmaEn := rfl
@[simp] theorem beginWait_dmaLine (s : State) : (beginWait s).dmaLine = s.dmaLine := rfl
@[simp] theorem beginWait_dmaOff (s : State) : (beginWait s).dmaOff = s.dmaOff := rfl
@[simp] theorem beginWait_fq (s : State) : (beginWait s).fq = s.fq := rfl
@[simp] theorem beginWait_curByte (s : State) : (beginWait s).curByte = s.curByte := rfl
@[simp] theorem beginWait_curValid (s : State) : (beginWait s).curValid = s.curValid := rfl
@[simp] theorem beginWait_hpos (s : State) : (beginWait s).hpos = s.hpos := rfl
@[simp] theorem beginWait_vline (s : State) : (beginWait s).vline = s.vline := rfl
@[simp] theorem beginWait_irqEn (s : State) : (beginWait s).irqEn = s.irqEn := rfl
@[simp] theorem beginWait_fbPending (s : State) : (beginWait s).fbPending = s.fbPending := rfl
@[simp] theorem beginWait_inService (s : State) : (beginWait s).inService = s.inService := rfl
@[simp] theorem beginWait_cbEn (s : State) : (beginWait s).cbEn = s.cbEn := rfl
@[simp] theorem beginWait_waiting (s : State) : (beginWait s).waiting = true := rfl
@[simp] theorem beginWait_waitFc (s : State) : (beginWait s).waitFc = s.framecount := rfl
@[simp] theorem beginWait_hsync (s : State) : (beginWait s).hsync = s.hsync := rfl
@[simp] theorem beginWait_vsync (s : State) : (beginWait s).vsync = s.vsync := rfl
@[simp] theorem beginWait_pix (s : State) : (beginWait s).pix = s.pix := rfl
@[simp] theorem beginWait_fault (s : State) : (beginWait s).fault = s.fault := rfl
@[simp] theorem beginWait_refused (s : State) : (beginWait s).refused = s.refused := rfl
@[simp] theorem beginWait_mem (s : State) : (beginWait s).mem = s.mem := rfl
@[simp] theorem beginWait_flushed (s : State) : (beginWait s).flushed = s.flushed := rfl
@[simp] theorem beginWait_fresh (s : State) : (beginWait s).fresh = s.fresh := rfl
@[simp] theorem beginWait_schedule (s : State) : (beginWait s).schedule = s.schedule := rfl
@[simp] theorem beginWait_draws (s : State) : (beginWait s).draws = s.draws := rfl
@[simp] theorem beginWait_obs (s : State) : (beginWait s).obs = s.obs := rfl

@[simp] theorem drivePins_mode (h v : Bool) (px : Nibble) (s : State) : (drivePins h v px s).mode = s.mode := rfl
@[simp] theorem drivePins_argPtr (h v : Bool) (px : Nibble) (s : State) : (drivePins h v px s).argPtr = s.argPtr := rfl
@[simp] theorem drivePins_argPitch (h v : Bool) (px : Nibble) (s : State) : (drivePins h v px s).argPitch = s.argPitch := rfl
@[simp] theorem drivePins_runstate (h v : Bool) (px : Nibble) (s : State) : (drivePins h v px s).runstate = s.runstate := rfl
@[simp] theorem drivePins_haltCause (h v : Bool) (px : Nibble) (s : State) : (drivePins h v px s).haltCause = s.haltCause := rfl
@[simp] theorem drivePins_framecount (h v : Bool) (px : Nibble) (s : State) : (drivePins h v px s).framecount = s.framecount := rfl
@[simp] theorem drivePins_curPtr (h v : Bool) (px : Nibble) (s : State) : (drivePins h v px s).curPtr = s.curPtr := rfl
@[simp] theorem drivePins_curPitch (h v : Bool) (px : Nibble) (s : State) : (drivePins h v px s).curPitch = s.curPitch := rfl
@[simp] theorem drivePins_nextPtr (h v : Bool) (px : Nibble) (s : State) : (drivePins h v px s).nextPtr = s.nextPtr := rfl
@[simp] theorem drivePins_nextPitch (h v : Bool) (px : Nibble) (s : State) : (drivePins h v px s).nextPitch = s.nextPitch := rfl
@[simp] theorem drivePins_curG (h v : Bool) (px : Nibble) (s : State) : (drivePins h v px s).curG = s.curG := rfl
@[simp] theorem drivePins_nextG (h v : Bool) (px : Nibble) (s : State) : (drivePins h v px s).nextG = s.nextG := rfl
@[simp] theorem drivePins_armed (h v : Bool) (px : Nibble) (s : State) : (drivePins h v px s).armed = s.armed := rfl
@[simp] theorem drivePins_dmaEn (h v : Bool) (px : Nibble) (s : State) : (drivePins h v px s).dmaEn = s.dmaEn := rfl
@[simp] theorem drivePins_dmaLine (h v : Bool) (px : Nibble) (s : State) : (drivePins h v px s).dmaLine = s.dmaLine := rfl
@[simp] theorem drivePins_dmaOff (h v : Bool) (px : Nibble) (s : State) : (drivePins h v px s).dmaOff = s.dmaOff := rfl
@[simp] theorem drivePins_fq (h v : Bool) (px : Nibble) (s : State) : (drivePins h v px s).fq = s.fq := rfl
@[simp] theorem drivePins_curByte (h v : Bool) (px : Nibble) (s : State) : (drivePins h v px s).curByte = s.curByte := rfl
@[simp] theorem drivePins_curValid (h v : Bool) (px : Nibble) (s : State) : (drivePins h v px s).curValid = s.curValid := rfl
@[simp] theorem drivePins_hpos (h v : Bool) (px : Nibble) (s : State) : (drivePins h v px s).hpos = s.hpos := rfl
@[simp] theorem drivePins_vline (h v : Bool) (px : Nibble) (s : State) : (drivePins h v px s).vline = s.vline := rfl
@[simp] theorem drivePins_irqEn (h v : Bool) (px : Nibble) (s : State) : (drivePins h v px s).irqEn = s.irqEn := rfl
@[simp] theorem drivePins_fbPending (h v : Bool) (px : Nibble) (s : State) : (drivePins h v px s).fbPending = s.fbPending := rfl
@[simp] theorem drivePins_inService (h v : Bool) (px : Nibble) (s : State) : (drivePins h v px s).inService = s.inService := rfl
@[simp] theorem drivePins_cbEn (h v : Bool) (px : Nibble) (s : State) : (drivePins h v px s).cbEn = s.cbEn := rfl
@[simp] theorem drivePins_waiting (h v : Bool) (px : Nibble) (s : State) : (drivePins h v px s).waiting = s.waiting := rfl
@[simp] theorem drivePins_waitFc (h v : Bool) (px : Nibble) (s : State) : (drivePins h v px s).waitFc = s.waitFc := rfl
@[simp] theorem drivePins_hsync (h v : Bool) (px : Nibble) (s : State) : (drivePins h v px s).hsync = h := rfl
@[simp] theorem drivePins_vsync (h v : Bool) (px : Nibble) (s : State) : (drivePins h v px s).vsync = v := rfl
@[simp] theorem drivePins_pix (h v : Bool) (px : Nibble) (s : State) : (drivePins h v px s).pix = px := rfl
@[simp] theorem drivePins_fault (h v : Bool) (px : Nibble) (s : State) : (drivePins h v px s).fault = s.fault := rfl
@[simp] theorem drivePins_refused (h v : Bool) (px : Nibble) (s : State) : (drivePins h v px s).refused = s.refused := rfl
@[simp] theorem drivePins_mem (h v : Bool) (px : Nibble) (s : State) : (drivePins h v px s).mem = s.mem := rfl
@[simp] theorem drivePins_flushed (h v : Bool) (px : Nibble) (s : State) : (drivePins h v px s).flushed = s.flushed := rfl
@[simp] theorem drivePins_fresh (h v : Bool) (px : Nibble) (s : State) : (drivePins h v px s).fresh = s.fresh := rfl
@[simp] theorem drivePins_schedule (h v : Bool) (px : Nibble) (s : State) : (drivePins h v px s).schedule = s.schedule := rfl
@[simp] theorem drivePins_draws (h v : Bool) (px : Nibble) (s : State) : (drivePins h v px s).draws = s.draws := rfl
@[simp] theorem drivePins_obs (h v : Bool) (px : Nibble) (s : State) : (drivePins h v px s).obs = .sample h v px :: s.obs := rfl

end Sys2Proof.Machine
end

