-- ==== Sys2Proof/Laws/Memory.lean ====
section
/-! SUPPORT. The framebuffer memory: read after write, and every memory operation keeps the canonical
form. -/

namespace Sys2Proof.Machine

theorem Memory.read_nil (a : Nat) : Memory.read [] a = Memory.unlisted := rfl

theorem Memory.read_cons (c : Host.Cell) (rest : List Host.Cell) (a : Nat) :
    Memory.read (c :: rest) a = if a = c.1 then c.2 else Memory.read rest a := rfl

/-- An address below every listed one is unlisted. -/
theorem Memory.read_of_lt {m : List Host.Cell} {a : Nat} (h : ∀ c ∈ m, a < c.1) :
    Memory.read m a = Memory.unlisted := by
  induction m with
  | nil => rfl
  | cons c rest ih =>
    have hc : a < c.1 := h c (by simp)
    rw [Memory.read_cons, if_neg (by omega)]
    exact ih (fun d hd => h d (by simp [hd]))

/-- A cell of the written memory is the written one or was there before. -/
theorem Memory.mem_write {m : List Host.Cell} {a : Nat} {b : Byte} {c : Host.Cell}
    (h : c ∈ Memory.write m a b) : c ∈ m ∨ (c = (a, b) ∧ b ≠ Memory.unlisted) := by
  induction m with
  | nil =>
    unfold Memory.write at h
    split at h <;> simp_all
  | cons d rest ih =>
    unfold Memory.write at h
    split_ifs at h <;> simp_all <;> tauto

/-- A write keeps the addresses strictly rising. -/
theorem Memory.rising_write {m : List Host.Cell} (h : m.Pairwise (fun c d => c.1 < d.1)) (a : Nat) (b : Byte) :
    (Memory.write m a b).Pairwise (fun c d => c.1 < d.1) := by
  induction m with
  | nil => unfold Memory.write; split <;> simp
  | cons d rest ih =>
    obtain ⟨hd, hr⟩ := List.pairwise_cons.mp h
    unfold Memory.write
    split_ifs with h1 h2 h3 h4
    · exact h
    · refine List.pairwise_cons.mpr ⟨fun c hc => ?_, h⟩
      obtain rfl | hc := List.mem_cons.mp hc
      · exact h1
      · exact lt_trans h1 (hd c hc)
    · exact hr
    · exact List.pairwise_cons.mpr ⟨fun c hc => by simpa [h3] using hd c hc, hr⟩
    · refine List.pairwise_cons.mpr ⟨fun c hc => ?_, ih hr⟩
      obtain hc | ⟨rfl, -⟩ := Memory.mem_write hc
      · exact hd c hc
      · show d.1 < a
        omega

/-- A write inside the address space keeps the canonical form. -/
theorem Memory.wf_write {m : List Host.Cell} (h : Memory.wf m) {a : Nat} (ha : a < 2 ^ 32) (b : Byte) :
    Memory.wf (Memory.write m a b) := by
  refine ⟨Memory.rising_write h.1 a b, fun c hc => ?_⟩
  obtain hc | ⟨rfl, hb⟩ := Memory.mem_write hc
  · exact h.2 c hc
  · exact ⟨hb, ha⟩

/-- A read of the written address gives the byte written; every other address reads as before. -/
theorem Memory.read_write {m : List Host.Cell} (h : m.Pairwise (fun c d => c.1 < d.1)) (a x : Nat) (b : Byte) :
    Memory.read (Memory.write m a b) x = if x = a then b else Memory.read m x := by
  induction m with
  | nil =>
    unfold Memory.write
    split_ifs <;> simp_all [Memory.read]
  | cons d rest ih =>
    obtain ⟨hd, hr⟩ := List.pairwise_cons.mp h
    have below : a ≤ d.1 → Memory.read rest a = Memory.unlisted :=
      fun hle => Memory.read_of_lt (fun c hc => lt_of_le_of_lt hle (hd c hc))
    have out : x < d.1 → Memory.read rest x = Memory.unlisted :=
      fun hlt => Memory.read_of_lt (fun c hc => lt_trans hlt (hd c hc))
    unfold Memory.write
    grind [Memory.read_cons]

/-- Settling the flushed stores keeps the canonical form. -/
theorem Memory.wf_settle {s : State} (h : Memory.wf s.mem) : Memory.wf (settle s).mem := by
  rw [settle_mem]
  generalize s.mem = m at h
  induction s.flushed generalizing m with
  | nil => exact h
  | cons w rest ih => exact ih _ (Memory.wf_write h w.addr.isLt w.byte)

/-- The memory right after reset is canonical. -/
theorem Memory.wf_reset : Memory.wf State.reset.mem := by decide

/-- Settling the flushed stores: the last one to an address decides what it reads as. -/
theorem Memory.read_foldl (l : List HostStore) {m : List Host.Cell}
    (h : m.Pairwise (fun c d => c.1 < d.1)) (a : Nat) :
    Memory.read (l.foldl (fun m w => Memory.write m w.addr.toNat w.byte) m) a =
      ((l.filter (fun w => w.addr.toNat == a)).map HostStore.byte).getLastD (Memory.read m a) := by
  induction l generalizing m with
  | nil => rfl
  | cons w rest ih =>
    rw [List.foldl_cons, ih (Memory.rising_write h _ _), Memory.read_write h]
    by_cases hw : w.addr.toNat = a
    · rw [List.filter_cons_of_pos (by simpa using hw), List.map_cons, List.getLastD_cons, if_pos hw.symm]
    · rw [List.filter_cons_of_neg (by simpa using hw), if_neg (Ne.symm hw)]

end Sys2Proof.Machine
end

