-- ==== Sys2Proof/Laws/Ops.lean ====
section
/-! SUPPORT. For each shared operation, once, everything it can do when it answers a next state: the
provers cite these instead of unfolding the operation. -/

namespace Sys2Proof.Machine

/-! ## Who can act -/

theorem timersOn_iff (s : State) : timersOn s = true ↔ TimersRun s := by
  unfold timersOn TimersRun; cases s.runstate <;> simp

theorem activeLine_iff (m : ModeRegs) (l : Nat) : activeLine m l = true ↔ m.va0 ≤ l ∧ l < m.va1 := by
  simp [activeLine]

theorem vaActive_iff (s : State) : vaActive s = true ↔ s.mode.va0 ≤ s.vline ∧ s.vline < s.mode.va1 :=
  activeLine_iff s.mode s.vline

theorem deActive_iff (s : State) : deActive s = true ↔ AtActivePixel s := by
  simp [deActive, vaActive, activeLine, haActive, AtActivePixel]

theorem unlessEnded_of_unmarked {s : State} (h : Unmarked s) (k : Host.Outcome State Fault Refusal) :
    unlessEnded s k = k := by
  unfold unlessEnded; rw [h.1, h.2]

theorem unlessEnded_next {s t : State} {k : Host.Outcome State Fault Refusal} :
    unlessEnded s k = .next t ↔ Unmarked s ∧ k = .next t := by
  unfold unlessEnded Unmarked
  cases hf : s.fault <;> cases hr : s.refused <;> simp

theorem whenEnabled_next {bar : Option NotEnabled} {s t : State} {k : Host.Outcome State Fault Refusal} :
    whenEnabled bar s k = .next t ↔ Unmarked s ∧ bar = none ∧ k = .next t := by
  unfold whenEnabled
  rw [unlessEnded_next]
  cases bar <;> simp

theorem hostBar_none {s : State} :
    hostBar s = none ↔ s.runstate ≠ .halted ∧ (s.waiting = true → s.inService = true) := by
  unfold hostBar
  split_ifs with h1 h2 <;> simp_all

theorem pixelBar_none {s : State} : pixelBar s = none ↔ TimersRun s ∧ ¬ PixelHeld s := by
  unfold pixelBar PixelHeld
  rw [← timersOn_iff, ← deActive_iff]
  split_ifs with h1 h2 <;> simp_all [column]

theorem dmaBar_none {s : State} :
    dmaBar s = none ↔ TimersRun s ∧ s.dmaEn = true ∧ s.fq.length + s.curG.bytes ≤ Config.fqCap := by
  unfold dmaBar
  rw [← timersOn_iff]
  split_ifs with h1 h2
  · simp only [Bool.not_eq_true', Bool.and_eq_false_iff] at h1
    simp only [false_iff]
    rintro ⟨h3, h4, -⟩
    simp [h3, h4] at h1
  · simp only [false_iff]; omega
  · simp only [Bool.not_eq_true', Bool.not_eq_false, Bool.and_eq_true] at h1
    simp only [true_iff]
    exact ⟨h1.1, h1.2, by omega⟩

theorem serviceBar_none {s : State} :
    serviceBar s = none ↔
      s.runstate = .running ∧ s.irqEn = true ∧ s.fbPending = true ∧ s.inService = false := by
  unfold serviceBar
  split_ifs with h <;> simp_all

theorem releaseBar_none {s : State} :
    releaseBar s = none ↔ TimersRun s ∧ s.waiting = true ∧ s.framecount ≠ s.waitFc := by
  unfold releaseBar
  rw [← timersOn_iff]
  split_ifs with h <;> simp_all

theorem hostStep_next {effect : State → State} {s t : State} :
    hostStep effect s = .next t ↔ HostCanAct s ∧ t = effect s := by
  unfold hostStep HostCanAct
  rw [whenEnabled_next, hostBar_none]
  constructor
  · rintro ⟨h1, h2, h3⟩
    exact ⟨⟨h1, h2⟩, (Host.Outcome.next.inj h3).symm⟩
  · rintro ⟨⟨h1, h2⟩, rfl⟩
    exact ⟨h1, h2, rfl⟩

theorem orPastAddressSpace_next {o : Option State} {t : State} :
    orPastAddressSpace o = .next t ↔ o = some t := by
  cases o <;> simp [orPastAddressSpace]

/-! ## The DMA reader and the frame interrupt -/

theorem dmaBody_some {s t : State} :
    dmaBody s = some t ↔
      dmaAddr s + s.curG.bytes ≤ 2 ^ 32 ∧
      t = dmaAdvance (emit (drawn (pushRead s)) (.dmaRd (dmaAddr s) s.curG.bytes)) := by
  unfold dmaBody
  split_ifs with h
  · exact ⟨fun e => (nomatch e), fun e => absurd e.1 (by omega)⟩
  · rw [Option.some.injEq]
    exact ⟨fun e => ⟨by omega, e.symm⟩, fun e => e.2.symm⟩

/-- Either the position moves on inside the line, or to the next line, where the chain may end. -/
theorem dmaAdvance_cases (s : State) :
    (s.dmaOff + s.curG.bytes ≠ s.mode.lb ∧ dmaAdvance s = { s with dmaOff := s.dmaOff + s.curG.bytes }) ∨
    (s.dmaOff + s.curG.bytes = s.mode.lb ∧
      dmaAdvance s = { s with
        dmaOff := 0
        dmaLine := s.dmaLine + 1
        dmaEn := s.dmaEn && !(s.dmaLine + 1 == s.mode.va.toNat) }) := by
  unfold dmaAdvance
  split_ifs with h
  · exact .inr ⟨h, rfl⟩
  · exact .inl ⟨h, rfl⟩

/-- The re-arm does nothing, or it reloads the descriptor and makes the first read. -/
theorem rearm_some {s t : State} :
    rearm s = some t ↔
      (s.armed = false ∧ t = s) ∨ (s.armed = true ∧ dmaBody (loadDescriptor s) = some t) := by
  unfold rearm
  cases s.armed
  · exact ⟨fun e => .inl ⟨rfl, (Option.some.inj e).symm⟩, fun e => by
      obtain ⟨-, rfl⟩ | ⟨h, -⟩ := e
      · rfl
      · cases h⟩
  · simp

/-- The service counts one frame after the re-arm, and either calls back or requests the flush. -/
theorem takeFrameInterrupt_some {s t : State} :
    takeFrameInterrupt s = some t ↔
      ∃ u, rearm (settle s) = some u ∧
        ((u.cbEn = true ∧ t = invokeCallback (countFrame u)) ∨
          (u.cbEn = false ∧ t = requestFlush (countFrame u))) := by
  unfold takeFrameInterrupt
  cases rearm (settle s) with
  | none => simp
  | some u =>
    constructor
    · intro e
      refine ⟨u, rfl, ?_⟩
      replace e := (Option.some.inj e).symm
      cases hu : u.cbEn <;> rw [hu] at e <;> simpa using e
    · rintro ⟨v, hv, h⟩
      cases hv
      obtain ⟨hu, rfl⟩ | ⟨hu, rfl⟩ := h <;> simp [hu]

/-- The frame event is lost, latched, or a fault. -/
theorem frameEvent_cases (s : State) :
    (s.irqEn = false ∧ frameEvent s = s) ∨
    (s.irqEn = true ∧ s.fbPending = false ∧ s.inService = false ∧ frameEvent s = { s with fbPending := true }) ∨
    (s.irqEn = true ∧ (s.fbPending = true ∨ s.inService = true) ∧
      frameEvent s = markFault .eventOverrun s) := by
  unfold frameEvent
  cases hi : s.irqEn <;> cases hp : s.fbPending <;> cases hs : s.inService <;> simp

/-! ## The timing generator -/

/-- The serializer rests, keeps its byte, loads one, or finds none; what it puts on PIX follows from the
byte it then holds. -/
theorem serialize_cases (s : State) :
    (¬ AtActivePixel s ∧ serialize s = (s, 0)) ∨
    (AtActivePixel s ∧ column s % 2 = 1 ∧ serialize s = shiftOut s) ∨
    (AtActivePixel s ∧ column s % 2 = 0 ∧ serialize s = shiftOut (loadByte s)) := by
  unfold serialize
  by_cases h : AtActivePixel s
  · rw [if_pos ((deActive_iff s).mpr h)]
    obtain h2 | h2 := Nat.mod_two_eq_zero_or_one (column s) <;> simp [h, h2]
  · rw [if_neg (fun e => h ((deActive_iff s).mp e))]
    exact .inl ⟨h, rfl⟩

/-- The position moves on inside the line; or the line ends without a frame event; or it ends with one,
where `va` falls. -/
theorem advance_cases (s : State) :
    (s.hpos + 1 < s.mode.ht ∧ advance s = moveTo s.vline (s.hpos + 1) s) ∨
    (s.mode.ht ≤ s.hpos + 1 ∧ vaFalls s = false ∧ advance s = moveTo (nextLine s.mode s.vline) 0 s) ∨
    (s.mode.ht ≤ s.hpos + 1 ∧ vaFalls s = true ∧
      advance s = moveTo (nextLine s.mode s.vline) 0 (frameEvent s)) := by
  unfold advance
  by_cases h : s.hpos + 1 < s.mode.ht
  · exact .inl ⟨h, by rw [if_pos h]⟩
  · have h' : s.mode.ht ≤ s.hpos + 1 := by omega
    rw [if_neg h]
    cases hv : vaFalls s <;> simp [h']

/-! ## One operation and one step -/

/-- An autonomous step answers a next state only where it is enabled. -/
theorem execPixel_next {s t : State} :
    execPixel s = .next t ↔ Unmarked s ∧ (TimersRun s ∧ ¬ PixelHeld s) ∧ t = pixelEffect s := by
  unfold execPixel
  rw [whenEnabled_next, pixelBar_none, Host.Outcome.next.injEq, @eq_comm _ t]

theorem execDmaRead_next {s t : State} :
    execDmaRead s = .next t ↔
      Unmarked s ∧ (TimersRun s ∧ s.dmaEn = true ∧ s.fq.length + s.curG.bytes ≤ Config.fqCap) ∧
        dmaBody s = some t := by
  unfold execDmaRead
  rw [whenEnabled_next, dmaBar_none, orPastAddressSpace_next]

theorem execServiceEnter_next {s t : State} :
    execServiceEnter s = .next t ↔
      Unmarked s ∧
      (s.runstate = .running ∧ s.irqEn = true ∧ s.fbPending = true ∧ s.inService = false) ∧
      ((vaActive s = true ∧ t = markFault .lateService s) ∨
        (vaActive s = false ∧ takeFrameInterrupt s = some t)) := by
  unfold execServiceEnter
  rw [whenEnabled_next, serviceBar_none]
  cases vaActive s <;> simp [orPastAddressSpace_next, @eq_comm _ t]

theorem execWaitRelease_next {s t : State} :
    execWaitRelease s = .next t ↔
      Unmarked s ∧ (TimersRun s ∧ s.waiting = true ∧ s.framecount ≠ s.waitFc) ∧
        t = { s with waiting := false } := by
  unfold execWaitRelease
  rw [whenEnabled_next, releaseBar_none, Host.Outcome.next.injEq, @eq_comm _ t]

/-- What a host operation does to the state, by constructor; the autonomous steps are listed as doing
nothing here. -/
def hostEffect : Instr → State → State
  | .nop, s => nopEffect s
  | .configure, s => configureEffect s
  | .setNextBuffer wait, s => setNextBufferEffect wait s
  | .stop, s => stopEffect s
  | .registerCallback enable, s => registerCallbackEffect enable s
  | .eoi, s => eoiEffect s
  | .wr n v, s => wrEffect n v s
  | .rd n, s => rdEffect n s
  | .pixel, s => s
  | .dmaRead, s => s
  | .serviceEnter, s => s
  | .waitRelease, s => s
  | .hwReset, s => s

/-- Every host operation is its effect under the one enabling condition of the host. -/
theorem exec_hostOp {i : Instr} (h : isHostOp i = true) (s : State) : exec i s = hostStep (hostEffect i) s := by
  cases i <;> first | rfl | simp [isHostOp] at h

theorem exec_hostOp_next {i : Instr} (h : isHostOp i = true) {s t : State} :
    exec i s = .next t ↔ HostCanAct s ∧ t = hostEffect i s := by
  rw [exec_hostOp h, hostStep_next]

/-- A passed-over event leaves the state; everything else is the outcome itself. -/
theorem passOver_next {s t : State} {o : Host.Outcome State Fault Refusal} :
    passOver s o = .next t ↔ o = .next t ∨ (t = s ∧ ∃ why, o = .refused (.notEnabled why)) := by
  cases o with
  | next u => simp [passOver]
  | fault r => simp [passOver]
  | refused r => cases r <;> simp [passOver, @eq_comm _ s]

/-- What running an input can do when it answers a next state. -/
theorem runInput_cases {x : Input} {s t : State} (h : runInput x s = .next t) :
    (∃ i, decode x = .ok i ∧ exec i s = .next t) ∨
    (HostCanAct s ∧ t = refuse .reservedCommand s) ∨ t = s := by
  unfold runInput at h
  cases hd : decode x with
  | ok i =>
    rw [hd] at h
    obtain h | ⟨h, -⟩ := passOver_next.mp h
    · exact .inl ⟨i, rfl, h⟩
    · exact .inr (.inr h)
  | error r =>
    rw [hd] at h
    obtain h | ⟨h, -⟩ := passOver_next.mp h
    · exact .inr (.inl (hostStep_next.mp h))
    · exact .inr (.inr h)

/-- What a free step can do when it answers a next state. -/
theorem freeStep_cases {s t : State} (h : freeStep s = .next t) :
    (∃ a, a ∈ agents ∧ exec (autoInstr a) (drawn s) = .next t) ∨ t = s := by
  unfold freeStep at h
  obtain ⟨-, h⟩ := unlessEnded_next.mp h
  split at h
  · exact .inr (Host.Outcome.next.inj h).symm
  · rename_i a rest ha
    refine .inl ⟨_, ?_, h⟩
    have hmem : ∀ b ∈ a :: rest, b ∈ agents := fun b hb =>
      (List.mem_filter.mp (show b ∈ enabledAgents s from ha ▸ hb)).1
    have hlt : Config.agentChoice s.draws % (a :: rest).length < (a :: rest).length :=
      Nat.mod_lt _ (by simp)
    rw [List.getD_eq_getElem _ _ hlt]
    exact hmem _ (List.getElem_mem hlt)

/-- What one step can do when it answers a next state: perform one operation (from the state whose
schedule has moved on, or whose draw counter has), refuse a reserved command word, take a host store, or
leave everything but the schedule as it was. -/
theorem step_cases {s t : State} (h : step s = .next t) :
    (∃ e rest i, s.schedule = .input e :: rest ∧ decode e = .ok i ∧
      exec i (afterEvent rest s) = .next t) ∨
    (∃ a, a ∈ agents ∧ s.schedule = [] ∧ exec (autoInstr a) (drawn s) = .next t) ∨
    (∃ rest, HostCanAct s ∧ t = refuse .reservedCommand (afterEvent rest s)) ∨
    (∃ a b rest, s.schedule = .hostStore a b :: rest ∧ t = hostStore a b (afterEvent rest s)) ∨
    (∃ rest, t = (afterEvent rest s)) := by
  unfold step nextStep at h
  split at h
  · rename_i hs
    obtain ⟨a, ha, he⟩ | rfl := freeStep_cases h
    · exact .inr (.inl ⟨a, ha, hs, he⟩)
    · exact .inr (.inr (.inr (.inr ⟨t.schedule, rfl⟩)))
  · rename_i e rest hs
    cases e with
    | hostStore a b =>
      exact .inr (.inr (.inr (.inl ⟨a, b, rest, hs, (Host.Outcome.next.inj (unlessEnded_next.mp h).2).symm⟩)))
    | input x =>
      obtain ⟨i, hi, he⟩ | ⟨hc, ht⟩ | rfl := runInput_cases h
      · exact .inl ⟨x, rest, i, hs, hi, he⟩
      · exact .inr (.inr (.inl ⟨rest, hc, ht⟩))
      · exact .inr (.inr (.inr (.inr ⟨rest, rfl⟩)))

end Sys2Proof.Machine
end

