-- ==== Sys2Proof/Laws/Auto.lean ====
section
/-! SUPPORT. The autonomous steps, field by field: what PIXEL and DMA_READ leave alone and what they put
where, so that no proof unfolds the serializer, the advance or the DMA position. -/

namespace Sys2Proof.Machine

/-! ## The DMA position -/

/-- The DMA position as one record: everything the end-of-line test decides (R68). -/
theorem dmaAdvance_eq (s : State) :
    dmaAdvance s =
      { s with
        dmaOff := if s.dmaOff + s.curG.bytes = s.mode.lb then 0 else s.dmaOff + s.curG.bytes
        dmaLine := if s.dmaOff + s.curG.bytes = s.mode.lb then s.dmaLine + 1 else s.dmaLine
        dmaEn := if s.dmaOff + s.curG.bytes = s.mode.lb then s.dmaEn && !(s.dmaLine + 1 == s.mode.va.toNat)
          else s.dmaEn } := by
  unfold dmaAdvance
  split_ifs <;> rfl

@[simp] theorem dmaAdvance_mode (s : State) : (dmaAdvance s).mode = s.mode := by
  unfold dmaAdvance; split <;> rfl
@[simp] theorem dmaAdvance_argPtr (s : State) : (dmaAdvance s).argPtr = s.argPtr := by
  unfold dmaAdvance; split <;> rfl
@[simp] theorem dmaAdvance_argPitch (s : State) : (dmaAdvance s).argPitch = s.argPitch := by
  unfold dmaAdvance; split <;> rfl
@[simp] theorem dmaAdvance_runstate (s : State) : (dmaAdvance s).runstate = s.runstate := by
  unfold dmaAdvance; split <;> rfl
@[simp] theorem dmaAdvance_haltCause (s : State) : (dmaAdvance s).haltCause = s.haltCause := by
  unfold dmaAdvance; split <;> rfl
@[simp] theorem dmaAdvance_framecount (s : State) : (dmaAdvance s).framecount = s.framecount := by
  unfold dmaAdvance; split <;> rfl
@[simp] theorem dmaAdvance_curPtr (s : State) : (dmaAdvance s).curPtr = s.curPtr := by
  unfold dmaAdvance; split <;> rfl
@[simp] theorem dmaAdvance_curPitch (s : State) : (dmaAdvance s).curPitch = s.curPitch := by
  unfold dmaAdvance; split <;> rfl
@[simp] theorem dmaAdvance_nextPtr (s : State) : (dmaAdvance s).nextPtr = s.nextPtr := by
  unfold dmaAdvance; split <;> rfl
@[simp] theorem dmaAdvance_nextPitch (s : State) : (dmaAdvance s).nextPitch = s.nextPitch := by
  unfold dmaAdvance; split <;> rfl
@[simp] theorem dmaAdvance_curG (s : State) : (dmaAdvance s).curG = s.curG := by
  unfold dmaAdvance; split <;> rfl
@[simp] theorem dmaAdvance_nextG (s : State) : (dmaAdvance s).nextG = s.nextG := by
  unfold dmaAdvance; split <;> rfl
@[simp] theorem dmaAdvance_armed (s : State) : (dmaAdvance s).armed = s.armed := by
  unfold dmaAdvance; split <;> rfl
@[simp] theorem dmaAdvance_fq (s : State) : (dmaAdvance s).fq = s.fq := by
  unfold dmaAdvance; split <;> rfl
@[simp] theorem dmaAdvance_curByte (s : State) : (dmaAdvance s).curByte = s.curByte := by
  unfold dmaAdvance; split <;> rfl
@[simp] theorem dmaAdvance_curValid (s : State) : (dmaAdvance s).curValid = s.curValid := by
  unfold dmaAdvance; split <;> rfl
@[simp] theorem dmaAdvance_hpos (s : State) : (dmaAdvance s).hpos = s.hpos := by
  unfold dmaAdvance; split <;> rfl
@[simp] theorem dmaAdvance_vline (s : State) : (dmaAdvance s).vline = s.vline := by
  unfold dmaAdvance; split <;> rfl
@[simp] theorem dmaAdvance_irqEn (s : State) : (dmaAdvance s).irqEn = s.irqEn := by
  unfold dmaAdvance; split <;> rfl
@[simp] theorem dmaAdvance_fbPending (s : State) : (dmaAdvance s).fbPending = s.fbPending := by
  unfold dmaAdvance; split <;> rfl
@[simp] theorem dmaAdvance_inService (s : State) : (dmaAdvance s).inService = s.inService := by
  unfold dmaAdvance; split <;> rfl
@[simp] theorem dmaAdvance_cbEn (s : State) : (dmaAdvance s).cbEn = s.cbEn := by
  unfold dmaAdvance; split <;> rfl
@[simp] theorem dmaAdvance_waiting (s : State) : (dmaAdvance s).waiting = s.waiting := by
  unfold dmaAdvance; split <;> rfl
@[simp] theorem dmaAdvance_waitFc (s : State) : (dmaAdvance s).waitFc = s.waitFc := by
  unfold dmaAdvance; split <;> rfl
@[simp] theorem dmaAdvance_hsync (s : State) : (dmaAdvance s).hsync = s.hsync := by
  unfold dmaAdvance; split <;> rfl
@[simp] theorem dmaAdvance_vsync (s : State) : (dmaAdvance s).vsync = s.vsync := by
  unfold dmaAdvance; split <;> rfl
@[simp] theorem dmaAdvance_pix (s : State) : (dmaAdvance s).pix = s.pix := by
  unfold dmaAdvance; split <;> rfl
@[simp] theorem dmaAdvance_fault (s : State) : (dmaAdvance s).fault = s.fault := by
  unfold dmaAdvance; split <;> rfl
@[simp] theorem dmaAdvance_refused (s : State) : (dmaAdvance s).refused = s.refused := by
  unfold dmaAdvance; split <;> rfl
@[simp] theorem dmaAdvance_mem (s : State) : (dmaAdvance s).mem = s.mem := by
  unfold dmaAdvance; split <;> rfl
@[simp] theorem dmaAdvance_flushed (s : State) : (dmaAdvance s).flushed = s.flushed := by
  unfold dmaAdvance; split <;> rfl
@[simp] theorem dmaAdvance_fresh (s : State) : (dmaAdvance s).fresh = s.fresh := by
  unfold dmaAdvance; split <;> rfl
@[simp] theorem dmaAdvance_schedule (s : State) : (dmaAdvance s).schedule = s.schedule := by
  unfold dmaAdvance; split <;> rfl
@[simp] theorem dmaAdvance_draws (s : State) : (dmaAdvance s).draws = s.draws := by
  unfold dmaAdvance; split <;> rfl
@[simp] theorem dmaAdvance_obs (s : State) : (dmaAdvance s).obs = s.obs := by
  unfold dmaAdvance; split <;> rfl

/-! ## The frame interrupt -/

/-- The manual trigger reads from the start of the new buffer (R74). -/
theorem dmaAddr_loadDescriptor (s : State) : dmaAddr (loadDescriptor s) = s.nextPtr.toNat := by
  simp [dmaAddr]

/-- The state the first read of a frame leaves, from the state before the descriptor reload (R74). -/
def firstRead (s : State) : State :=
  { s with
    curPtr := s.nextPtr
    curPitch := s.nextPitch
    curG := s.nextG
    fq := (List.range s.nextG.bytes).map (fun i => readByte s (s.nextPtr.toNat + i))
    obs := .dmaRd s.nextPtr.toNat s.nextG.bytes :: s.obs
    draws := s.draws + 1
    dmaOff := if s.nextG.bytes = s.mode.lb then 0 else s.nextG.bytes
    dmaLine := if s.nextG.bytes = s.mode.lb then 1 else 0
    dmaEn := if s.nextG.bytes = s.mode.lb then !(1 == s.mode.va.toNat) else true }

/-- Reload, re-enable and manual trigger make the first read of the queued buffer. -/
theorem dmaBody_loadDescriptor {s t : State} :
    dmaBody (loadDescriptor s) = some t ↔ s.nextPtr.toNat + s.nextG.bytes ≤ 2 ^ 32 ∧ t = firstRead s := by
  have h : dmaAdvance (emit (drawn (pushRead (loadDescriptor s)))
      (.dmaRd (dmaAddr (loadDescriptor s)) (loadDescriptor s).curG.bytes)) = firstRead s := by
    rw [dmaAdvance_eq, dmaAddr_loadDescriptor]
    unfold firstRead pushRead memRead
    rw [dmaAddr_loadDescriptor]
    simp only [emit_dmaOff, drawn_dmaOff, emit_dmaLine, drawn_dmaLine, emit_dmaEn, drawn_dmaEn,
      loadDescriptor_dmaOff, loadDescriptor_dmaLine, loadDescriptor_dmaEn, emit_curG, drawn_curG,
      loadDescriptor_curG, emit_mode, drawn_mode, loadDescriptor_mode, Nat.zero_add, Bool.true_and]
    rfl
  rw [dmaBody_some, h, dmaAddr_loadDescriptor, loadDescriptor_curG]

/-- Taking the frame interrupt: the flushed stores settle, an armed buffer gets its first read, the frame is
counted, and the callback is invoked or the flush requested. -/
theorem takeFrameInterrupt_cases {s t : State} (h : takeFrameInterrupt s = some t) :
    ∃ u, ((s.armed = false ∧ u = settle s) ∨
        (s.armed = true ∧ s.nextPtr.toNat + s.nextG.bytes ≤ 2 ^ 32 ∧ u = firstRead (settle s))) ∧
      ((s.cbEn = true ∧ t = invokeCallback (countFrame u)) ∨
        (s.cbEn = false ∧ t = requestFlush (countFrame u))) := by
  obtain ⟨u, hu, h⟩ := takeFrameInterrupt_some.mp h
  obtain ⟨ha, rfl⟩ | ⟨ha, hu⟩ := rearm_some.mp hu
  · exact ⟨_, .inl ⟨ha, rfl⟩, h⟩
  · obtain ⟨h1, rfl⟩ := dmaBody_loadDescriptor.mp hu
    exact ⟨_, .inr ⟨ha, h1, rfl⟩, h⟩

/-! ## The frame event -/

@[simp] theorem frameEvent_mode (s : State) : (frameEvent s).mode = s.mode := by
  unfold frameEvent; split_ifs <;> rfl
@[simp] theorem frameEvent_argPtr (s : State) : (frameEvent s).argPtr = s.argPtr := by
  unfold frameEvent; split_ifs <;> rfl
@[simp] theorem frameEvent_argPitch (s : State) : (frameEvent s).argPitch = s.argPitch := by
  unfold frameEvent; split_ifs <;> rfl
@[simp] theorem frameEvent_runstate (s : State) : (frameEvent s).runstate = s.runstate := by
  unfold frameEvent; split_ifs <;> rfl
@[simp] theorem frameEvent_haltCause (s : State) : (frameEvent s).haltCause = s.haltCause := by
  unfold frameEvent; split_ifs <;> rfl
@[simp] theorem frameEvent_framecount (s : State) : (frameEvent s).framecount = s.framecount := by
  unfold frameEvent; split_ifs <;> rfl
@[simp] theorem frameEvent_curPtr (s : State) : (frameEvent s).curPtr = s.curPtr := by
  unfold frameEvent; split_ifs <;> rfl
@[simp] theorem frameEvent_curPitch (s : State) : (frameEvent s).curPitch = s.curPitch := by
  unfold frameEvent; split_ifs <;> rfl
@[simp] theorem frameEvent_nextPtr (s : State) : (frameEvent s).nextPtr = s.nextPtr := by
  unfold frameEvent; split_ifs <;> rfl
@[simp] theorem frameEvent_nextPitch (s : State) : (frameEvent s).nextPitch = s.nextPitch := by
  unfold frameEvent; split_ifs <;> rfl
@[simp] theorem frameEvent_curG (s : State) : (frameEvent s).curG = s.curG := by
  unfold frameEvent; split_ifs <;> rfl
@[simp] theorem frameEvent_nextG (s : State) : (frameEvent s).nextG = s.nextG := by
  unfold frameEvent; split_ifs <;> rfl
@[simp] theorem frameEvent_armed (s : State) : (frameEvent s).armed = s.armed := by
  unfold frameEvent; split_ifs <;> rfl
@[simp] theorem frameEvent_dmaEn (s : State) : (frameEvent s).dmaEn = s.dmaEn := by
  unfold frameEvent; split_ifs <;> rfl
@[simp] theorem frameEvent_dmaLine (s : State) : (frameEvent s).dmaLine = s.dmaLine := by
  unfold frameEvent; split_ifs <;> rfl
@[simp] theorem frameEvent_dmaOff (s : State) : (frameEvent s).dmaOff = s.dmaOff := by
  unfold frameEvent; split_ifs <;> rfl
@[simp] theorem frameEvent_fq (s : State) : (frameEvent s).fq = s.fq := by
  unfold frameEvent; split_ifs <;> rfl
@[simp] theorem frameEvent_curByte (s : State) : (frameEvent s).curByte = s.curByte := by
  unfold frameEvent; split_ifs <;> rfl
@[simp] theorem frameEvent_curValid (s : State) : (frameEvent s).curValid = s.curValid := by
  unfold frameEvent; split_ifs <;> rfl
@[simp] theorem frameEvent_hpos (s : State) : (frameEvent s).hpos = s.hpos := by
  unfold frameEvent; split_ifs <;> rfl
@[simp] theorem frameEvent_vline (s : State) : (frameEvent s).vline = s.vline := by
  unfold frameEvent; split_ifs <;> rfl
@[simp] theorem frameEvent_irqEn (s : State) : (frameEvent s).irqEn = s.irqEn := by
  unfold frameEvent; split_ifs <;> rfl
@[simp] theorem frameEvent_inService (s : State) : (frameEvent s).inService = s.inService := by
  unfold frameEvent; split_ifs <;> rfl
@[simp] theorem frameEvent_cbEn (s : State) : (frameEvent s).cbEn = s.cbEn := by
  unfold frameEvent; split_ifs <;> rfl
@[simp] theorem frameEvent_waiting (s : State) : (frameEvent s).waiting = s.waiting := by
  unfold frameEvent; split_ifs <;> rfl
@[simp] theorem frameEvent_waitFc (s : State) : (frameEvent s).waitFc = s.waitFc := by
  unfold frameEvent; split_ifs <;> rfl
@[simp] theorem frameEvent_hsync (s : State) : (frameEvent s).hsync = s.hsync := by
  unfold frameEvent; split_ifs <;> rfl
@[simp] theorem frameEvent_vsync (s : State) : (frameEvent s).vsync = s.vsync := by
  unfold frameEvent; split_ifs <;> rfl
@[simp] theorem frameEvent_pix (s : State) : (frameEvent s).pix = s.pix := by
  unfold frameEvent; split_ifs <;> rfl
@[simp] theorem frameEvent_refused (s : State) : (frameEvent s).refused = s.refused := by
  unfold frameEvent; split_ifs <;> rfl
@[simp] theorem frameEvent_mem (s : State) : (frameEvent s).mem = s.mem := by
  unfold frameEvent; split_ifs <;> rfl
@[simp] theorem frameEvent_flushed (s : State) : (frameEvent s).flushed = s.flushed := by
  unfold frameEvent; split_ifs <;> rfl
@[simp] theorem frameEvent_fresh (s : State) : (frameEvent s).fresh = s.fresh := by
  unfold frameEvent; split_ifs <;> rfl
@[simp] theorem frameEvent_schedule (s : State) : (frameEvent s).schedule = s.schedule := by
  unfold frameEvent; split_ifs <;> rfl
@[simp] theorem frameEvent_draws (s : State) : (frameEvent s).draws = s.draws := by
  unfold frameEvent; split_ifs <;> rfl
@[simp] theorem frameEvent_obs (s : State) : (frameEvent s).obs = s.obs := by
  unfold frameEvent; split_ifs <;> rfl

/-! ## The advance -/

/-- The advance of the position changes the position and what a frame event changes. -/
theorem advance_frame (s : State) :
    advance s =
      { s with
        hpos := (advance s).hpos
        vline := (advance s).vline
        fbPending := (advance s).fbPending
        fault := (advance s).fault } := by
  obtain ⟨-, e⟩ | ⟨-, -, e⟩ | ⟨-, -, e⟩ := advance_cases s
  · rw [e]; rfl
  · rw [e]; rfl
  · rw [e]
    obtain ⟨-, e'⟩ | ⟨-, -, -, e'⟩ | ⟨-, -, e'⟩ := frameEvent_cases s <;> rw [e'] <;> rfl

theorem advance_hpos (s : State) :
    (advance s).hpos = if s.hpos + 1 < s.mode.ht then s.hpos + 1 else 0 := by
  obtain ⟨h, e⟩ | ⟨h, -, e⟩ | ⟨h, -, e⟩ := advance_cases s <;> rw [e] <;> simp [moveTo_hpos] <;> omega

theorem advance_vline (s : State) :
    (advance s).vline = if s.hpos + 1 < s.mode.ht then s.vline else nextLine s.mode s.vline := by
  obtain ⟨h, e⟩ | ⟨h, -, e⟩ | ⟨h, -, e⟩ := advance_cases s <;> rw [e] <;> simp [moveTo_vline] <;> omega

/-- The one step of a frame in which `va` falls (R62). -/
def frameEnds (s : State) : Prop := s.mode.ht ≤ s.hpos + 1 ∧ vaFalls s = true

theorem advance_event {s : State} (h : frameEnds s) :
    (advance s).fbPending = (frameEvent s).fbPending ∧ (advance s).fault = (frameEvent s).fault := by
  obtain ⟨hl, -⟩ | ⟨-, hv, -⟩ | ⟨-, -, e⟩ := advance_cases s
  · exact absurd h.1 (by omega)
  · exact absurd h.2 (by simp [hv])
  · rw [e]; exact ⟨rfl, rfl⟩

theorem advance_noEvent {s : State} (h : ¬ frameEnds s) :
    (advance s).fbPending = s.fbPending ∧ (advance s).fault = s.fault := by
  obtain ⟨-, e⟩ | ⟨-, -, e⟩ | ⟨hl, hv, -⟩ := advance_cases s
  · rw [e]; exact ⟨rfl, rfl⟩
  · rw [e]; exact ⟨rfl, rfl⟩
  · exact absurd ⟨hl, hv⟩ h

/-! ## The serializer -/

/-- The serializer changes the queue, the current byte and the draw counter only. -/
theorem serialize_frame (s : State) :
    (serialize s).1 =
      { s with
        fq := (serialize s).1.fq
        curByte := (serialize s).1.curByte
        curValid := (serialize s).1.curValid
        draws := (serialize s).1.draws } := by
  unfold serialize shiftOut loadByte
  split_ifs <;> (try split) <;> rfl

/-- Outside the active region nothing is taken and PIX is 0 (R61). -/
theorem serialize_blank {s : State} (h : ¬ AtActivePixel s) : serialize s = (s, 0) := by
  obtain ⟨-, e⟩ | ⟨ha, -⟩ | ⟨ha, -⟩ := serialize_cases s
  · exact e
  · exact absurd ha h
  · exact absurd ha h

theorem serialize_even {s : State} (h : AtActivePixel s) (hx : column s % 2 = 0) :
    serialize s = shiftOut (loadByte s) := by
  obtain ⟨ha, -⟩ | ⟨-, h1, -⟩ | ⟨-, -, e⟩ := serialize_cases s
  · exact absurd h ha
  · omega
  · exact e

theorem serialize_odd {s : State} (h : AtActivePixel s) (hx : column s % 2 = 1) :
    serialize s = shiftOut s := by
  obtain ⟨ha, -⟩ | ⟨-, -, e⟩ | ⟨-, h1, -⟩ := serialize_cases s
  · exact absurd h ha
  · exact e
  · omega

/-! ## PIXEL -/

/-- The state the advance of PIXEL starts from. -/
def beforeAdvance (s : State) : State :=
  drivePins (syncLevel (hsActive s) s.mode.hpol) (syncLevel (vsActive s) s.mode.vpol) (serialize s).2
    (serialize s).1

theorem pixelEffect_eq (s : State) : pixelEffect s = advance (beforeAdvance s) := rfl

/-- Before the advance: the state with the serializer's fields, the pins and the sample. -/
theorem beforeAdvance_frame (s : State) :
    beforeAdvance s =
      { s with
        fq := (serialize s).1.fq
        curByte := (serialize s).1.curByte
        curValid := (serialize s).1.curValid
        draws := (serialize s).1.draws
        hsync := syncLevel (hsActive s) s.mode.hpol
        vsync := syncLevel (vsActive s) s.mode.vpol
        pix := (serialize s).2
        obs := .sample (syncLevel (hsActive s) s.mode.hpol) (syncLevel (vsActive s) s.mode.vpol)
          (serialize s).2 :: s.obs } := by
  unfold beforeAdvance
  rw [serialize_frame]
  rfl

/-- PIXEL as one record: everything it writes (R52). -/
theorem pixelEffect_frame (s : State) :
    pixelEffect s =
      { s with
        hpos := (pixelEffect s).hpos
        vline := (pixelEffect s).vline
        fbPending := (pixelEffect s).fbPending
        fault := (pixelEffect s).fault
        fq := (serialize s).1.fq
        curByte := (serialize s).1.curByte
        curValid := (serialize s).1.curValid
        draws := (serialize s).1.draws
        hsync := syncLevel (hsActive s) s.mode.hpol
        vsync := syncLevel (vsActive s) s.mode.vpol
        pix := (serialize s).2
        obs := .sample (syncLevel (hsActive s) s.mode.hpol) (syncLevel (vsActive s) s.mode.vpol)
          (serialize s).2 :: s.obs } := by
  rw [pixelEffect_eq, advance_frame, beforeAdvance_frame]

@[simp] theorem pixelEffect_mode (s : State) : (pixelEffect s).mode = s.mode := by
  rw [pixelEffect_frame]
@[simp] theorem pixelEffect_argPtr (s : State) : (pixelEffect s).argPtr = s.argPtr := by
  rw [pixelEffect_frame]
@[simp] theorem pixelEffect_argPitch (s : State) : (pixelEffect s).argPitch = s.argPitch := by
  rw [pixelEffect_frame]
@[simp] theorem pixelEffect_runstate (s : State) : (pixelEffect s).runstate = s.runstate := by
  rw [pixelEffect_frame]
@[simp] theorem pixelEffect_haltCause (s : State) : (pixelEffect s).haltCause = s.haltCause := by
  rw [pixelEffect_frame]
@[simp] theorem pixelEffect_framecount (s : State) : (pixelEffect s).framecount = s.framecount := by
  rw [pixelEffect_frame]
@[simp] theorem pixelEffect_curPtr (s : State) : (pixelEffect s).curPtr = s.curPtr := by
  rw [pixelEffect_frame]
@[simp] theorem pixelEffect_curPitch (s : State) : (pixelEffect s).curPitch = s.curPitch := by
  rw [pixelEffect_frame]
@[simp] theorem pixelEffect_nextPtr (s : State) : (pixelEffect s).nextPtr = s.nextPtr := by
  rw [pixelEffect_frame]
@[simp] theorem pixelEffect_nextPitch (s : State) : (pixelEffect s).nextPitch = s.nextPitch := by
  rw [pixelEffect_frame]
@[simp] theorem pixelEffect_curG (s : State) : (pixelEffect s).curG = s.curG := by
  rw [pixelEffect_frame]
@[simp] theorem pixelEffect_nextG (s : State) : (pixelEffect s).nextG = s.nextG := by
  rw [pixelEffect_frame]
@[simp] theorem pixelEffect_armed (s : State) : (pixelEffect s).armed = s.armed := by
  rw [pixelEffect_frame]
@[simp] theorem pixelEffect_dmaEn (s : State) : (pixelEffect s).dmaEn = s.dmaEn := by
  rw [pixelEffect_frame]
@[simp] theorem pixelEffect_dmaLine (s : State) : (pixelEffect s).dmaLine = s.dmaLine := by
  rw [pixelEffect_frame]
@[simp] theorem pixelEffect_dmaOff (s : State) : (pixelEffect s).dmaOff = s.dmaOff := by
  rw [pixelEffect_frame]
@[simp] theorem pixelEffect_irqEn (s : State) : (pixelEffect s).irqEn = s.irqEn := by
  rw [pixelEffect_frame]
@[simp] theorem pixelEffect_inService (s : State) : (pixelEffect s).inService = s.inService := by
  rw [pixelEffect_frame]
@[simp] theorem pixelEffect_cbEn (s : State) : (pixelEffect s).cbEn = s.cbEn := by
  rw [pixelEffect_frame]
@[simp] theorem pixelEffect_waiting (s : State) : (pixelEffect s).waiting = s.waiting := by
  rw [pixelEffect_frame]
@[simp] theorem pixelEffect_waitFc (s : State) : (pixelEffect s).waitFc = s.waitFc := by
  rw [pixelEffect_frame]
@[simp] theorem pixelEffect_refused (s : State) : (pixelEffect s).refused = s.refused := by
  rw [pixelEffect_frame]
@[simp] theorem pixelEffect_mem (s : State) : (pixelEffect s).mem = s.mem := by
  rw [pixelEffect_frame]
@[simp] theorem pixelEffect_flushed (s : State) : (pixelEffect s).flushed = s.flushed := by
  rw [pixelEffect_frame]
@[simp] theorem pixelEffect_fresh (s : State) : (pixelEffect s).fresh = s.fresh := by
  rw [pixelEffect_frame]
@[simp] theorem pixelEffect_schedule (s : State) : (pixelEffect s).schedule = s.schedule := by
  rw [pixelEffect_frame]
theorem pixelEffect_fq (s : State) : (pixelEffect s).fq = (serialize s).1.fq := by
  rw [pixelEffect_frame]
theorem pixelEffect_curByte (s : State) : (pixelEffect s).curByte = (serialize s).1.curByte := by
  rw [pixelEffect_frame]
theorem pixelEffect_curValid (s : State) : (pixelEffect s).curValid = (serialize s).1.curValid := by
  rw [pixelEffect_frame]
theorem pixelEffect_draws (s : State) : (pixelEffect s).draws = (serialize s).1.draws := by
  rw [pixelEffect_frame]
theorem pixelEffect_hsync (s : State) : (pixelEffect s).hsync = syncLevel (hsActive s) s.mode.hpol := by
  rw [pixelEffect_frame]
theorem pixelEffect_vsync (s : State) : (pixelEffect s).vsync = syncLevel (vsActive s) s.mode.vpol := by
  rw [pixelEffect_frame]
theorem pixelEffect_pix (s : State) : (pixelEffect s).pix = (serialize s).2 := by
  rw [pixelEffect_frame]
theorem pixelEffect_obs (s : State) :
    (pixelEffect s).obs =
      .sample (syncLevel (hsActive s) s.mode.hpol) (syncLevel (vsActive s) s.mode.vpol) (serialize s).2
        :: s.obs := by
  rw [pixelEffect_frame]
theorem pixelEffect_hpos (s : State) :
    (pixelEffect s).hpos = if s.hpos + 1 < s.mode.ht then s.hpos + 1 else 0 := by
  rw [pixelEffect_eq, advance_hpos, beforeAdvance_frame]
theorem pixelEffect_vline (s : State) :
    (pixelEffect s).vline = if s.hpos + 1 < s.mode.ht then s.vline else nextLine s.mode s.vline := by
  rw [pixelEffect_eq, advance_vline, beforeAdvance_frame]

/-- Where `va` falls, PIXEL does to FB_PENDING and FAULT what the frame event does (R62, R72). -/
theorem pixelEffect_event {s : State} (h : frameEnds s) :
    (pixelEffect s).fbPending = (frameEvent s).fbPending ∧ (pixelEffect s).fault = (frameEvent s).fault := by
  have h' : frameEnds (beforeAdvance s) := by rw [beforeAdvance_frame]; exact h
  rw [pixelEffect_eq, (advance_event h').1, (advance_event h').2, beforeAdvance_frame]
  unfold frameEvent markFault
  split_ifs <;> exact ⟨rfl, rfl⟩

/-- Elsewhere PIXEL leaves both. -/
theorem pixelEffect_noEvent {s : State} (h : ¬ frameEnds s) :
    (pixelEffect s).fbPending = s.fbPending ∧ (pixelEffect s).fault = s.fault := by
  have h' : ¬ frameEnds (beforeAdvance s) := by rw [beforeAdvance_frame]; exact h
  rw [pixelEffect_eq, (advance_noEvent h').1, (advance_noEvent h').2, beforeAdvance_frame]
  exact ⟨rfl, rfl⟩

/-- The position PIXEL moves to. -/
theorem pixelEffect_position (s : State) :
    ((pixelEffect s).vline, (pixelEffect s).hpos) = nextPosition s.mode (s.vline, s.hpos) := by
  rw [pixelEffect_hpos, pixelEffect_vline]
  unfold nextPosition nextLine
  dsimp only
  split_ifs <;> rfl

/-! ## Every operation -/

/-- What one operation can do when it answers a next state. -/
theorem exec_cases {i : Instr} {s t : State} (h : exec i s = .next t) :
    (isHostOp i = true ∧ HostCanAct s ∧ t = hostEffect i s) ∨
    (i = .pixel ∧ Unmarked s ∧ TimersRun s ∧ ¬ PixelHeld s ∧ t = pixelEffect s) ∨
    (i = .dmaRead ∧ Unmarked s ∧ TimersRun s ∧ s.dmaEn = true ∧
      s.fq.length + s.curG.bytes ≤ Config.fqCap ∧ dmaBody s = some t) ∨
    (i = .serviceEnter ∧ Unmarked s ∧ s.runstate = .running ∧ s.irqEn = true ∧ s.fbPending = true ∧
      s.inService = false ∧ vaActive s = true ∧ t = markFault .lateService s) ∨
    (i = .serviceEnter ∧ Unmarked s ∧ s.runstate = .running ∧ s.irqEn = true ∧ s.fbPending = true ∧
      s.inService = false ∧ vaActive s = false ∧ takeFrameInterrupt s = some t) ∨
    (i = .waitRelease ∧ Unmarked s ∧ TimersRun s ∧ s.waiting = true ∧ s.framecount ≠ s.waitFc ∧
      t = { s with waiting := false }) ∨
    (i = .hwReset ∧ t = hwResetEffect s) := by
  by_cases hi : isHostOp i = true
  · obtain ⟨h1, h2⟩ := (exec_hostOp_next hi).mp h
    exact .inl ⟨hi, h1, h2⟩
  refine .inr ?_
  cases i with
  | pixel =>
    obtain ⟨hu, ⟨ht, hp⟩, e⟩ := execPixel_next.mp h
    exact .inl ⟨rfl, hu, ht, hp, e⟩
  | dmaRead =>
    obtain ⟨hu, ⟨ht, hd, hq⟩, e⟩ := execDmaRead_next.mp h
    exact .inr (.inl ⟨rfl, hu, ht, hd, hq, e⟩)
  | serviceEnter =>
    obtain ⟨hu, ⟨hr, hq, hp, hs⟩, ⟨hv, e⟩ | ⟨hv, e⟩⟩ := execServiceEnter_next.mp h
    · exact .inr (.inr (.inl ⟨rfl, hu, hr, hq, hp, hs, hv, e⟩))
    · exact .inr (.inr (.inr (.inl ⟨rfl, hu, hr, hq, hp, hs, hv, e⟩)))
  | waitRelease =>
    obtain ⟨hu, ⟨ht, hw, hf⟩, e⟩ := execWaitRelease_next.mp h
    exact .inr (.inr (.inr (.inr (.inl ⟨rfl, hu, ht, hw, hf, e⟩))))
  | hwReset => exact .inr (.inr (.inr (.inr (.inr ⟨rfl, (Host.Outcome.next.inj h).symm⟩))))
  | nop => exact absurd rfl hi
  | configure => exact absurd rfl hi
  | setNextBuffer wait => exact absurd rfl hi
  | stop => exact absurd rfl hi
  | registerCallback enable => exact absurd rfl hi
  | eoi => exact absurd rfl hi
  | wr n v => exact absurd rfl hi
  | rd n => exact absurd rfl hi

end Sys2Proof.Machine
end

