-- ==== Sys2Proof/Laws/Decode.lean ====
section
/-! SUPPORT. The command decoder read off the number of the word. -/

namespace Sys2Proof

theorem cmdRsv_eq_zero (w : Word) : cmdRsv w = 0 ↔ w.toNat < 512 := by
  rw [← BitVec.toNat_inj]
  have := w.isLt
  simp [cmdRsv, BitVec.extractLsb'_toNat, Nat.shiftRight_eq_div_pow]
  omega

theorem cmdOp_eq {k : Nat} (hk : k < 256) (w : Word) : cmdOp w = BitVec.ofNat 8 k ↔ w.toNat % 256 = k := by
  rw [← BitVec.toNat_inj]
  simp [cmdOp, BitVec.extractLsb'_toNat]
  omega

theorem cmdFlag_eq (w : Word) : cmdFlag w = decide (w.toNat / 256 % 2 = 1) := by
  simp [cmdFlag, BitVec.getLsbD, Nat.testBit_eq_decide_div_mod_eq]

/-- The fields of a word put together again are the word. -/
theorem fields_append (w : Word) : (cmdRsv w ++ BitVec.ofBool (cmdFlag w)) ++ cmdOp w = w := by
  unfold cmdRsv cmdFlag cmdOp
  apply BitVec.eq_of_getLsbD_eq
  intro i hi
  rw [BitVec.getLsbD_append, BitVec.getLsbD_append]
  split_ifs with h1 h2
  · simp [h1]
  · have : i = 8 := by omega
    subst this; simp
  · rw [BitVec.getLsbD_extractLsb', show 9 + (i - 8 - 1) = i by omega]
    simp; omega

/-- What a command word decodes to, by its number. -/
theorem decodeCommand_toNat (w : Word) :
    decodeCommand w =
      if 512 ≤ w.toNat then .error .reservedBitsSet
      else if w.toNat % 256 = 0 then withoutFlag (decide (w.toNat / 256 % 2 = 1)) .nop
      else if w.toNat % 256 = 1 then withoutFlag (decide (w.toNat / 256 % 2 = 1)) .configure
      else if w.toNat % 256 = 2 then .ok (.setNextBuffer (decide (w.toNat / 256 % 2 = 1)))
      else if w.toNat % 256 = 3 then withoutFlag (decide (w.toNat / 256 % 2 = 1)) .stop
      else if w.toNat % 256 = 4 then .ok (.registerCallback (decide (w.toNat / 256 % 2 = 1)))
      else if w.toNat % 256 = 5 then withoutFlag (decide (w.toNat / 256 % 2 = 1)) .eoi
      else .error .reservedOp := by
  have h : (cmdRsv w ≠ 0) = (512 ≤ w.toNat) := by
    simp only [ne_eq, cmdRsv_eq_zero, eq_iff_iff]; omega
  unfold decodeCommand
  simp only [h, cmdFlag_eq, ← cmdOp_eq (show 0 < 256 by omega), ← cmdOp_eq (show 1 < 256 by omega),
    ← cmdOp_eq (show 2 < 256 by omega), ← cmdOp_eq (show 3 < 256 by omega),
    ← cmdOp_eq (show 4 < 256 by omega), ← cmdOp_eq (show 5 < 256 by omega)]
  rfl

end Sys2Proof
end

