-- ==== Sys2Proof/Laws/Effects.lean ====
section
/-! SUPPORT. For each host operation, once, everything its effect can be; the provers cite these instead
of unfolding the effects. -/

namespace Sys2Proof.Machine

/-! ## The checks of a mode -/

theorem checkMult8_iff (m : ModeRegs) :
    checkMult8 m = true ↔ 8 ∣ m.ha.toNat ∧ 8 ∣ m.hfp.toNat ∧ 8 ∣ m.hs.toNat ∧ 8 ∣ m.hbp.toNat := by
  simp [checkMult8, Nat.dvd_iff_mod_eq_zero]

theorem checkTiming_iff (m : ModeRegs) :
    checkTiming m = true ↔ 0 < m.ha.toNat ∧ 0 < m.hs.toNat ∧ 0 < m.va.toNat ∧ 0 < m.vs.toNat := by
  simp only [checkTiming, Bool.and_eq_true, bne_iff_ne, Nat.pos_iff_ne_zero]

theorem checkBpp_iff (m : ModeRegs) : checkBpp m = true ↔ m.bpp = 4 := by
  simp [checkBpp]

/-! ## The effects -/

/-- CONFIGURE refuses, halts on the mode or in the handshake, or programs the timers. -/
theorem configureEffect_cases (s : State) :
    (s.runstate ≠ .unconfigured ∧ configureEffect s = refuse .configureTwice s) ∨
    (s.runstate = .unconfigured ∧ ∃ c, modeError s.mode = some c ∧ configureEffect s = raiseHalt c s) ∨
    (s.runstate = .unconfigured ∧ modeError s.mode = none ∧
      configureEffect s = raiseHalt .resetAck (drawn s)) ∨
    (s.runstate = .unconfigured ∧ modeError s.mode = none ∧ configureEffect s = programTimers (drawn s)) := by
  unfold configureEffect
  by_cases h : s.runstate = .unconfigured
  · rw [if_neg (by simpa using h)]
    cases he : modeError s.mode with
    | some c => exact .inr (.inl ⟨h, c, rfl, rfl⟩)
    | none =>
      unfold resetHandshake
      split_ifs
      · exact .inr (.inr (.inr ⟨h, rfl, rfl⟩))
      · exact .inr (.inr (.inl ⟨h, rfl, rfl⟩))
  · rw [if_pos h]
    exact .inl ⟨h, rfl⟩

/-- The cause of a mode error is never NONE and never the handshake's. -/
theorem modeError_some {m : ModeRegs} {c : HaltCause} (h : modeError m = some c) :
    c = .hNotMult8 ∨ c = .badRatio ∨ c = .badTiming ∨ c = .badBpp := by
  unfold modeError at h
  split_ifs at h <;> cases h <;> simp

/-- A mode without error passes the checks. -/
theorem modeError_none {m : ModeRegs} (h : modeError m = none) :
    checkMult8 m = true ∧ checkTiming m = true ∧ checkBpp m = true := by
  unfold modeError at h
  split_ifs at h
  simp_all

/-- SET_NEXT_BUFFER refuses, or arms the descriptor, and with the flag begins a wait. -/
theorem setNextBufferEffect_cases (wait : Bool) (s : State) :
    (∃ why, setNextBufferEffect wait s = refuse why s) ∨
    (s.runstate = .running ∧ (wait && s.inService) = false ∧
      (gran s.argPtr s.argPitch).bytes ∣ s.mode.lb ∧ footprintEnd s.mode s.argPtr s.argPitch ≤ 2 ^ 32 ∧
      ((wait = false ∧ setNextBufferEffect wait s = armDescriptor s) ∨
        (wait = true ∧ setNextBufferEffect wait s = beginWait (armDescriptor s)))) := by
  unfold setNextBufferEffect
  cases h : setNextBufferRefusal wait s with
  | some why => exact .inl ⟨why, rfl⟩
  | none =>
    unfold setNextBufferRefusal at h
    split_ifs at h with h1 h2 h3 h4
    refine .inr ⟨by simpa using h1, by simpa using h2, Nat.dvd_of_mod_eq_zero (by simpa using h3), by omega, ?_⟩
    cases wait <;> simp

/-- STOP refuses or turns the interrupt and the DMA reader off. -/
theorem stopEffect_cases (s : State) :
    (s.runstate = .unconfigured ∧ stopEffect s = refuse .stopBeforeConfigure s) ∨
    (s.runstate ≠ .unconfigured ∧
      stopEffect s = { s with irqEn := false, fbPending := false, dmaEn := false, runstate := .stopped }) := by
  unfold stopEffect
  split_ifs with h
  · exact .inl ⟨h, rfl⟩
  · exact .inr ⟨h, rfl⟩

/-- EOI returns from the service or refuses. -/
theorem eoiEffect_cases (s : State) :
    (s.inService = true ∧ eoiEffect s = returnFromFrameInterrupt s) ∨
    (s.inService = false ∧ eoiEffect s = refuse .eoiOutsideHandler s) := by
  unfold eoiEffect
  cases s.inService <;> simp

/-- A register read observes a value or refuses. -/
theorem rdEffect_cases (n : Nat) (s : State) :
    (∃ v, readReg s n = some v ∧ rdEffect n s = emit s (.readValue n v)) ∨
    (readReg s n = none ∧ rdEffect n s = refuse .noSuchRegister s) := by
  unfold rdEffect
  cases h : readReg s n with
  | some v => exact .inl ⟨v, rfl, rfl⟩
  | none => exact .inr ⟨rfl, rfl⟩

/-- The commands: what a command word decodes to. -/
def isCommand : Instr → Bool
  | .nop => true
  | .configure => true
  | .setNextBuffer _ => true
  | .stop => true
  | .registerCallback _ => true
  | .eoi => true
  | .wr _ _ => false
  | .rd _ => false
  | .pixel => false
  | .dmaRead => false
  | .serviceEnter => false
  | .waitRelease => false
  | .hwReset => false

theorem isHostOp_of_isCommand {i : Instr} (h : isCommand i = true) : isHostOp i = true := by
  cases i <;> simp_all [isCommand, isHostOp]

/-- The decoder of command words answers commands only. -/
theorem isCommand_of_decode {w : Word} {i : Instr} (h : decodeCommand w = .ok i) : isCommand i = true := by
  unfold decodeCommand withoutFlag at h
  split_ifs at h <;> cases h <;> rfl

theorem performCommand_eq {i : Instr} (h : isCommand i = true) (s : State) :
    performCommand i s = hostEffect i s := by
  cases i <;> simp_all [isCommand, performCommand, hostEffect]

/-- A command of the command decoder is the effect of that command. -/
theorem commandEffect_cases (w : Word) (s : State) :
    (∃ e, decodeCommand w = .error e ∧ commandEffect w s = refuse .reservedCommand s) ∨
    (∃ i, decodeCommand w = .ok i ∧ isCommand i = true ∧ commandEffect w s = hostEffect i s) := by
  unfold commandEffect
  cases h : decodeCommand w with
  | error e => exact .inl ⟨e, rfl, rfl⟩
  | ok i => exact .inr ⟨i, rfl, isCommand_of_decode h, performCommand_eq (isCommand_of_decode h) s⟩

/-- A bus write refuses, writes the register it names, or performs a command. -/
theorem wrEffect_cases (n : Nat) (v : Word) (s : State) :
    (∃ why, wrEffect n v s = refuse why s) ∨
    (n ≤ 0x0B ∧ s.runstate = .unconfigured ∧ wrEffect n v s = { s with mode := writeMode s.mode n v }) ∨
    (n = 0x0C ∧ wrEffect n v s = { s with argPtr := v }) ∨
    (n = 0x0D ∧ wrEffect n v s = { s with argPitch := v }) ∨
    (n = 0x0E ∧ ∃ i, decodeCommand v = .ok i ∧ isCommand i = true ∧ wrEffect n v s = hostEffect i s) := by
  unfold wrEffect modeWriteEffect
  split_ifs with h1 h2 h3 h4 h5 h6
  · exact .inl ⟨_, rfl⟩
  · exact .inr (.inl ⟨h2, h3, rfl⟩)
  · exact .inl ⟨_, rfl⟩
  · exact .inr (.inr (.inl ⟨h4, rfl⟩))
  · exact .inr (.inr (.inr (.inl ⟨h5, rfl⟩)))
  · obtain ⟨e, -, he⟩ | ⟨i, hi, hc, he⟩ := commandEffect_cases v s
    · exact .inl ⟨_, he⟩
    · exact .inr (.inr (.inr (.inr ⟨h6, i, hi, hc, he⟩)))
  · exact .inl ⟨_, rfl⟩

/-- Everything a host operation can do, commands through WR included: the command's own constructor
stands for both spellings. -/
inductive HostMove (s : State) : Instr → State → Prop
  | nop : HostMove s .nop s
  | refuse (i : Instr) (why : RefuseReason) : HostMove s i (refuse why s)
  | haltMode (c : HaltCause) (h : s.runstate = .unconfigured) (he : modeError s.mode = some c) :
      HostMove s .configure (raiseHalt c s)
  | haltAck (h : s.runstate = .unconfigured) (he : modeError s.mode = none) :
      HostMove s .configure (raiseHalt .resetAck (drawn s))
  | program (h : s.runstate = .unconfigured) (he : modeError s.mode = none) :
      HostMove s .configure (programTimers (drawn s))
  | arm (h : s.runstate = .running) (hg : (gran s.argPtr s.argPitch).bytes ∣ s.mode.lb)
      (hf : footprintEnd s.mode s.argPtr s.argPitch ≤ 2 ^ 32) :
      HostMove s (.setNextBuffer false) (armDescriptor s)
  | armWait (h : s.runstate = .running) (hi : s.inService = false)
      (hg : (gran s.argPtr s.argPitch).bytes ∣ s.mode.lb)
      (hf : footprintEnd s.mode s.argPtr s.argPitch ≤ 2 ^ 32) :
      HostMove s (.setNextBuffer true) (beginWait (armDescriptor s))
  | stop (h : s.runstate ≠ .unconfigured) :
      HostMove s .stop { s with irqEn := false, fbPending := false, dmaEn := false, runstate := .stopped }
  | callback (enable : Bool) : HostMove s (.registerCallback enable) { s with cbEn := enable }
  | eoi (h : s.inService = true) : HostMove s .eoi (returnFromFrameInterrupt s)
  | writeMode (n : Nat) (v : Word) (hn : n ≤ 0x0B) (h : s.runstate = .unconfigured) :
      HostMove s (.wr n v) { s with mode := writeMode s.mode n v }
  | writePtr (v : Word) : HostMove s (.wr 0x0C v) { s with argPtr := v }
  | writePitch (v : Word) : HostMove s (.wr 0x0D v) { s with argPitch := v }
  | read (n : Nat) (v : Word) (h : readReg s n = some v) : HostMove s (.rd n) (emit s (.readValue n v))

/-- A command's effect is one of the moves. -/
theorem hostMove_command {i : Instr} (h : isCommand i = true) (s : State) : HostMove s i (hostEffect i s) := by
  cases i with
  | nop => exact .nop
  | configure =>
    show HostMove s _ (configureEffect s)
    obtain ⟨-, e⟩ | ⟨hr, c, hc, e⟩ | ⟨hr, hc, e⟩ | ⟨hr, hc, e⟩ := configureEffect_cases s <;> rw [e]
    · exact .refuse _ _
    · exact .haltMode c hr hc
    · exact .haltAck hr hc
    · exact .program hr hc
  | setNextBuffer wait =>
    show HostMove s _ (setNextBufferEffect wait s)
    obtain ⟨why, e⟩ | ⟨hr, hi, hg, hf, ⟨rfl, e⟩ | ⟨rfl, e⟩⟩ := setNextBufferEffect_cases wait s <;> rw [e]
    · exact .refuse _ _
    · exact .arm hr hg hf
    · exact .armWait hr (by simpa using hi) hg hf
  | stop =>
    show HostMove s _ (stopEffect s)
    obtain ⟨-, e⟩ | ⟨hr, e⟩ := stopEffect_cases s <;> rw [e]
    · exact .refuse _ _
    · exact .stop hr
  | registerCallback enable => exact .callback enable
  | eoi =>
    show HostMove s _ (eoiEffect s)
    obtain ⟨hi, e⟩ | ⟨-, e⟩ := eoiEffect_cases s <;> rw [e]
    · exact .eoi hi
    · exact .refuse _ _
  | wr n v => cases h
  | rd n => cases h
  | pixel => cases h
  | dmaRead => cases h
  | serviceEnter => cases h
  | waitRelease => cases h
  | hwReset => cases h

/-- Every host operation makes a move of its own, or, as a bus write to CMD, the move of the command whose
word it carries. -/
theorem hostMove {i : Instr} (h : isHostOp i = true) (s : State) :
    HostMove s i (hostEffect i s) ∨
    ∃ w c, i = .wr 0x0E w ∧ decodeCommand w = .ok c ∧ isCommand c = true ∧ HostMove s c (hostEffect i s) := by
  by_cases hc : isCommand i = true
  · exact .inl (hostMove_command hc s)
  cases i with
  | wr n v =>
    show HostMove s _ (wrEffect n v s) ∨ _
    obtain ⟨why, e⟩ | ⟨hn, hr, e⟩ | ⟨rfl, e⟩ | ⟨rfl, e⟩ | ⟨rfl, c, hd, hc, e⟩ := wrEffect_cases n v s
    · exact .inl (by rw [e]; exact .refuse _ _)
    · exact .inl (by rw [e]; exact .writeMode n v hn hr)
    · exact .inl (by rw [e]; exact .writePtr v)
    · exact .inl (by rw [e]; exact .writePitch v)
    · refine .inr ⟨v, c, rfl, hd, hc, ?_⟩
      show HostMove s c (wrEffect 0x0E v s)
      rw [e]
      exact hostMove_command hc s
  | rd n =>
    show HostMove s _ (rdEffect n s) ∨ _
    obtain ⟨v, hv, e⟩ | ⟨-, e⟩ := rdEffect_cases n s
    · exact .inl (by rw [e]; exact .read n v hv)
    · exact .inl (by rw [e]; exact .refuse _ _)
  | nop => simp [isCommand] at hc
  | configure => simp [isCommand] at hc
  | setNextBuffer wait => simp [isCommand] at hc
  | stop => simp [isCommand] at hc
  | registerCallback enable => simp [isCommand] at hc
  | eoi => simp [isCommand] at hc
  | pixel => simp [isHostOp] at h
  | dmaRead => simp [isHostOp] at h
  | serviceEnter => simp [isHostOp] at h
  | waitRelease => simp [isHostOp] at h
  | hwReset => simp [isHostOp] at h

end Sys2Proof.Machine
end

