-- ==== Sys2Proof/Laws/Operands.lean ====
section
/-! SUPPORT. Granules and addresses: when a granule divides, and that a fitting buffer is read inside the
address space. -/

namespace Sys2Proof.Machine

/-- The low bits of `ptr | pitch` are 0 exactly when both operands are multiples. -/
theorem low_or_eq_zero (ptr pitch : Word) (k : Nat) :
    (ptr ||| pitch).extractLsb' 0 k = 0 ↔ 2 ^ k ∣ ptr.toNat ∧ 2 ^ k ∣ pitch.toNat := by
  rw [← BitVec.toNat_inj, BitVec.extractLsb'_toNat, BitVec.toNat_or, Nat.shiftRight_zero, Nat.or_mod_two_pow,
    Nat.dvd_iff_mod_eq_zero, Nat.dvd_iff_mod_eq_zero]
  exact Nat.or_eq_zero_iff

/-- `gran` by divisibility (R64). -/
theorem gran_eq (ptr pitch : Word) :
    gran ptr pitch =
      if 8 ∣ ptr.toNat ∧ 8 ∣ pitch.toNat then .g8
      else if 4 ∣ ptr.toNat ∧ 4 ∣ pitch.toNat then .g4
      else if 2 ∣ ptr.toNat ∧ 2 ∣ pitch.toNat then .g2
      else .g1 := by
  unfold gran
  simp only [low_or_eq_zero, show 2 ^ 3 = 8 from rfl, show 2 ^ 2 = 4 from rfl, show 2 ^ 1 = 2 from rfl]

theorem Granule.bytes_pos (g : Granule) : 0 < g.bytes := by cases g <;> decide

theorem Granule.bytes_le (g : Granule) : g.bytes ≤ 8 := by cases g <;> decide

/-- The granule divides both operands it is chosen from (R31). -/
theorem gran_dvd (ptr pitch : Word) :
    (gran ptr pitch).bytes ∣ ptr.toNat ∧ (gran ptr pitch).bytes ∣ pitch.toNat := by
  rw [gran_eq]
  split_ifs with h8 h4 h2
  · exact h8
  · exact h4
  · exact h2
  · exact ⟨one_dvd _, one_dvd _⟩

end Sys2Proof.Machine
end

