-- ==== Sys2Proof/Laws/Geometry.lean ====
section
/-! SUPPORT. The arithmetic of a running block: how the regions of a line and of a frame lie, how far a
granule reaches, and what the serializer has taken at a position. -/

namespace Sys2Proof.Machine

/-- A granule that divides both the offset and the line stays inside the line. -/
theorem granule_fits {g : Granule} {o lb : Nat} (h : o < lb) (ho : g.bytes ∣ o) (hl : g.bytes ∣ lb) :
    o + g.bytes ≤ lb := by
  obtain ⟨a, rfl⟩ := ho
  obtain ⟨b, rfl⟩ := hl
  have hab : a < b := lt_of_mul_lt_mul_left h (Nat.zero_le _)
  calc g.bytes * a + g.bytes = g.bytes * (a + 1) := by ring
    _ ≤ _ := Nat.mul_le_mul_left _ hab

/-- Where the regions of the frame lie in a block whose timers run. -/
structure Geometry (s : State) : Prop where
  /-- The active width is two pixels per byte of a line. -/
  width : s.mode.ha.toNat = 2 * s.mode.lb
  lbPos : 0 < s.mode.lb
  vaPos : 0 < s.mode.va.toNat
  ha0Pos : 0 < s.mode.ha0
  va0Pos : 0 < s.mode.va0
  ha1Eq : s.mode.ha1 = s.mode.ha0 + 2 * s.mode.lb
  va1Eq : s.mode.va1 = s.mode.va0 + s.mode.va.toNat
  ha1Le : s.mode.ha1 ≤ s.mode.ht
  va1Le : s.mode.va1 ≤ s.mode.vt
  hposLt : s.hpos < s.mode.ht
  vlineLt : s.vline < s.mode.vt

theorem geometry {s : State} (hi : BlockInv s) (ht : TimersRun s) : Geometry s := by
  have hm := (checkTiming_iff _).mp (hi.modeChecked ht).2.1
  have h8 := (checkMult8_iff _).mp (hi.modeChecked ht).1
  have hp := hi.position ht
  have e : s.mode.ha.toNat = 2 * s.mode.lb := by unfold ModeRegs.lb; omega
  constructor
  · exact e
  all_goals
    (try unfold ModeRegs.ha1); (try unfold ModeRegs.va1); (try unfold ModeRegs.ha0)
    (try unfold ModeRegs.va0); (try unfold ModeRegs.ht at *); (try unfold ModeRegs.vt at *); omega

/-- What the serializer has taken at position `(v, h)` of a frame. -/
def consumedAt (m : ModeRegs) (v h : Nat) : Nat :=
  if m.va0 ≤ v ∧ v < m.va1 then (v - m.va0) * m.lb + min ((h - m.ha0 + 1) / 2) m.lb else 0

theorem consumed_eq (s : State) : consumed s = consumedAt s.mode s.vline s.hpos := by
  unfold consumed consumedAt
  simp only [activeLine_iff]
  rfl

theorem consumed_pixelEffect (s : State) :
    consumed (pixelEffect s) =
      consumedAt s.mode (nextPosition s.mode (s.vline, s.hpos)).1 (nextPosition s.mode (s.vline, s.hpos)).2 := by
  rw [consumed_eq, ← pixelEffect_position, pixelEffect_mode]

/-- At an even active pixel the next byte of the frame is byte `x / 2` of line `y`, it is not the last plus
one, and the pixel takes it. -/
theorem consumed_even {s : State} (g : Geometry s) (ha : AtActivePixel s) (hx : column s % 2 = 0) :
    consumed s = row s * s.mode.lb + column s / 2 ∧ column s / 2 < s.mode.lb ∧
    consumedAt s.mode s.vline (s.hpos + 1) = consumed s + 1 ∧ s.hpos + 1 < s.mode.ht ∧
    consumed s < s.mode.va.toNat * s.mode.lb := by
  obtain ⟨⟨h1, h2⟩, h3, h4⟩ := ha
  have := g.ha1Eq
  have := g.va1Eq
  have := g.ha1Le
  have := g.lbPos
  rw [consumed_eq]
  unfold consumedAt
  unfold column at *
  unfold row
  rw [if_pos ⟨h1, h2⟩, if_pos ⟨h1, h2⟩]
  have hr : (s.vline - s.mode.va0 + 1) * s.mode.lb ≤ s.mode.va.toNat * s.mode.lb :=
    Nat.mul_le_mul_right _ (by omega)
  rw [Nat.add_mul] at hr
  generalize (s.vline - s.mode.va0) * s.mode.lb = r at *
  generalize s.mode.va.toNat * s.mode.lb = v at *
  omega

/-- Any other pixel takes nothing; the frame ends with all its bytes taken. -/
theorem consumed_other {s : State} (g : Geometry s) (ha : ¬ (AtActivePixel s ∧ column s % 2 = 0)) :
    (¬ frameEnds s ∧ consumed (pixelEffect s) = consumed s) ∨
    (frameEnds s ∧ consumed (pixelEffect s) = 0 ∧ consumed s = s.mode.va.toNat * s.mode.lb) := by
  have := g.ha1Eq
  have := g.va1Eq
  have := g.ha1Le
  have := g.va1Le
  have := g.lbPos
  have := g.vaPos
  have := g.ha0Pos
  have := g.va0Pos
  have := g.hposLt
  have := g.vlineLt
  unfold AtActivePixel column at ha
  rw [consumed_pixelEffect, consumed_eq]
  unfold nextPosition
  by_cases hl : s.hpos + 1 < s.mode.ht
  · rw [if_pos hl]
    refine .inl ⟨fun hf => by have := hf.1; omega, ?_⟩
    unfold consumedAt
    by_cases hv : s.mode.va0 ≤ s.vline ∧ s.vline < s.mode.va1
    · rw [if_pos hv, if_pos hv]
      congr 1
      omega
    · rw [if_neg hv, if_neg hv]
  · rw [if_neg hl]
    unfold frameEnds vaFalls nextLine
    dsimp only
    rw [Bool.and_eq_true, Bool.not_eq_true', Bool.eq_false_iff, ne_eq, activeLine_iff, activeLine_iff]
    generalize hL : (if s.vline + 1 < s.mode.vt then s.vline + 1 else 0) = L
    have hL' : (s.vline + 1 < s.mode.vt ∧ L = s.vline + 1) ∨ (s.vline + 1 = s.mode.vt ∧ L = 0) := by
      split_ifs at hL <;> omega
    have m0 : min ((0 - s.mode.ha0 + 1) / 2) s.mode.lb = 0 := by omega
    have m1 : min ((s.hpos - s.mode.ha0 + 1) / 2) s.mode.lb = s.mode.lb := by omega
    unfold consumedAt
    rw [m0, m1]
    by_cases hv : s.mode.va0 ≤ s.vline ∧ s.vline < s.mode.va1
    · rw [if_pos hv]
      by_cases hv' : s.mode.va0 ≤ L ∧ L < s.mode.va1
      · rw [if_pos hv', show L - s.mode.va0 = s.vline - s.mode.va0 + 1 by omega, Nat.add_mul]
        exact .inl ⟨by tauto, by omega⟩
      · rw [if_neg hv']
        have hlast : s.vline - s.mode.va0 + 1 = s.mode.va.toNat := by omega
        refine .inr ⟨⟨by omega, hv, hv'⟩, rfl, ?_⟩
        rw [← hlast, Nat.add_mul]
        omega
    · rw [if_neg hv]
      by_cases hv' : s.mode.va0 ≤ L ∧ L < s.mode.va1
      · rw [if_pos hv', show L - s.mode.va0 = 0 by omega]
        exact .inl ⟨by tauto, by omega⟩
      · rw [if_neg hv']
        exact .inl ⟨by tauto, rfl⟩

/-- An odd active pixel is reached only from the even one before it. -/
theorem even_before_odd {s : State} (g : Geometry s) (ha : AtActivePixel (pixelEffect s))
    (hx : column (pixelEffect s) % 2 = 1) :
    AtActivePixel s ∧ column s % 2 = 0 ∧ (pixelEffect s).hpos = s.hpos + 1 ∧
      (pixelEffect s).vline = s.vline := by
  have := g.ha1Eq
  have := g.ha1Le
  have := g.lbPos
  have := g.hposLt
  have := g.ha0Pos
  unfold AtActivePixel column at *
  simp only [pixelEffect_mode, pixelEffect_hpos, pixelEffect_vline] at *
  split_ifs at * with hl
  · exact ⟨⟨ha.1, by omega⟩, by omega, rfl, rfl⟩
  · omega

/-- An enabled chain has bytes of its frame left to fetch. -/
theorem fetched_lt {s : State} (hi : BlockInv s) (hd : s.dmaEn = true) :
    fetched s < s.mode.va.toNat * s.mode.lb := by
  obtain ⟨hl, ho, -⟩ := hi.dmaInFrame hd
  unfold fetched
  have h : (s.dmaLine + 1) * s.mode.lb ≤ s.mode.va.toNat * s.mode.lb := Nat.mul_le_mul_right _ (by omega)
  rw [Nat.add_mul] at h
  omega

/-! ## What a read sees -/

/-- A byte no store to which is under way reads as memory holds it. -/
theorem readByte_of_none_newer {s : State} {a : Nat} (h : newerBytes s a = []) :
    readByte s a = Memory.read s.mem a := by
  unfold readByte
  rw [h]

/-- What a read sees is the latest write, or without coherence one of the candidates (R28). -/
theorem readByte_candidate (s : State) (a : Nat) :
    if Config.coherent = true then readByte s a = latestByte s a else readByte s a ∈ candidates s a := by
  unfold readByte latestByte candidates
  cases newerBytes s a with
  | nil => simp
  | cons b l =>
    dsimp only
    split_ifs
    · rfl
    · rw [List.getD_eq_getElem _ _ (Nat.mod_lt _ (by simp))]
      exact List.getElem_mem _

/-- Settling moves no write: the latest write to an address stays the latest. -/
theorem latestByte_settle {s : State} (h : Memory.wf s.mem) (a : Nat) :
    latestByte (settle s) a = latestByte s a := by
  unfold latestByte newerBytes
  rw [settle_mem, Memory.read_foldl _ h.1]
  simp only [settle_flushed, settle_fresh, List.nil_append, List.filter_append, List.map_append,
    List.getLastD_eq_getLast?, List.getLast?_append]
  cases (List.map HostStore.byte (List.filter (fun w => w.addr.toNat == a) s.fresh)).getLast? <;> rfl

end Sys2Proof.Machine
end

