-- ==== Sys2Proof/Laws/Moves.lean ====
section
/-! SUPPORT. The one case analysis over all operations: what holds of every move of every agent holds
whenever an operation answers a next state. -/

namespace Sys2Proof.Machine

/-- The eight words that decode, with what they decode to. -/
theorem decodeCommand_ok {w : Word} {i : Instr} (h : decodeCommand w = .ok i) :
    (i = .nop ∧ w = 0) ∨ (i = .configure ∧ w = 1) ∨ (i = .setNextBuffer false ∧ w = 2) ∨
    (i = .setNextBuffer true ∧ w = 0x102) ∨ (i = .stop ∧ w = 3) ∨ (i = .registerCallback false ∧ w = 4) ∨
    (i = .registerCallback true ∧ w = 0x104) ∨ (i = .eoi ∧ w = 5) := by
  rw [decodeCommand_toNat] at h
  unfold withoutFlag at h
  simp only [← BitVec.toNat_inj (x := w)]
  generalize w.toNat = n at *
  simp only [decide_eq_true_eq] at h
  split_ifs at h <;> cases h <;> simp <;> omega

/-- What the frame service starts its count from: the settled state, or the first read of the queued
buffer. -/
def Rearmed (s u : State) : Prop :=
  (s.armed = false ∧ u = settle s) ∨
  (s.armed = true ∧ s.nextPtr.toNat + s.nextG.bytes ≤ 2 ^ 32 ∧ u = firstRead (settle s))

/-- A property of an operation and the state it leaves holds of `exec` when it holds of every move: the
host's, a command written to CMD, and each autonomous step. -/
theorem exec_moves {P : Instr → State → Prop} {s : State}
    (host : ∀ i t, isHostOp i = true → HostMove s i t → HostCanAct s → P i t)
    (command : ∀ w i t, decodeCommand w = .ok i → isCommand i = true → HostMove s i t → HostCanAct s →
      P i t → P (.wr 0x0E w) t)
    (pixel : Unmarked s → TimersRun s → ¬ PixelHeld s → P .pixel (pixelEffect s))
    (read : Unmarked s → TimersRun s → s.dmaEn = true → s.fq.length + s.curG.bytes ≤ Config.fqCap →
      ∀ t, dmaBody s = some t → P .dmaRead t)
    (late : Unmarked s → s.runstate = .running → s.irqEn = true → s.fbPending = true →
      s.inService = false → vaActive s = true → P .serviceEnter (markFault .lateService s))
    (service : Unmarked s → s.runstate = .running → s.irqEn = true → s.fbPending = true →
      s.inService = false → vaActive s = false → ∀ u, Rearmed s u →
      (s.cbEn = true → P .serviceEnter (invokeCallback (countFrame u))) ∧
      (s.cbEn = false → P .serviceEnter (requestFlush (countFrame u))))
    (release : Unmarked s → TimersRun s → s.waiting = true → s.framecount ≠ s.waitFc →
      P .waitRelease { s with waiting := false })
    (reset : P .hwReset (hwResetEffect s)) :
    ∀ i t, exec i s = .next t → P i t := by
  intro i t h
  obtain ⟨hh, hc, rfl⟩ | ⟨rfl, h1, h2, h3, rfl⟩ | ⟨rfl, h1, h2, h3, h4, h⟩ |
    ⟨rfl, h1, h2, h3, h4, h5, h6, rfl⟩ | ⟨rfl, h1, h2, h3, h4, h5, h6, h⟩ |
    ⟨rfl, h1, h2, h3, h4, rfl⟩ | ⟨rfl, rfl⟩ := exec_cases h
  · obtain h | ⟨w, c, rfl, hd, hcm, h⟩ := hostMove hh s
    · exact host _ _ hh h hc
    · exact command w c _ hd hcm h hc (host _ _ (isHostOp_of_isCommand hcm) h hc)
  · exact pixel h1 h2 h3
  · exact read h1 h2 h3 h4 _ h
  · exact late h1 h2 h3 h4 h5 h6
  · obtain ⟨u, hu, ⟨hc, rfl⟩ | ⟨hc, rfl⟩⟩ := takeFrameInterrupt_cases h
    · exact (service h1 h2 h3 h4 h5 h6 u hu).1 hc
    · exact (service h1 h2 h3 h4 h5 h6 u hu).2 hc
  · exact release h1 h2 h3 h4
  · exact reset

end Sys2Proof.Machine
end

