-- ==== Sys2Proof/Laws/PerInstr.lean ====
section
/-! SUPPORT. Per-instruction facts about the syntax: a command's encoding matches its row of the opcode
table, and no other instruction's encoding is a command (spec/30_encoding.md R41). -/

namespace Sys2Proof.Laws.TableRow

/-- The `match` and `mask` columns of a command's row; the rows of formats BUS and AUTO have none. -/
def columns : Instr → Option (Word × Word)
  | .nop => some (0x00000000, 0xFFFFFFFF)
  | .configure => some (0x00000001, 0xFFFFFFFF)
  | .setNextBuffer _ => some (0x00000002, 0xFFFFFEFF)
  | .stop => some (0x00000003, 0xFFFFFFFF)
  | .registerCallback _ => some (0x00000004, 0xFFFFFEFF)
  | .eoi => some (0x00000005, 0xFFFFFFFF)
  | .wr _ _ => none
  | .rd _ => none
  | .pixel => none
  | .dmaRead => none
  | .serviceEnter => none
  | .waitRelease => none
  | .hwReset => none

/-- An instruction with columns is encoded as a write to CMD of a word that its row selects; a well-formed
one without is encoded as no write to CMD at all. -/
def Statement (i : Instr) : Prop :=
  match columns i with
  | some (value, mask) => ∃ w, encode i = .busWrite 0x0E w ∧ w &&& mask = value
  | none => wellFormed i = true → ∀ w, encode i ≠ .busWrite 0x0E w

theorem nop : Statement .nop := ⟨0x000, rfl, rfl⟩

theorem configure : Statement .configure := ⟨0x001, rfl, rfl⟩

theorem setNextBuffer (wait : Bool) : Statement (.setNextBuffer wait) := by
  cases wait
  · exact ⟨0x002, rfl, rfl⟩
  · exact ⟨0x102, rfl, rfl⟩

theorem stop : Statement .stop := ⟨0x003, rfl, rfl⟩

theorem registerCallback (enable : Bool) : Statement (.registerCallback enable) := by
  cases enable
  · exact ⟨0x004, rfl, rfl⟩
  · exact ⟨0x104, rfl, rfl⟩

theorem eoi : Statement .eoi := ⟨0x005, rfl, rfl⟩

theorem wr (n : Nat) (v : Word) : Statement (.wr n v) := by
  intro h w e
  injection e with hn
  subst hn
  exact absurd h (by simp [wellFormed, cmdRegister])

theorem rd (n : Nat) : Statement (.rd n) := fun _ _ e => nomatch e

theorem pixel : Statement .pixel := fun _ _ e => nomatch e

theorem dmaRead : Statement .dmaRead := fun _ _ e => nomatch e

theorem serviceEnter : Statement .serviceEnter := fun _ _ e => nomatch e

theorem waitRelease : Statement .waitRelease := fun _ _ e => nomatch e

theorem hwReset : Statement .hwReset := fun _ _ e => nomatch e

end Sys2Proof.Laws.TableRow
end

