-- ==== Sys2Proof/Machine/Pseudo.lean ====
section
/-! DEFINITION. The pseudo-instructions of spec/30_encoding.md R43, as the events they expand to, and the
boot sequence of spec/70_reset_and_hazards.md R106. -/

namespace Sys2Proof.Machine.Pseudo

/-- `WR n, v`. -/
def wr (n : Nat) (v : Word) : Event := .input (.busWrite n v)

/-- `RD n`. -/
def rd (n : Nat) : Event := .input (.busRead n)

/-- `CMD i`: the bus access a command is encoded as. -/
def cmd (i : Instr) : Event := .input (encode i)

/-- `RESET`. -/
def reset : Event := .input (.auto .hwReset)

/-- `configure(mode, bpp)`: the twelve operand writes and the command. -/
def configure (m : ModeRegs) : List Event :=
  [wr 0x00 (m.ha.setWidth 32), wr 0x01 (m.hfp.setWidth 32), wr 0x02 (m.hs.setWidth 32),
   wr 0x03 (m.hbp.setWidth 32), wr 0x04 (m.va.setWidth 32), wr 0x05 (m.vfp.setWidth 32),
   wr 0x06 (m.vs.setWidth 32), wr 0x07 (m.vbp.setWidth 32), wr 0x08 (m.num.setWidth 32),
   wr 0x09 (m.den.setWidth 32), wr 0x0A (m.pol.setWidth 32), wr 0x0B (m.bpp.setWidth 32),
   cmd .configure]

/-- `setNextBuffer(ptr, pitch, wait)`. -/
def setNextBuffer (ptr pitch : Word) (wait : Bool) : List Event :=
  [wr 0x0C ptr, wr 0x0D pitch, cmd (.setNextBuffer wait)]

/-- `stop()`. -/
def stop : List Event := [cmd .stop]

/-- Registering the per-frame callback. -/
def registerCallback : List Event := [cmd (.registerCallback true)]

/-- The return from the per-frame callback. -/
def eoi : List Event := [cmd .eoi]

/-- Reading the frame counter. -/
def readFramecount : List Event := [rd 0x10]

/-- What the host does, in order, before the block scans out a picture (R106), with a callback. -/
def boot (m : ModeRegs) (ptr pitch : Word) : List Event :=
  registerCallback ++ configure m ++ setNextBuffer ptr pitch true

end Sys2Proof.Machine.Pseudo
end

