-- ==== Sys2Proof/Machine/Timing.lean ====
section
/-! DEFINITION. The timing formulae of spec/70_reset_and_hazards.md R118, over any field of numbers, with
the OPEN reference frequency F_REF as an argument (spec/00_scope.md R2). No step reads them. -/

namespace Sys2Proof.Machine.Timing

variable {K : Type} [Field K]

/-- Pixel frequency: F_REF * NUM / DEN (R118). -/
def pixelFreq (fRef : K) (m : ModeRegs) : K := fRef * (m.num.toNat : K) / (m.den.toNat : K)

/-- Pixel period: 1 / f_pix. -/
def pixelPeriod (fRef : K) (m : ModeRegs) : K := 1 / pixelFreq fRef m

/-- Base tick: 8 / f_pix. -/
def baseTickPeriod (fRef : K) (m : ModeRegs) : K := 8 / pixelFreq fRef m

/-- Line period: HT / f_pix. -/
def linePeriod (fRef : K) (m : ModeRegs) : K := (m.ht : K) / pixelFreq fRef m

/-- Line rate: f_pix / HT. -/
def lineRate (fRef : K) (m : ModeRegs) : K := pixelFreq fRef m / (m.ht : K)

/-- Frame period: HT * VT / f_pix. -/
def framePeriod (fRef : K) (m : ModeRegs) : K := (m.framePx : K) / pixelFreq fRef m

/-- Frame rate, the rate of the frame interrupt and of FRAMECOUNT: f_pix / (HT * VT). -/
def frameRate (fRef : K) (m : ModeRegs) : K := pixelFreq fRef m / (m.framePx : K)

/-- The service window in seconds: (VFP + VS + VBP) * HT / f_pix. -/
def serviceWindow (fRef : K) (m : ModeRegs) : K := (m.serviceWindow : K) / pixelFreq fRef m

/-- Average DMA bandwidth in bytes per second: LB * VA bytes per frame. -/
def averageBandwidth (fRef : K) (m : ModeRegs) : K :=
  ((m.lb * m.va.toNat : Nat) : K) * pixelFreq fRef m / (m.framePx : K)

/-- Peak DMA bandwidth, during an active line: f_pix / 2 bytes per second. -/
def peakBandwidth (fRef : K) (m : ModeRegs) : K := pixelFreq fRef m / 2

end Sys2Proof.Machine.Timing
end

