-- ==== Sys2Proof/Tests/Slice0.lean ====
section
/-! SUPPORT. The model's own tests, each about one step on a small state, with the expected results taken
from spec/95_test_vectors.md, and a witness for the hypotheses of each statement. -/

namespace Sys2Proof.Tests

open Sys2Proof Sys2Proof.Machine

/-! ## Small states -/

/-- The next state of an outcome. -/
def after : Host.Outcome State Fault Refusal → Option State
  | .next t => some t
  | .fault _ => none
  | .refused _ => none

/-- What an outcome stops with as not enabled. -/
def bar : Host.Outcome State Fault Refusal → Option NotEnabled
  | .next _ => none
  | .fault _ => none
  | .refused (.notEnabled why) => some why
  | .refused _ => none

/-- What is asked of the state after an instruction. -/
def gives {α : Type} (i : Instr) (s : State) (f : State → α) : Option α := (after (exec i s)).map f

/-- The toy mode M0 of spec/95_test_vectors.md. -/
def m0 : ModeRegs := ⟨8, 8, 8, 8, 2, 1, 1, 1, 1, 1, 0, 4⟩

/-- The mode registers of 640x480 (95 section 2.6), bpp 4. -/
def m640 : ModeRegs := ⟨640, 16, 96, 48, 480, 10, 2, 33, 1, 1, 0, 4⟩

/-- Buffer A of spec/95_test_vectors.md. -/
def bufferA : List Host.Cell :=
  [(0x1000, 0x21), (0x1001, 0x43), (0x1002, 0x65), (0x1003, 0x87),
   (0x1004, 0xA9), (0x1005, 0xCB), (0x1006, 0xED), (0x1007, 0x0F)]

/-- UNCONFIGURED with the mode registers written. -/
def chosen (m : ModeRegs) : State := { State.reset with mode := m }

/-- RUNNING in M0 at position (0, 0), nothing armed. -/
def running : State := { State.reset with mode := m0, runstate := .running, irqEn := true, mem := bufferA }

/-- Buffer A armed. -/
def armed : State := { running with nextPtr := 0x1000, nextPitch := 4, nextG := .g4, armed := true }

/-- The frame event at (4, 0) waits for its service. -/
def pending : State := { armed with vline := 4, fbPending := true }

/-- In the callback, the chain of buffer A in progress. -/
def handler : State :=
  { armed with
    vline := 4, framecount := 1, inService := true, cbEn := true, dmaEn := true
    curPtr := 0x1000, curPitch := 4, curG := .g4, dmaLine := 1, fq := [0x21, 0x43, 0x65, 0x87] }

/-- After the service, still outside the active lines. -/
def chain : State := { handler with inService := false, cbEn := false }

/-- At the first active pixel of an armed frame. -/
def picture : State := { chain with vline := 2, hpos := 16 }

/-- One pixel later. -/
def midbyte : State := { picture with hpos := 17, fq := [0x43, 0x65, 0x87], curByte := 0x21, curValid := true }

/-- At the first active pixel of an armed frame whose only read so far has not come. -/
def held : State := { picture with dmaLine := 0, fq := [] }

/-- The foreground waits for the frame counter to leave 7. -/
def waiting (fc : Word) : State := { armed with waiting := true, waitFc := 7, framecount := fc }

/-- STOPPED. -/
def stopped : State := { armed with runstate := .stopped, irqEn := false }

/-- HALTED with cause 2. -/
def halted : State := { chosen { m0 with ha := 12 } with runstate := .halted, haltCause := .hNotMult8 }

/-- RUNNING at a position, with some mode polarity. -/
def at' (v h : Nat) : State := { running with vline := v, hpos := h }

/-! ## Well-formedness and encoding -/

/-- The one ill-formed shape, a bus write to CMD as WR, is refused; its neighbours are well-formed. -/
theorem test_wellFormed : wellFormed (.wr 0x0E 0) = false ∧ wellFormed (.wr 0x0E 0xFFFFFFFF) = false ∧
    wellFormed (.wr 0x0D 0) = true ∧ wellFormed (.wr 0x0F 0) = true ∧ wellFormed .nop = true := by decide

/-- 95 section 2.2, R40: OP in bits 7 to 0, F in bit 8, written bit by bit. -/
theorem test_decode_bits :
    decodeCommand 0b0000_0000_0000_0000_0000_000_0_00000000#32 = .ok .nop ∧
    decodeCommand 0b0000_0000_0000_0000_0000_000_0_00000001#32 = .ok .configure ∧
    decodeCommand 0b0000_0000_0000_0000_0000_000_0_00000010#32 = .ok (.setNextBuffer false) ∧
    decodeCommand 0b0000_0000_0000_0000_0000_000_1_00000010#32 = .ok (.setNextBuffer true) ∧
    decodeCommand 0b0000_0000_0000_0000_0000_000_0_00000011#32 = .ok .stop ∧
    decodeCommand 0b0000_0000_0000_0000_0000_000_0_00000100#32 = .ok (.registerCallback false) ∧
    decodeCommand 0b0000_0000_0000_0000_0000_000_1_00000100#32 = .ok (.registerCallback true) ∧
    decodeCommand 0b0000_0000_0000_0000_0000_000_0_00000101#32 = .ok .eoi := by decide

/-- 95 section 2.2: the reserved words. -/
theorem test_decode_reserved :
    decodeCommand 0x00000006 = .error .reservedOp ∧ decodeCommand 0x000000FF = .error .reservedOp ∧
    decodeCommand 0x00000100 = .error .flagMustBeZero ∧ decodeCommand 0x00000101 = .error .flagMustBeZero ∧
    decodeCommand 0x00000103 = .error .flagMustBeZero ∧ decodeCommand 0x00000105 = .error .flagMustBeZero ∧
    decodeCommand 0x00000202 = .error .reservedBitsSet ∧ decodeCommand 0x80000002 = .error .reservedBitsSet ∧
    decodeCommand 0xFFFFFFFF = .error .reservedBitsSet := by decide

/-- R39, R41: the inputs of the formats BUS and AUTO, which carry no bits. -/
theorem test_decode_inputs :
    decode (.busWrite 0x00 0x00010280) = .ok (.wr 0x00 0x00010280) ∧
    decode (.busWrite 0x0E 0x00000102) = .ok (.setNextBuffer true) ∧
    decode (.busRead 0x0E) = .ok (.rd 0x0E) ∧
    decode (.auto .pixel) = .ok .pixel ∧ decode (.auto .dmaRead) = .ok .dmaRead ∧
    decode (.auto .serviceEnter) = .ok .serviceEnter ∧ decode (.auto .waitRelease) = .ok .waitRelease ∧
    decode (.auto .hwReset) = .ok .hwReset := by decide

/-- R43, 95 programs P1 and P2: what the pseudo-instructions expand to. -/
theorem test_pseudo :
    Pseudo.setNextBuffer 0x2000 6 true =
      [.input (.busWrite 0x0C 0x00002000), .input (.busWrite 0x0D 0x00000006),
       .input (.busWrite 0x0E 0x00000102)] ∧
    (Pseudo.configure m0)[0]? = some (.input (.busWrite 0x00 0x00000008)) ∧
    (Pseudo.configure m0)[11]? = some (.input (.busWrite 0x0B 0x00000004)) ∧
    (Pseudo.configure m0)[12]? = some (.input (.busWrite 0x0E 0x00000001)) ∧
    Pseudo.registerCallback = [.input (.busWrite 0x0E 0x00000104)] := by decide

/-- A table row's word is the first thing to run after reset. -/
theorem test_withFetchWord :
    decodeTableWord 32 0x102 = some (.setNextBuffer true) ∧ decodeTableWord 0 0 = none ∧
    (after (step (State.reset.withFetchWord 32 0x104))).map State.cbEn = some true ∧
    (after (step (State.reset.withFetchWord 32 0x3))).map State.refused = some (some .stopBeforeConfigure) := by
  decide

/-- 95 section 2.6: the numbers derived from a preset, and those of M0. -/
theorem test_geometry :
    [m640.ht, m640.vt, m640.ha0, m640.ha1, m640.va0, m640.va1, m640.lb, m640.framePx, m640.serviceWindow]
      = [800, 525, 144, 784, 35, 515, 320, 420000, 36000] ∧
    readsPerFrame m640 .g8 = 19200 ∧
    [m0.ht, m0.vt, m0.ha0, m0.ha1, m0.va0, m0.va1, m0.lb, m0.framePx, m0.serviceWindow]
      = [32, 5, 16, 24, 2, 4, 4, 160, 96] := by decide

/-! ## CONFIGURE (95 section 2.3) -/

/-- The causes that do not depend on the open divider range. -/
theorem test_configure_halts :
    gives .configure (chosen { m0 with ha := 12 }) (fun t => (status t, t.obs))
      = some (0x00002003, [.halt .hNotMult8]) ∧
    gives .configure (chosen { m0 with hbp := 1, bpp := 8 }) (fun t => (status t, t.irqEn)) = some (0x00002003, false) ∧
    gives .configure (chosen { m0 with num := 0, va := 0 }) (fun t => (status t, t.obs))
      = some (0x00003003, [.halt .badRatio]) ∧
    gives .configure (chosen { m0 with den := 0 }) status = some 0x00003003 ∧
    gives .configure State.reset status = some 0x00003003 ∧
    gives .configure running State.refused = some (some .configureTwice) := by decide

/-- The causes behind the divider range, given that it admits 1/1, and the two ends of the handshake. -/
theorem test_configure_ratio (h : Config.ratioInRange 1 1 = true) :
    modeError { m0 with ha := 0 } = some .badTiming ∧ modeError { m0 with vs := 0, bpp := 1 } = some .badTiming ∧
    modeError { m0 with bpp := 8 } = some .badBpp ∧ modeError { m0 with bpp := 0 } = some .badBpp ∧
    modeError { m0 with hfp := 0, hbp := 0, vfp := 0, vbp := 0 } = none ∧
    configureEffect (chosen m0) = resetHandshake (chosen m0) ∧
    status (programTimers { chosen m0 with cbEn := true }) = 0x00000085 ∧
    status (raiseHalt .resetAck (chosen m0)) = 0x00001003 := by
  have e : ∀ m : ModeRegs, m.num = 1 → m.den = 1 → checkRatio m = true := by
    intro m hn hd
    unfold checkRatio Config.validRatio
    rw [hn, hd, h]
    decide
  have k : ∀ m : ModeRegs, checkRatio m = true →
      modeError m = if !checkMult8 m then some .hNotMult8 else if !checkTiming m then some .badTiming
        else if !checkBpp m then some .badBpp else none := by
    intro m hm
    unfold modeError
    rw [hm]
    rfl
  have g : modeError (chosen m0).mode = none := by rw [k _ (e _ rfl rfl)]; decide
  refine ⟨?_, ?_, ?_, ?_, ?_, ?_, by decide, by decide⟩
  · rw [k _ (e _ rfl rfl)]; decide
  · rw [k _ (e _ rfl rfl)]; decide
  · rw [k _ (e _ rfl rfl)]; decide
  · rw [k _ (e _ rfl rfl)]; decide
  · rw [k _ (e _ rfl rfl)]; decide
  · unfold configureEffect; rw [g]; rfl

/-! ## PIXEL (95 sections 2.4, 2.5) -/

/-- The newest item of the observation, and the position. -/
def scan (t : State) : Option Obs × (Nat × Nat) := (t.obs.head?, (t.vline, t.hpos))

/-- Single steps at chosen positions: the sample, and the position after. -/
theorem test_pixel_positions :
    [at' 0 0, at' 0 7, at' 0 8, at' 0 31, at' 1 0, at' 2 15, picture, at' 2 24, at' 3 31, at' 4 31].map
      (fun s => gives .pixel s scan) =
    [some (some (.sample false false 0), (0, 1)), some (some (.sample false false 0), (0, 8)),
     some (some (.sample true false 0), (0, 9)), some (some (.sample true false 0), (1, 0)),
     some (some (.sample false true 0), (1, 1)), some (some (.sample true true 0), (2, 16)),
     some (some (.sample true true 1), (2, 17)), some (some (.sample true true 0), (2, 25)),
     some (some (.sample true true 0), (4, 0)), some (some (.sample true true 0), (0, 0))] := by decide

/-- The four pins. -/
def pins (t : State) : Bool × Bool × Nibble × Bool := (hsyncPin t, vsyncPin t, pixPins t, irqPin t)

/-- R20: during a PIXEL the pins show the sample, and after reset they are 0. -/
theorem test_pins :
    gives .pixel picture pins = some (true, true, 1, false) ∧
    gives .pixel (at' 3 31) pins = some (true, true, 0, true) ∧
    pins State.reset = (false, false, 0, false) := by decide

/-- What the serializer leaves. -/
def shifter (t : State) : Byte × Bool × Nibble × List Byte := (t.curByte, t.curValid, t.pix, t.fq)

/-- What the frame event leaves. -/
def event (t : State) : Bool × Bool × Option FaultMark := (t.fbPending, irqPin t, t.fault)

/-- Section 2.5 and the event rows of section 2.9. -/
theorem test_pixel_serializer :
    [{ picture with fq := [0x21, 0x43] }, midbyte, { picture with hpos := 18, fq := [0x43] },
      { midbyte with hpos := 23, curByte := 0xF0, fq := [] }].map (fun s => gives .pixel s shifter) =
    [some (0x21, true, 0x1, [0x43]), some (0x21, true, 0x2, [0x43, 0x65, 0x87]), some (0x43, true, 0x3, []),
     some (0xF0, true, 0xF, [])] ∧
    bar (exec .pixel held) = some .pixelHeld ∧
    gives .pixel { held with dmaEn := false, curByte := 0x77 } (fun t => (t.curByte, t.curValid, t.draws))
      = some (0x77, false, 1) ∧
    [at' 3 31, { at' 3 31 with irqEn := false, runstate := .stopped }, { at' 3 31 with fbPending := true },
      { at' 3 31 with inService := true }].map (fun s => gives .pixel s event) =
    [some (true, true, none), some (false, false, none), some (true, true, some .eventOverrun),
     some (false, false, some .eventOverrun)] :=
  ⟨by decide, by decide, by decide, by decide⟩

/-! ## SET_NEXT_BUFFER and WAIT_RELEASE (95 sections 2.1, 2.7, 2.12) -/

/-- The granule function. -/
theorem test_gran :
    [gran 0x1000 0x140, gran 0x1004 0x140, gran 0x1002 0x140, gran 0x1006 0x140, gran 0x1001 0x140] =
      [.g8, .g4, .g2, .g2, .g1] ∧
    [gran 0x1000 0x141, gran 0x1000 0x144, gran 0x1000 4, gran 0x1000 6, gran 0x1004 2] =
      [.g1, .g4, .g4, .g2, .g2] ∧
    [gran 0 0, gran 0xFFFFFFF8 0xFFFFFFF8, gran 0xFFFFFFFF 0] = [.g8, .g8, .g1] := by decide

/-- RUNNING in a mode with the operands written. -/
def asked (m : ModeRegs) (ptr pitch : Word) : State := { running with mode := m, argPtr := ptr, argPitch := pitch }

/-- What a SET_NEXT_BUFFER leaves: the refusal, the granule, the wait. -/
def answer (t : State) : Option RefuseReason × Granule × Bool × Bool := (t.refused, t.nextG, t.armed, t.waiting)

/-- Accepted, with the granule chosen. -/
theorem test_setNextBuffer_accepted :
    [asked m0 0x1000 4, asked m0 0x2000 6, asked m0 0x1001 5, asked m0 0x1004 0, asked m0 0x1004 2,
      asked m0 0xFFFFFFF8 4, asked m640 0xFFFDA800 320, { asked m0 0x1000 4 with inService := true }].map
      (fun s => gives (.setNextBuffer false) s answer) =
    [Granule.g4, .g2, .g1, .g4, .g2, .g4, .g8, .g4].map (fun g => some (none, g, true, false)) ∧
    gives (.setNextBuffer true) { asked m0 0x1000 4 with framecount := 7 } (fun t => (answer t, t.waitFc))
      = some ((none, .g4, true, true), 7) := by decide

/-- Refused, in the order of the tests. -/
theorem test_setNextBuffer_refused :
    [asked m0 0x1000 8, asked m0 0x1000 0, asked m0 0xFFFFFFFC 4, asked m640 0xFFFDA808 320, chosen m0,
      stopped].map (fun s => gives (.setNextBuffer false) s State.refused) =
    [some (some .granuleNotDividingLine), some (some .granuleNotDividingLine), some (some .footprintPastEnd),
     some (some .footprintPastEnd), some (some .setBufferWhileNotRunning),
     some (some .setBufferWhileNotRunning)] ∧
    [{ asked m0 0x1000 4 with inService := true }, { stopped with argPtr := 1, argPitch := 8 }].map
      (fun s => gives (.setNextBuffer true) s State.refused) =
    [some (some .waitInsideHandler), some (some .setBufferWhileNotRunning)] := by decide

/-- WAIT_RELEASE, by WAITING, WAIT_FC and FRAMECOUNT. -/
theorem test_waitRelease :
    bar (exec .waitRelease armed) = some .nothingToRelease ∧
    bar (exec .waitRelease (waiting 7)) = some .nothingToRelease ∧
    gives .waitRelease (waiting 8) State.waiting = some false ∧
    gives .waitRelease (waiting 9) State.waiting = some false ∧
    gives .waitRelease { waiting 0 with waitFc := 0xFFFFFFFF } State.waiting = some false := by decide

/-! ## DMA_READ (95 section 2.8) -/

/-- The frame's reads of the second and third rows, by read number. -/
theorem test_readAddr :
    (List.range 4).map (readAddr m0 0x2000 6 .g2) = [0x2000, 0x2002, 0x2006, 0x2008] ∧
    (List.range 8).map (readAddr m0 0x1001 5 .g1) =
      [0x1001, 0x1002, 0x1003, 0x1004, 0x1006, 0x1007, 0x1008, 0x1009] ∧
    readAddr m640 0x20000000 512 .g8 40 = 0x20000200 ∧
    readAddr m640 0x20000000 512 .g8 19199 = 0x2003BF38 := by decide

/-- The state after a read. -/
def reader (t : State) : Nat × Nat × Bool × Option Obs := (t.dmaLine, t.dmaOff, t.dmaEn, t.obs.head?)

/-- Buffer B's frame, a read at a time. -/
def rowB (line off : Nat) : State :=
  { chain with curPtr := 0x2000, curPitch := 6, curG := .g2, dmaLine := line, dmaOff := off }

/-- The position and the enable after each read; the queue's tail takes the bytes in address order. -/
theorem test_dmaRead :
    [rowB 0 0, rowB 0 2, rowB 1 0, rowB 1 2].map (fun s => (dmaBody s).map reader) =
    [some (0, 2, true, some (.dmaRd 0x2000 2)), some (1, 0, true, some (.dmaRd 0x2002 2)),
     some (1, 2, true, some (.dmaRd 0x2006 2)), some (2, 0, false, some (.dmaRd 0x2008 2))] ∧
    (dmaBody chain).map State.fq = some [0x21, 0x43, 0x65, 0x87, 0xA9, 0xCB, 0xED, 0x0F] ∧
    bar (exec .dmaRead { chain with dmaEn := false }) = some .dmaOff :=
  ⟨by decide, by decide, by decide⟩

/-! ## SERVICE_ENTER, EOI, REGISTER_CALLBACK (95 section 2.9) -/

/-- What a service leaves: the frame counter, the event, the handler, the chain, what is observed. -/
def served (t : State) : Word × Bool × Bool × Bool × List Obs :=
  (t.framecount, t.fbPending, t.inService, t.dmaEn, t.obs)

/-- Without and with an armed buffer, without and with a callback. -/
theorem test_serviceEnter :
    [{ pending with armed := false }, pending, { pending with cbEn := true },
      { pending with armed := false, framecount := 0xFFFFFFFF }].map (fun s => gives .serviceEnter s served) =
    [some (1, false, false, false, [.flushReq]), some (1, false, false, true, [.flushReq, .dmaRd 0x1000 4]),
     some (1, false, true, true, [.callback 1, .dmaRd 0x1000 4]), some (0, false, false, false, [.flushReq])] ∧
    gives .serviceEnter pending (fun t => (t.curPtr, t.fq, t.dmaLine, t.dmaOff))
      = some (0x1000, [0x21, 0x43, 0x65, 0x87], 1, 0) :=
  ⟨rfl, by decide⟩

/-- The last position in time, and the first too late. -/
theorem test_serviceEnter_window :
    gives .serviceEnter { pending with vline := 1, hpos := 31 } State.framecount = some 1 ∧
    gives .serviceEnter { pending with vline := 2, hpos := 0 } (fun t => (t.fault, t.framecount, t.obs))
      = some (some .lateService, 0, []) ∧
    bar (exec .serviceEnter armed) = some .noInterrupt := by decide

/-- EOI in and outside the handler. -/
theorem test_eoi :
    gives .eoi handler (fun t => (t.inService, t.obs)) = some (false, [.flushReq]) ∧
    gives .eoi armed State.refused = some (some .eoiOutsideHandler) := by decide

/-- Registering, and removing from inside the handler. -/
theorem test_registerCallback :
    gives (.registerCallback true) armed State.cbEn = some true ∧
    gives (.registerCallback false) handler (fun t => (t.cbEn, t.inService)) = some (false, true) := by decide

/-! ## STOP, NOP, WR, RD, HW_RESET (95 sections 2.10, 2.11, 2.14) -/

/-- STATUS after STOP. -/
theorem test_stop :
    gives .stop chain status = some 0x00000042 ∧
    gives .stop { running with fbPending := true } status = some 0x00000002 ∧
    gives .stop { handler with dmaEn := false } status = some 0x000000D2 ∧
    gives .stop stopped status = some (status stopped) ∧
    gives .stop (chosen m0) State.refused = some (some .stopBeforeConfigure) := by decide

/-- NOP changes nothing, and a blocked or halted host has no such step. -/
theorem test_nop :
    gives .nop running id = some running ∧ bar (exec .nop (waiting 7)) = some .hostBlocked ∧
    bar (exec .nop halted) = some .hostHalted := by decide

/-- Masked to the field, frozen once selected. -/
theorem test_wr_mode :
    gives (.wr 0x00 0x00010280) State.reset (fun t => t.mode.ha) = some 0x0280 ∧
    gives (.wr 0x0A 0xFFFFFFFF) State.reset (fun t => t.mode.pol) = some 3 ∧
    gives (.wr 0x0B 0x104) State.reset (fun t => t.mode.bpp) = some 4 ∧
    gives (.wr 0x00 640) running State.refused = some (some .modeImmutable) ∧
    gives (.wr 0x0B 4) stopped State.refused = some (some .modeImmutable) := by decide

/-- The operands, the read-only registers, and beyond the last one. -/
theorem test_wr_other :
    gives (.wr 0x0C 0xDEADBEEF) armed (fun t => (t.argPtr, t.nextPtr)) = some (0xDEADBEEF, 0x1000) ∧
    gives (.wr 0x0F 0) running State.refused = some (some .writeToReadOnly) ∧
    gives (.wr 0x14 0) running State.refused = some (some .writeToReadOnly) ∧
    gives (.wr 0x15 0) running State.refused = some (some .noSuchRegister) ∧
    gives (.wr 0x0E 0x6) running State.refused = some (some .reservedCommand) := by decide

/-- STATUS and the others as read. -/
theorem test_rd :
    gives (.rd 0x0E) running State.obs = some [.readValue 0x0E 0] ∧
    gives (.rd 0x00) running State.obs = some [.readValue 0x00 8] ∧
    gives (.rd 0x0F) State.reset State.obs = some [.readValue 0x0F 0] ∧
    gives (.rd 0x11) chain State.obs = some [.readValue 0x11 0x1000] ∧
    gives (.rd 0x15) running State.refused = some (some .noSuchRegister) := by decide

/-- The values of STATUS. -/
theorem test_status :
    [status running, status { running with fbPending := true }, status armed, status chain,
      status { handler with waiting := true }] = [0x5, 0xD, 0x45, 0x65, 0x1F5] := by decide

/-- From any state the block is at its reset values; the marks stay. -/
theorem test_hwReset :
    gives .hwReset picture (fun t => (status t, t.fq, t.curG)) = some (0, [], .g1) ∧
    gives .hwReset halted (fun t => (status t, t.mode.ha)) = some (0, 0) ∧
    gives .hwReset (waiting 7) State.waiting = some false ∧
    gives .hwReset { running with refused := some .modeImmutable } State.refused
      = some (some .modeImmutable) := by decide

/-! ## Memory and its visibility (95 section 2.13) -/

/-- The canonical form is kept: entries are sorted, and one that is 0 goes away. -/
theorem test_memory_write :
    Memory.write (Memory.write [(1, 5), (9, 7)] 4 6) 9 0 = [(1, 5), (4, 6)] ∧
    Memory.read [(1, 5), (4, 6)] 4 = 6 ∧ Memory.read [(1, 5), (4, 6)] 3 = 0 := by decide

/-- A store before S_1: both values in frame 1, the new one alone from S_2 on, since F_1 lies between. -/
theorem test_visibility :
    candidates (hostStore 0x2000 0x22 pending) 0x2000 = [0, 0x22] ∧
    gives .serviceEnter (hostStore 0x2000 0x22 pending) (fun t => candidates t 0x2000) = some [0, 0x22] ∧
    candidates (settle (requestFlush (hostStore 0x2000 0x22 pending))) 0x2000 = [0x22] ∧
    latestByte (hostStore 0x2000 0x33 (hostStore 0x2000 0x22 pending)) 0x2000 = 0x33 := by decide

/-! ## States that meet the invariants -/

/-- Buffer A fits M0 with granule 4. -/
theorem bufferA_fits : BufferFits m0 0x1000 4 .g4 := ⟨by decide, by decide, by decide, by decide⟩

/-- A RUNNING state in M0 with buffer A as its only buffer meets the invariant of the block. -/
theorem inv_running {s : State} (hm : s.mem = bufferA) (hq : s.fq.length ≤ 8) (hmode : s.mode = m0)
    (hr : s.runstate = .running ∧ s.irqEn = true ∧ s.haltCause = .none) (hp : s.hpos < 32 ∧ s.vline < 5)
    (hs : s.inService = true → s.fbPending = false)
    (hn : (s.armed, s.nextPtr, s.nextPitch, s.nextG) = (true, 0x1000, 4, .g4))
    (hd : s.dmaEn = true → (s.curPtr, s.curPitch, s.curG) = (0x1000, 4, .g4) ∧
      s.dmaLine < 2 ∧ s.dmaOff < 4 ∧ 4 ∣ s.dmaOff) : BlockInv s := by
  obtain ⟨hr, hi, hc⟩ := hr
  simp only [Prod.mk.injEq] at hn hd
  obtain ⟨n1, n2, n3, n4⟩ := hn
  have ht : TimersRun s := .inl hr
  exact {
    memCanonical := by rw [hm]; decide
    queueBounded := le_trans hq (Nat.le_add_right _ _)
    modeChecked := fun _ => by rw [hmode]; decide
    position := fun _ => by rw [hmode]; exact hp
    haltCauseIff := by rw [hr, hc]; decide
    irqIffRunning := by rw [hr, hi]; decide
    pendingEnabled := fun _ => hi
    serviceAlone := hs
    offQuiet := fun h => absurd ht h
    offPins := fun h => absurd ht h
    dmaArmed := fun _ => ⟨hr, n1⟩
    dmaInFrame := fun h => by
      obtain ⟨⟨-, -, h3⟩, h4, h5, h6⟩ := hd h
      rw [h3, hmode]
      exact ⟨h4, h5, h6⟩
    nextFits := fun _ => by rw [hmode, n2, n3, n4]; exact bufferA_fits
    curFits := fun h => by
      obtain ⟨⟨h1, h2, h3⟩, -⟩ := hd h
      rw [hmode, h1, h2, h3]
      exact bufferA_fits }

/-- A state about to perform an autonomous step. -/
def doing (a : AutoStep) (s : State) : State := { s with schedule := [.input (.auto a)] }

theorem inv_pending : BlockInv pending :=
  inv_running rfl (by decide) rfl (by decide) (by decide) (by decide) (by decide) (by decide)

theorem inv_chain : BlockInv chain :=
  inv_running rfl (by decide) rfl (by decide) (by decide) (by decide) (by decide) (by decide)

theorem inv_held : BlockInv held :=
  inv_running rfl (by decide) rfl (by decide) (by decide) (by decide) (by decide) (by decide)

theorem inv_picture : BlockInv (doing .pixel picture) :=
  inv_running rfl (by decide) rfl (by decide) (by decide) (by decide) (by decide) (by decide)

theorem inv_midbyte : BlockInv (doing .pixel midbyte) :=
  inv_running rfl (by decide) rfl (by decide) (by decide) (by decide) (by decide) (by decide)

/-- The host has a step in a RUNNING state, in the handler even while the foreground waits, and right
after reset. -/
theorem host_running : HostCanAct running := ⟨⟨rfl, rfl⟩, by decide, by decide⟩

theorem host_handler : HostCanAct { handler with waiting := true } := ⟨⟨rfl, rfl⟩, by decide, by decide⟩

theorem host_chosen (m : ModeRegs) : HostCanAct (chosen m) := ⟨⟨rfl, rfl⟩, nofun, nofun⟩

/-- A DMA read of the chain has room whatever FQ_CAP is. -/
theorem read_chain : exec .dmaRead chain = orPastAddressSpace (dmaBody chain) := by
  show execDmaRead chain = _
  have h : dmaBar chain = none := dmaBar_none.mpr ⟨.inl rfl, rfl, Nat.le_add_right _ _⟩
  unfold execDmaRead whenEnabled
  rw [h]
  rfl

/-- The chain's second read. -/
def chainRead : State := (dmaAdvance (emit (drawn (pushRead chain)) (.dmaRd 0x1004 4)))

theorem next_chain : exec .dmaRead chain = .next chainRead := by
  rw [read_chain]
  rfl

/-- What an enabled operation answers is no "not enabled". -/
theorem enabled_of_next {o : Host.Outcome State Fault Refusal} (h : (after o).isSome = true) :
    ∀ why, o ≠ .refused (.notEnabled why) := by
  rintro why rfl
  exact Bool.false_ne_true h

/-! ## Witnesses: concrete states and operands that meet the hypotheses of each statement -/

theorem witness_DecodeEncodeRoundTrip :
    wellFormed (.setNextBuffer true) = true ∧ wellFormed (.wr 0x0D 0xFFFFFFFF) = true ∧
    wellFormed (.wr 0x0F 0) = true := by decide

theorem witness_DecodedInputIsEncoding :
    decode (.busWrite 0x0E 0x00000102) = .ok (.setNextBuffer true) ∧ decode (.busWrite 0x0F 3) = .ok (.wr 0x0F 3) ∧
    decode (.auto .hwReset) = .ok .hwReset := by decide

theorem witness_ReservedIsRefused :
    HostCanAct running ∧ 6 ≤ (0x00000006 : Word).toNat % 256 ∧ 512 ≤ (0x00000200 : Word).toNat ∧
    ((0x00000105 : Word).getLsbD 8 = true ∧ (0x00000105 : Word).toNat % 256 ∈ [0, 1, 3, 5]) ∧
    0x15 ≤ (0x15 : Nat) := ⟨host_running, by decide⟩

theorem witness_BusWriteToCmdIsCommand : decodeCommand 0x00000003 = .ok .stop := by decide

theorem witness_StepRunsDecodedInput :
    ((doing .pixel running).schedule = .input (.auto .pixel) :: [] ∧ decode (.auto .pixel) = .ok .pixel ∧
      ∀ why, exec .pixel { doing .pixel running with schedule := [] } ≠ .refused (.notEnabled why)) ∧
    exec .pixel { doing .pixel State.reset with schedule := [] } = .refused (.notEnabled .timersOff) ∧
    decodeTableWord 32 0x104 = some (.registerCallback true) ∧
    ∀ why, exec (.registerCallback true) State.reset ≠ .refused (.notEnabled why) :=
  ⟨⟨rfl, rfl, enabled_of_next rfl⟩, rfl, by decide, enabled_of_next rfl⟩

theorem witness_EmptyScheduleStep :
    (Unmarked running ∧ running.schedule = []) ∧
    (Unmarked (chosen m0) ∧ (chosen m0).runstate = .unconfigured ∧ (chosen m0).schedule = []) :=
  ⟨⟨⟨rfl, rfl⟩, rfl⟩, ⟨rfl, rfl⟩, rfl, rfl⟩

theorem witness_HostStoreIsLatestWrite :
    Unmarked { picture with schedule := [.hostStore 0x1000 0x22] } ∧
    { picture with schedule := [.hostStore 0x1000 0x22] }.schedule = .hostStore 0x1000 0x22 :: [] :=
  ⟨⟨rfl, rfl⟩, rfl⟩

theorem witness_WaitBlocksForeground :
    (Unmarked (waiting 7) ∧ (waiting 7).runstate ≠ .halted ∧ (waiting 7).waiting = true ∧
      (waiting 7).inService = false ∧ isHostOp (.rd 0x10) = true) ∧
    (Unmarked { handler with waiting := true } ∧ handler.runstate ≠ .halted ∧ handler.inService = true) :=
  ⟨⟨⟨rfl, rfl⟩, by decide⟩, ⟨rfl, rfl⟩, by decide⟩

theorem witness_HaltedAllowsOnlyReset : Unmarked halted ∧ halted.runstate = .halted ∧ Instr.pixel ≠ .hwReset :=
  ⟨⟨rfl, rfl⟩, rfl, by decide⟩

/-- After LATE_SERVICE, and after a refusal. -/
def faulted : State := { pending with vline := 2, fault := some .lateService }

def refusedState : State := { running with refused := some .modeImmutable }

theorem witness_MarkEndsRun :
    Instr.pixel ≠ .hwReset ∧ faulted.fault = some .lateService ∧
    refusedState.fault = none ∧ refusedState.refused = some .modeImmutable := by decide

theorem witness_MarksNeverCleared :
    (exec .hwReset faulted = .next (hwResetEffect faulted) ∧ faulted.fault ≠ none) ∧
    (step (doing .hwReset refusedState) = .next (hwResetEffect refusedState) ∧ refusedState.refused ≠ none) :=
  ⟨⟨rfl, by decide⟩, rfl, by decide⟩

theorem witness_AutonomousStepsEnabled :
    Unmarked running ∧ (exec .pixel running = .next (pixelEffect running)) ∧ exec .dmaRead chain = .next chainRead ∧
    (after (exec .serviceEnter pending)).isSome = true ∧ (after (exec .waitRelease (waiting 8))).isSome = true :=
  ⟨⟨rfl, rfl⟩, rfl, next_chain, rfl, rfl⟩

theorem witness_NopChangesNothing : HostCanAct running ∧ HostCanAct { handler with waiting := true } :=
  ⟨host_running, host_handler⟩

theorem witness_ConfigureOutcome :
    (HostCanAct running ∧ running.runstate ≠ .unconfigured) ∧
    (HostCanAct (chosen m0) ∧ (chosen m0).runstate = .unconfigured) :=
  ⟨⟨host_running, by decide⟩, host_chosen m0, rfl⟩

/-- Where the divider range admits 1/1 and the reset-acknowledge clears, M0 is accepted. -/
theorem witness_ConfigureSucceeds (h : Config.ratioInRange 1 1 = true) (k : Config.resetAckClears 0 = true) :
    exec .configure (chosen m0) = .next (programTimers (drawn (chosen m0))) := by
  rw [show exec .configure (chosen m0) = .next (configureEffect (chosen m0)) from rfl,
    (test_configure_ratio h).2.2.2.2.2.1]
  unfold resetHandshake
  rw [show (chosen m0).draws = 0 from rfl, k]
  rfl

theorem witness_ZeroRatioHalts :
    HostCanAct State.reset ∧ State.reset.runstate = .unconfigured ∧ State.reset.mode.ha.toNat % 8 = 0 ∧
    State.reset.mode.hfp.toNat % 8 = 0 ∧ State.reset.mode.hs.toNat % 8 = 0 ∧
    State.reset.mode.hbp.toNat % 8 = 0 ∧ (State.reset.mode.num = 0 ∨ State.reset.mode.den = 0) :=
  ⟨host_chosen State.reset.mode, by decide⟩

theorem witness_SetNextBufferOutcome :
    HostCanAct (asked m0 0x1000 4) ∧ HostCanAct { asked m0 0x1000 4 with inService := true } ∧
    HostCanAct (asked m0 0x1000 8) ∧ HostCanAct (asked m0 0xFFFFFFFC 4) ∧ HostCanAct (chosen m0) :=
  ⟨⟨⟨rfl, rfl⟩, nofun, nofun⟩, ⟨⟨rfl, rfl⟩, nofun, nofun⟩, ⟨⟨rfl, rfl⟩, nofun, nofun⟩,
    ⟨⟨rfl, rfl⟩, nofun, nofun⟩, host_chosen m0⟩

theorem witness_GranuleIsLargestDivisor :
    4 ∈ [8, 4, 2, 1] ∧ 4 ∣ (0x1004 : Word).toNat ∧ 4 ∣ (0x140 : Word).toNat ∧ gran 0x1004 0x140 = .g4 := by decide

theorem witness_StopOutcome :
    (HostCanAct (chosen m0) ∧ (chosen m0).runstate = .unconfigured) ∧
    (HostCanAct running ∧ running.runstate ≠ .unconfigured) :=
  ⟨⟨host_chosen m0, rfl⟩, host_running, by decide⟩

theorem witness_RegisterCallbackOutcome : HostCanAct running ∧ HostCanAct State.reset :=
  ⟨host_running, host_chosen State.reset.mode⟩

theorem witness_EoiOutcome :
    (HostCanAct { handler with waiting := true } ∧ handler.inService = true) ∧
    (HostCanAct running ∧ running.inService = false) := ⟨⟨host_handler, rfl⟩, host_running, rfl⟩

theorem witness_WrOutcome :
    HostCanAct running ∧ running.runstate ≠ .unconfigured ∧
    (HostCanAct (chosen m0) ∧ (chosen m0).runstate = .unconfigured) ∧
    decodeCommand 0x00000005 = .ok .eoi ∧ decodeCommand 0x00000006 = .error .reservedOp ∧
    0x15 ≤ (0x15 : Nat) ∧ (0x0B : Nat) ≤ 0x0B ∧ (0x0F : Nat) ≤ 0x14 :=
  ⟨host_running, by decide, ⟨host_chosen m0, rfl⟩, by decide⟩

theorem witness_RdOutcome : HostCanAct chain ∧ 0x15 ≤ (0x15 : Nat) := ⟨⟨⟨rfl, rfl⟩, nofun, nofun⟩, by decide⟩

/-- Each run state, and each halt cause, with STATUS as R8 and R89 number them. -/
theorem witness_StatusFields :
    [State.reset, running, stopped, halted].map State.runstate
      = [.unconfigured, .running, .stopped, .halted] ∧
    [HaltCause.none, .resetAck, .hNotMult8, .badRatio, .badTiming, .badBpp].map
      (fun c => status { halted with haltCause := c }) =
    [0x00000003, 0x00001003, 0x00002003, 0x00003003, 0x00004003, 0x00005003] := by decide

theorem witness_ModeIsImmutable :
    (running.runstate ≠ .unconfigured ∧ exec .pixel running = .next (pixelEffect running) ∧
      Instr.pixel ≠ .hwReset) ∧ HostCanAct running ∧ (0x0B : Nat) ≤ 0x0B :=
  ⟨⟨by decide, rfl, by decide⟩, host_running, by decide⟩

/-- The first active pixel of an armed frame, with its byte queued, is not held. -/
theorem not_held : ¬ PixelHeld picture := fun h => absurd h.2.2.1 (by decide)

theorem witness_PixelEmitsSample :
    (Unmarked picture ∧ TimersRun picture ∧ ¬ PixelHeld picture) ∧
    (Unmarked stopped ∧ TimersRun stopped ∧ ¬ PixelHeld stopped) ∧
    State.reset.runstate = .unconfigured ∧ halted.runstate = .halted :=
  ⟨⟨⟨rfl, rfl⟩, .inl rfl, not_held⟩, ⟨⟨rfl, rfl⟩, .inr rfl, fun h => absurd h.2.2.2 (by decide)⟩, rfl, rfl⟩

/-- The first two active pixels of an armed frame. -/
theorem active_picture : AtActivePixel picture ∧ (picture.hpos - picture.mode.ha0) % 2 = 0 := by
  unfold AtActivePixel; decide

theorem active_midbyte : AtActivePixel midbyte ∧ (midbyte.hpos - midbyte.mode.ha0) % 2 = 1 := by
  unfold AtActivePixel; decide

theorem witness_PixelSerializer :
    (exec .pixel running = .next (pixelEffect running) ∧ ¬ AtActivePixel running) ∧
    (exec .pixel picture = .next (pixelEffect picture) ∧ AtActivePixel picture ∧ picture.fq ≠ []) ∧
    (exec .pixel { held with dmaEn := false } = .next (pixelEffect { held with dmaEn := false }) ∧
      held.fq = []) ∧
    (exec .pixel midbyte = .next (pixelEffect midbyte) ∧ AtActivePixel midbyte ∧ midbyte.curValid = true) ∧
    exec .pixel { midbyte with curValid := false } = .next (pixelEffect { midbyte with curValid := false }) := by
  have h : ¬ AtActivePixel running := by unfold AtActivePixel; decide
  exact ⟨⟨rfl, h⟩, ⟨rfl, active_picture.1, nofun⟩, ⟨rfl, rfl⟩, ⟨rfl, active_midbyte.1, rfl⟩, rfl⟩

theorem witness_PixelAdvancesAndRaisesEvent :
    exec .pixel (at' 3 31) = .next (pixelEffect (at' 3 31)) ∧ (pixelEffect (at' 3 31)).vline = 4 ∧
    m0.va0 ≤ 3 ∧ 3 < m0.va1 ∧ ¬ (4 < m0.va1) ∧
    exec .pixel { at' 3 31 with fbPending := true } = .next (pixelEffect { at' 3 31 with fbPending := true }) ∧
    exec .pixel { at' 3 31 with irqEn := false } = .next (pixelEffect { at' 3 31 with irqEn := false }) :=
  ⟨rfl, by decide, by decide, by decide, by decide, rfl, rfl⟩

theorem held_held : PixelHeld held := ⟨active_picture.1, by decide, rfl, rfl⟩

theorem witness_SupplyHoldsPixel : Unmarked held ∧ TimersRun held ∧ BlockInv held ∧ PixelHeld held :=
  ⟨⟨rfl, rfl⟩, .inl rfl, inv_held, held_held⟩

theorem witness_DmaReadOutcome :
    Unmarked chain ∧ TimersRun chain ∧ chain.dmaEn = true ∧
    chain.fq.length + chain.curG.bytes ≤ Config.fqCap ∧
    chain.curPtr.toNat + chain.dmaLine * chain.curPitch.toNat + chain.dmaOff + chain.curG.bytes ≤ 2 ^ 32 :=
  ⟨⟨rfl, rfl⟩, .inl rfl, rfl, Nat.le_add_right _ _, by decide⟩

theorem witness_ReadSeesCandidate : exec .dmaRead chain = .next chainRead ∧ chainRead.fq.length = 8 :=
  ⟨next_chain, by decide⟩

theorem witness_ReadsAlignedInFootprint :
    (BlockInv chain ∧ exec .dmaRead chain = .next chainRead) ∧
    (BlockInv pending ∧ (∃ t, exec .serviceEnter pending = .next t) ∧ vaActive pending = false ∧
      pending.armed = true) ∧
    exec .pixel running = .next (pixelEffect running) :=
  ⟨⟨inv_chain, next_chain⟩, ⟨inv_pending, ⟨_, rfl⟩, by decide, rfl⟩, rfl⟩

theorem witness_ReadOrder :
    BlockInv chain ∧ exec .dmaRead chain = .next chainRead ∧ fetched chain = 1 * chain.curG.bytes :=
  ⟨inv_chain, next_chain, by decide⟩

theorem witness_ChainEndsWithFrame :
    BlockInv chain ∧ exec .dmaRead chain = .next chainRead ∧ chainRead.dmaEn = false ∧ fetched chainRead = 8 :=
  ⟨inv_chain, next_chain, by decide, by decide⟩

/-- An event still pending at the first and at the last active line. -/
theorem witness_LateServiceFaults :
    Unmarked { pending with vline := 2 } ∧ pending.runstate = .running ∧ pending.irqEn = true ∧
    pending.fbPending = true ∧ pending.inService = false ∧ (m0.va0 ≤ 2 ∧ 2 < m0.va1) ∧
    (m0.va0 ≤ 3 ∧ 3 < m0.va1) := ⟨⟨rfl, rfl⟩, by decide⟩

/-- With and without a buffer armed. -/
theorem witness_ServiceEnterOutcome :
    Unmarked pending ∧ pending.runstate = .running ∧ pending.irqEn = true ∧ pending.fbPending = true ∧
    pending.inService = false ∧ ¬ (pending.mode.va0 ≤ pending.vline ∧ pending.vline < pending.mode.va1) ∧
    (pending.armed = true → pending.nextPtr.toNat + pending.nextG.bytes ≤ 2 ^ 32) ∧
    running.armed = false := ⟨⟨rfl, rfl⟩, by decide⟩

/-- A store that a flush request has followed, at the address asked about. -/
def storedBefore : State := { pending with flushed := [⟨0x1000, 0x22⟩], fresh := [⟨0x1004, 0x33⟩] }

theorem witness_ServiceMakesFlushedVisible :
    BlockInv storedBefore ∧ (∃ t, exec .serviceEnter storedBefore = .next t) ∧
    ¬ (storedBefore.mode.va0 ≤ storedBefore.vline ∧ storedBefore.vline < storedBefore.mode.va1) ∧
    (∀ w ∈ storedBefore.fresh, w.addr.toNat ≠ 0x1000) ∧ latestByte storedBefore 0x1000 = 0x22 ∧
    storedBefore.cbEn = false ∧ (exec .eoi handler = .next (eoiEffect handler) ∧ handler.inService = true) :=
  ⟨inv_running rfl (by decide) rfl (by decide) (by decide) (by decide) (by decide) (by decide), ⟨_, rfl⟩, by decide,
    by decide, by decide, rfl, rfl, rfl⟩

theorem witness_WaitReleaseOutcome :
    (Unmarked (waiting 8) ∧ TimersRun (waiting 8) ∧ (waiting 8).waiting = true ∧
      (waiting 8).framecount ≠ (waiting 8).waitFc) ∧
    (waiting 7).framecount = (waiting 7).waitFc ∧ armed.waiting = false :=
  ⟨⟨⟨rfl, rfl⟩, .inl rfl, rfl, by decide⟩, rfl, rfl⟩

theorem witness_OneSamplePerPixel :
    exec .pixel running = .next (pixelEffect running) ∧
    (exec .nop running = .next running ∧ Instr.nop ≠ .pixel ∧ Instr.nop ≠ .hwReset ∧
      running.runstate ≠ .unconfigured) := ⟨rfl, rfl, by decide⟩

theorem witness_ObservationIsNotRead :
    exec .eoi handler = .next (eoiEffect handler) ∧ exec .pixel faulted = .fault (.runEnded .lateService) ∧
    exec .pixel State.reset = .refused (.notEnabled .timersOff) := ⟨rfl, rfl, rfl⟩

theorem witness_FrameCounterCountsServices :
    ((∃ t, exec .serviceEnter pending = .next t) ∧ vaActive pending = false) ∧
    (exec .serviceEnter { pending with vline := 2 } = .next faulted ∧ vaActive { pending with vline := 2 } = true) ∧
    exec .hwReset chain = .next (hwResetEffect chain) := ⟨⟨⟨_, rfl⟩, by decide⟩, ⟨rfl, by decide⟩, rfl⟩

theorem witness_BufferRegisterWriters :
    gives .serviceEnter pending State.curPtr = some 0x1000 ∧ pending.curPtr = 0 ∧ Instr.serviceEnter ≠ .hwReset ∧
    gives (.setNextBuffer false) (asked m0 0x1000 4) State.nextPtr = some 0x1000 ∧
    (asked m0 0x1000 4).nextPtr = 0 ∧ gives (.wr 0x0C 1) running State.argPtr = some 1 ∧
    gives (.wr 0x0D 1) running State.argPitch = some 1 ∧ armed.armed = true := by decide

theorem witness_RunStateTransitions :
    exec .stop running = .next (stopEffect running) ∧ Instr.stop ≠ .hwReset ∧
    exec .configure (chosen m0) = .next (configureEffect (chosen m0)) := ⟨rfl, by decide, rfl⟩

/-- Each flag set and cleared; IRQ_EN is set where the divider range admits 1/1 and the handshake clears. -/
theorem witness_InterruptFlagWriters :
    TimersRun running ∧ (∀ s, (programTimers s).irqEn = true) ∧
    gives .stop running State.irqEn = some false ∧ running.irqEn = true ∧
    gives .pixel (at' 3 31) State.fbPending = some true ∧ (at' 3 31).fbPending = false ∧
    gives .serviceEnter pending State.fbPending = some false ∧ pending.fbPending = true ∧
    gives .serviceEnter { pending with cbEn := true } State.inService = some true ∧ pending.inService = false ∧
    gives .eoi handler State.inService = some false ∧ handler.inService = true ∧
    gives (.registerCallback true) running State.cbEn = some true ∧ running.cbEn = false :=
  ⟨.inl rfl, fun _ => rfl, by decide⟩

theorem witness_HandlerNotReentered :
    TimersRun handler ∧ handler.inService = true ∧ exec .eoi handler = .next (eoiEffect handler) ∧
    exec .pixel handler = .next (pixelEffect handler) ∧ Instr.eoi ≠ .hwReset := ⟨.inl rfl, rfl, rfl, rfl, by decide⟩

theorem witness_WaitEndsOnlyAfterCount :
    (exec .waitRelease (waiting 8) = .next { waiting 8 with waiting := false } ∧ Instr.waitRelease ≠ .hwReset ∧
      (waiting 8).waiting = true) ∧
    gives (.setNextBuffer true) (asked m0 0x1000 4) State.refused = some none :=
  ⟨⟨rfl, by decide, rfl⟩, by decide⟩

theorem witness_OnlyConfigureHalts :
    gives .configure (chosen { m0 with ha := 12 }) State.runstate = some .halted ∧
    (chosen { m0 with ha := 12 }).runstate ≠ .halted := by decide

theorem witness_BlockNeverWritesMemory :
    BlockInv storedBefore ∧ ∃ t, exec .serviceEnter storedBefore = .next t :=
  ⟨witness_ServiceMakesFlushedVisible.1, _, rfl⟩

theorem witness_MemoryFrame :
    exec .pixel picture = .next (pixelEffect picture) ∧ Instr.pixel ≠ .serviceEnter ∧
    exec .eoi handler = .next (eoiEffect handler) := ⟨rfl, by decide, rfl⟩

/-- The balance of supply at the first pixel and in the middle of its byte. -/
theorem flowing_picture : SupplyFlowing (doing .pixel picture) ∧ ¬ SupplyIdle (doing .pixel picture) :=
  ⟨by unfold SupplyFlowing; decide, fun h => absurd h.2.1 (by decide)⟩

theorem flowing_midbyte : SupplyFlowing (doing .pixel midbyte) ∧ ¬ SupplyIdle (doing .pixel midbyte) :=
  ⟨by unfold SupplyFlowing; decide, fun h => absurd h.2.1 (by decide)⟩

theorem picture_picture : PictureInv (doing .pixel picture) :=
  ⟨⟨rfl, rfl⟩, fun _ => .inr ⟨flowing_picture.1, by decide, fun _ h => absurd h (by decide)⟩⟩

theorem picture_midbyte : PictureInv (doing .pixel midbyte) :=
  ⟨⟨rfl, rfl⟩, fun _ => .inr ⟨flowing_midbyte.1, by decide, fun _ _ => by decide⟩⟩

theorem witness_StepKeepsInvariant :
    BlockInv (doing .pixel picture) ∧ step (doing .pixel picture) = .next (pixelEffect picture) :=
  ⟨inv_picture, rfl⟩

theorem witness_StepKeepsSupply :
    BlockInv (doing .pixel picture) ∧ SupplyInv (doing .pixel picture) ∧
    step (doing .pixel picture) = .next (pixelEffect picture) :=
  ⟨inv_picture, fun _ => .inr flowing_picture.1, rfl⟩

theorem witness_StepKeepsPicture :
    BlockInv (doing .pixel picture) ∧ PictureInv (doing .pixel picture) ∧ NoStoreNext (doing .pixel picture) ∧
    step (doing .pixel picture) = .next (pixelEffect picture) :=
  ⟨inv_picture, picture_picture, nofun, rfl⟩

/-- An even and an odd column. -/
theorem witness_ArmedPixelShowsBuffer :
    (BlockInv (doing .pixel picture) ∧ PictureInv (doing .pixel picture) ∧ picture.runstate = .running ∧
      ¬ SupplyIdle (doing .pixel picture) ∧ AtActivePixel (doing .pixel picture) ∧
      (after (exec .pixel (doing .pixel picture))).isSome = true) ∧
    (BlockInv (doing .pixel midbyte) ∧ PictureInv (doing .pixel midbyte) ∧ midbyte.runstate = .running ∧
      ¬ SupplyIdle (doing .pixel midbyte) ∧ AtActivePixel (doing .pixel midbyte) ∧
      (after (exec .pixel (doing .pixel midbyte))).isSome = true) :=
  ⟨⟨inv_picture, picture_picture, rfl, flowing_picture.2, active_picture.1, rfl⟩,
    inv_midbyte, picture_midbyte, rfl, flowing_midbyte.2, active_midbyte.1, rfl⟩

theorem witness_NoReadPastAddressSpace : BlockInv pending ∧ BlockInv chain := ⟨inv_pending, inv_chain⟩

/-- A run of three PIXEL steps from (0, 0). -/
theorem witness_PositionAfterPixels :
    0 < m0.ht ∧ 0 < m0.vt ∧ (nextPosition m0)^[3] (4, 30) = (0, 1) ∧
    ((at' 0 0).vline, (at' 0 0).hpos) = (0, 0) ∧
    ∀ k, k < 3 → (at' 0 k).mode = m0 ∧ ∃ t, exec .pixel (at' 0 k) = .next t ∧
      (at' 0 (k + 1)).vline = t.vline ∧ (at' 0 (k + 1)).hpos = t.hpos := by
  refine ⟨by decide, by decide, by decide, rfl, fun k hk => ⟨rfl, pixelEffect (at' 0 k), rfl, ?_⟩⟩
  revert k
  decide

/-- A pending interrupt at a position. -/
def lateBy (v h : Nat) : State := { pending with vline := v, hpos := h }

/-- The PIXEL that raises the event, and the last service in time and the first late one, 95 and 96 pixel
periods later. -/
theorem witness_ServiceWindowIsB :
    (exec .pixel (at' 3 31) = .next (pixelEffect (at' 3 31)) ∧ (at' 3 31).fbPending = false ∧
      (pixelEffect (at' 3 31)).fbPending = true) ∧
    checkTiming m0 = true ∧ 95 < m0.serviceWindow ∧ m0.serviceWindow ≤ 96 ∧ 96 < m0.framePx ∧
    (nextPosition m0)^[95] (m0.va1 % m0.vt, 0) = ((lateBy 1 31).vline, (lateBy 1 31).hpos) ∧
    (nextPosition m0)^[96] (m0.va1 % m0.vt, 0) = ((lateBy 2 0).vline, (lateBy 2 0).hpos) ∧
    ∀ v h, (lateBy v h).mode = m0 ∧ Unmarked (lateBy v h) ∧ (lateBy v h).runstate = .running ∧
      (lateBy v h).irqEn = true ∧ (lateBy v h).fbPending = true ∧ (lateBy v h).inService = false ∧
      (lateBy v h).armed = true ∧ (lateBy v h).nextPtr.toNat + (lateBy v h).nextG.bytes ≤ 2 ^ 32 :=
  ⟨⟨rfl, rfl, by decide⟩, by decide, by decide, by decide, by decide, by decide +kernel, by decide +kernel,
    fun _ _ => ⟨rfl, ⟨rfl, rfl⟩, rfl, rfl, rfl, rfl, rfl,
      by show (0x1000 : Word).toNat + Granule.g4.bytes ≤ 2 ^ 32; decide⟩⟩

end Sys2Proof.Tests
end

section
/-! SUPPORT. Settles the statements of spec/00_scope.md: the scheduling of a decoded input (R4), the sample
of a pixel period and the writers of the scan position (R4, R10), and the valid divider range (R2). -/

namespace Sys2Proof.Machine

/-! ## A scheduled input -/

/-- An outcome that is no `notEnabled` is passed on as it is. -/
theorem passOver_of_enabled {s : State} {o : Host.Outcome State Fault Refusal}
    (h : ∀ why, o ≠ .refused (.notEnabled why)) : passOver s o = o := by
  cases o with
  | next t => rfl
  | fault r => rfl
  | refused r =>
    cases r with
    | notModelled mnemonic => rfl
    | runEnded m => rfl
    | notEnabled why => exact absurd rfl (h why)

/-- A step whose next event decodes to `i` is `exec i` from the state whose schedule has moved on, passed
over where it is not enabled. -/
theorem step_of_decoded {s : State} {x : Input} {rest : List Event} {i : Instr}
    (hs : s.schedule = .input x :: rest) (hd : decode x = .ok i) :
    step s = passOver (afterEvent rest s) (exec i (afterEvent rest s)) := by
  unfold step nextStep
  rw [hs]
  dsimp only [runEvent]
  unfold runInput
  rw [hd]

/-- The command word of a row decodes, as a write to CMD, to the row's instruction. -/
theorem decode_of_decodeTableWord {nbits w : Nat} {i : Instr} (h : decodeTableWord nbits w = some i) :
    decode (.busWrite cmdRegister (tableWord nbits w)) = .ok i := by
  unfold decodeTableWord at h
  split_ifs at h
  cases hd : decode (.busWrite cmdRegister (tableWord nbits w)) with
  | ok j => rw [hd] at h; cases h; rfl
  | error e => rw [hd] at h; cases h

/-- Settles O7: the step is the passed-over `exec`, and `passOver` is read off the outcome. -/
theorem stepRunsDecodedInput : Obligations.StepRunsDecodedInput := by
  refine ⟨fun s x rest i hs hd => ⟨fun he => ?_, fun ⟨why, hw⟩ => ?_⟩, fun s nbits w i hd he => ?_⟩
  · exact (step_of_decoded hs hd).trans (passOver_of_enabled he)
  · exact (step_of_decoded hs hd).trans (congrArg (passOver (afterEvent rest s)) hw)
  · exact (step_of_decoded rfl (decode_of_decodeTableWord hd)).trans (passOver_of_enabled he)

/-! ## Samples and the scan position -/

@[simp] theorem sampleCount_sample (h v : Bool) (px : Nibble) (l : List Obs) :
    sampleCount (.sample h v px :: l) = sampleCount l + 1 := by simp [sampleCount]
@[simp] theorem sampleCount_callback (fc : Word) (l : List Obs) :
    sampleCount (.callback fc :: l) = sampleCount l := by simp [sampleCount]
@[simp] theorem sampleCount_flushReq (l : List Obs) :
    sampleCount (.flushReq :: l) = sampleCount l := by simp [sampleCount]
@[simp] theorem sampleCount_dmaRd (a n : Nat) (l : List Obs) :
    sampleCount (.dmaRd a n :: l) = sampleCount l := by simp [sampleCount]
@[simp] theorem sampleCount_halt (c : HaltCause) (l : List Obs) :
    sampleCount (.halt c :: l) = sampleCount l := by simp [sampleCount]
@[simp] theorem sampleCount_readValue (n : Nat) (v : Word) (l : List Obs) :
    sampleCount (.readValue n v :: l) = sampleCount l := by simp [sampleCount]

/-- What an operation other than PIXEL does to the scan: no sample, and the position stays once a mode is
selected (R4, R10). -/
def LeavesScan (s t : State) : Prop :=
  sampleCount t.obs = sampleCount s.obs ∧
  (s.runstate ≠ .unconfigured → t.hpos = s.hpos ∧ t.vline = s.vline)

/-- CONFIGURE, where it programs the timers, is the one host operation that writes the position, and it does
so in UNCONFIGURED. -/
theorem HostMove.leavesScan {s t : State} {i : Instr} (h : HostMove s i t) : LeavesScan s t := by
  cases h with
  | program hr => exact ⟨rfl, fun hn => absurd hr hn⟩
  | _ => exact ⟨by simp, fun _ => ⟨rfl, rfl⟩⟩

theorem dmaBody_leavesScan {s t : State} (h : dmaBody s = some t) : LeavesScan s t := by
  obtain ⟨-, rfl⟩ := dmaBody_some.mp h
  exact ⟨by simp, fun _ => by simp⟩

/-- The frame service emits a read, a callback or a flush request, never a sample. -/
theorem Rearmed.leavesScan {s u : State} (h : Rearmed s u) : LeavesScan s u := by
  obtain ⟨-, rfl⟩ | ⟨-, -, rfl⟩ := h
  · exact ⟨rfl, fun _ => ⟨rfl, rfl⟩⟩
  · exact ⟨by simp [firstRead], fun _ => ⟨rfl, rfl⟩⟩

theorem exec_leavesScan {s : State} :
    ∀ i t, exec i s = .next t → i ≠ .pixel → i ≠ .hwReset → LeavesScan s t := by
  apply exec_moves
  case host => exact fun _ _ _ h _ _ _ => h.leavesScan
  case command => exact fun _ _ _ _ _ h _ _ _ _ => h.leavesScan
  case pixel => exact fun _ _ _ h => absurd rfl h
  case read => exact fun _ _ _ _ _ h _ _ => dmaBody_leavesScan h
  case late => exact fun _ _ _ _ _ _ _ _ => ⟨rfl, fun _ => ⟨rfl, rfl⟩⟩
  case service =>
    intro _ _ _ _ _ _ u hu
    obtain ⟨hcount, hpos⟩ := hu.leavesScan
    exact ⟨fun _ _ _ => ⟨by simpa using hcount, hpos⟩, fun _ _ _ => ⟨by simpa using hcount, hpos⟩⟩
  case release => exact fun _ _ _ _ _ _ => ⟨rfl, fun _ => ⟨rfl, rfl⟩⟩
  case reset => exact fun _ h => absurd rfl h

/-- Settles O42: PIXEL's one sample is the item its record of writes adds, HW_RESET keeps the observation,
and every other operation leaves the scan alone. -/
theorem oneSamplePerPixel : Obligations.OneSamplePerPixel := by
  intro i s t h
  by_cases hp : i = .pixel
  · subst hp
    obtain ⟨-, -, rfl⟩ := execPixel_next.mp h
    exact ⟨by rw [pixelEffect_obs, sampleCount_sample, if_pos rfl], fun hn => absurd rfl hn⟩
  rw [if_neg hp, Nat.add_zero]
  by_cases hr : i = .hwReset
  · subst hr
    obtain rfl : hwResetEffect s = t := Host.Outcome.next.inj h
    exact ⟨rfl, fun _ hn => absurd rfl hn⟩
  · obtain ⟨hcount, hpos⟩ := exec_leavesScan i t h hp hr
    exact ⟨hcount, fun _ _ => hpos⟩

/-! ## The divider range -/

theorem validRatio_zero_left (n : Half) : Config.validRatio 0 n = false := by
  simp [Config.validRatio]

theorem validRatio_zero_right (n : Half) : Config.validRatio n 0 = false := by
  simp [Config.validRatio]

/-- A mode that passes K2 and fails K3 has the error BAD_RATIO (R47). -/
theorem modeError_badRatio {m : ModeRegs} (h2 : checkMult8 m = true) (h3 : checkRatio m = false) :
    modeError m = some .badRatio := by
  simp [modeError, h2, h3]

/-- In UNCONFIGURED a mode error halts the block with its cause (R47, R88). -/
theorem exec_configure_of_modeError {s : State} {c : HaltCause} (hc : HostCanAct s)
    (hr : s.runstate = .unconfigured) (he : modeError s.mode = some c) :
    exec .configure s = .next (raiseHalt c s) := by
  refine (exec_hostOp_next rfl).mpr ⟨hc, ?_⟩
  show raiseHalt c s = configureEffect s
  unfold configureEffect
  rw [if_neg (not_not.mpr hr), he]

/-- Settles O17: a zero part fails K3, and with K2 passed K3 is the first failing check. -/
theorem zeroRatioHalts : Obligations.ZeroRatioHalts := by
  refine ⟨fun n => ⟨validRatio_zero_right n, validRatio_zero_left n⟩, ?_⟩
  intro s hc hr hha hhfp hhs hhbp hz
  have h2 : checkMult8 s.mode = true := by simp [checkMult8, hha, hhfp, hhs, hhbp]
  have h3 : checkRatio s.mode = false := by
    unfold checkRatio
    obtain hnum | hden := hz
    · rw [hnum, validRatio_zero_left]
    · rw [hden, validRatio_zero_right]
  exact ⟨_, exec_configure_of_modeError hc hr (modeError_badRatio h2 h3), rfl, rfl⟩

end Sys2Proof.Machine
end

section
/-! SUPPORT. Settles the statements of spec/10_state.md about the invariant of the block: every step keeps it and
reset meets it. -/

namespace Sys2Proof.Machine

/-! ## The invariant of the block -/

/-- The invariant speaks of none of the fields listed here: whatever writes only these keeps it. -/
theorem BlockInv.of_unread {s t : State} (h : BlockInv s)
    (e : t = { s with
      argPtr := t.argPtr, argPitch := t.argPitch, framecount := t.framecount, cbEn := t.cbEn
      waitFc := t.waitFc, curByte := t.curByte, curValid := t.curValid, fault := t.fault
      refused := t.refused, flushed := t.flushed, fresh := t.fresh, schedule := t.schedule
      draws := t.draws, obs := t.obs }) : BlockInv t := by
  rw [e]
  exact { h with }

/-- Hardware reset leaves a state that meets the invariant, whatever memory holds in canonical form (R22). -/
theorem blockInv_hwResetEffect {s : State} (h : Memory.wf s.mem) : BlockInv (hwResetEffect s) where
  memCanonical := h
  queueBounded := Nat.zero_le _
  modeChecked := fun ht => by simp [TimersRun, State.reset] at ht
  position := fun ht => by simp [TimersRun, State.reset] at ht
  haltCauseIff := by simp [State.reset]
  irqIffRunning := by simp [State.reset]
  pendingEnabled := nofun
  serviceAlone := nofun
  offQuiet := fun _ => ⟨rfl, rfl, rfl⟩
  offPins := fun _ => ⟨rfl, rfl, rfl⟩
  dmaArmed := nofun
  dmaInFrame := nofun
  nextFits := nofun
  curFits := nofun

theorem not_timersRun_of_unconfigured {s : State} (hr : s.runstate = .unconfigured) : ¬ TimersRun s := by
  simp [TimersRun, hr]

/-- Outside RUNNING no chain is enabled. -/
theorem BlockInv.dmaOff {s : State} (h : BlockInv s) (hr : s.runstate ≠ .running) : s.dmaEn = false :=
  Bool.eq_false_iff.mpr fun hd => hr (h.dmaArmed hd).1

/-- A Halt from UNCONFIGURED: nothing is at work there that would have to be stopped (R88). -/
theorem BlockInv.raiseHalt {s : State} (h : BlockInv s) (hr : s.runstate = .unconfigured) {c : HaltCause}
    (hc : c ≠ .none) : BlockInv (raiseHalt c s) :=
  have hoff := not_timersRun_of_unconfigured hr
  have timersOff : ¬ TimersRun (Machine.raiseHalt c s) := by simp [TimersRun]
  { h with
    modeChecked := fun ht => absurd ht timersOff
    position := fun ht => absurd ht timersOff
    haltCauseIff := by simp [hc]
    irqIffRunning := by simp
    pendingEnabled := nofun
    serviceAlone := fun _ => rfl
    offQuiet := fun _ => h.offQuiet hoff
    offPins := fun _ => h.offPins hoff
    dmaArmed := nofun
    dmaInFrame := nofun
    curFits := nofun }

/-- The cause of a mode error is a cause. -/
theorem modeError_ne_none {m : ModeRegs} {c : HaltCause} (h : modeError m = some c) : c ≠ .none := by
  obtain rfl | rfl | rfl | rfl := modeError_some h <;> decide

/-- A mode that passes the checks has room for a position. -/
theorem frame_pos_of_checkTiming {m : ModeRegs} (h : checkTiming m = true) : 0 < m.ht ∧ 0 < m.vt := by
  obtain ⟨hha, -, hva, -⟩ := (checkTiming_iff m).mp h
  unfold ModeRegs.ht ModeRegs.vt
  omega

/-- A successful CONFIGURE starts the scan of a checked mode at (0, 0) (R48). -/
theorem BlockInv.programTimers {s : State} (h : BlockInv s) (hr : s.runstate = .unconfigured)
    (he : modeError s.mode = none) : BlockInv (programTimers s) :=
  have hoff := not_timersRun_of_unconfigured hr
  have hmode := modeError_none he
  have hon : TimersRun (Machine.programTimers s) := .inl rfl
  { h with
    queueBounded := Nat.zero_le _
    modeChecked := fun _ => hmode
    position := fun _ => frame_pos_of_checkTiming hmode.2.1
    haltCauseIff := by simpa [hr] using h.haltCauseIff
    irqIffRunning := by simp
    pendingEnabled := nofun
    serviceAlone := fun _ => rfl
    offQuiet := fun ho => absurd hon ho
    offPins := fun ho => absurd hon ho
    dmaArmed := nofun
    dmaInFrame := nofun
    curFits := nofun }

/-- An accepted buffer fits: SET_NEXT_BUFFER has checked what the granule does not give (R63). -/
theorem BlockInv.armDescriptor {s : State} (h : BlockInv s) (hr : s.runstate = .running)
    (hg : (gran s.argPtr s.argPitch).bytes ∣ s.mode.lb)
    (hf : footprintEnd s.mode s.argPtr s.argPitch ≤ 2 ^ 32) : BlockInv (armDescriptor s) :=
  { h with
    offQuiet := fun ho => absurd (Or.inl hr) ho
    dmaArmed := fun _ => ⟨hr, rfl⟩
    nextFits := fun _ => ⟨(gran_dvd _ _).1, (gran_dvd _ _).2, hg, hf⟩ }

/-- A wait may begin and end while the timers run. -/
theorem BlockInv.setWaiting {s : State} (h : BlockInv s) (ht : TimersRun s) (fc : Word) (b : Bool) :
    BlockInv { s with waitFc := fc, waiting := b } :=
  { h with offQuiet := fun ho => absurd ht ho }

/-- STOP turns off what needs RUNNING and leaves the timers as they are (R80). -/
theorem BlockInv.stop {s : State} (h : BlockInv s) (ht : TimersRun s) :
    BlockInv { s with irqEn := false, fbPending := false, dmaEn := false, runstate := .stopped } :=
  have hon : TimersRun { s with irqEn := false, fbPending := false, dmaEn := false, runstate := .stopped } :=
    .inr rfl
  have hnone : s.haltCause = .none := h.haltCauseIff.mpr (by obtain e | e := ht <;> simp [e])
  { h with
    modeChecked := fun _ => h.modeChecked ht
    position := fun _ => h.position ht
    haltCauseIff := by simp [hnone]
    irqIffRunning := by simp
    pendingEnabled := nofun
    serviceAlone := fun _ => rfl
    offQuiet := fun ho => absurd hon ho
    offPins := fun ho => absurd hon ho
    dmaArmed := nofun
    dmaInFrame := nofun
    curFits := nofun }

/-- The handler may be left. -/
theorem BlockInv.leaveService {s : State} (h : BlockInv s) : BlockInv { s with inService := false } :=
  { h with
    serviceAlone := nofun
    offQuiet := fun ho => ⟨rfl, (h.offQuiet ho).2⟩ }

/-- The handler may be entered while the timers run and no event is pending. -/
theorem BlockInv.enterService {s : State} (h : BlockInv s) (ht : TimersRun s) (hp : s.fbPending = false) :
    BlockInv { s with inService := true } :=
  { h with
    serviceAlone := fun _ => hp
    offQuiet := fun ho => absurd ht ho }

/-- The mode may be written before CONFIGURE: nothing depends on it there (R82, R85). -/
theorem BlockInv.setMode {s : State} (h : BlockInv s) (hr : s.runstate = .unconfigured) (m : ModeRegs) :
    BlockInv { s with mode := m } :=
  have hoff := not_timersRun_of_unconfigured hr
  have hdma : s.dmaEn = false := h.dmaOff (by simp [hr])
  have harmed : s.armed = false := (h.offQuiet hoff).2.2
  { h with
    modeChecked := fun ht => absurd ht hoff
    position := fun ht => absurd ht hoff
    dmaInFrame := fun hd => by simp [hdma] at hd
    nextFits := fun ha => by simp [harmed] at ha
    curFits := fun hd => by simp [hdma] at hd }

/-- The host keeps the invariant, move by move. -/
theorem BlockInv.hostMove {s t : State} {i : Instr} (h : BlockInv s) (hc : HostCanAct s) (m : HostMove s i t) :
    BlockInv t := by
  cases m with
  | nop => exact h
  | refuse => exact h.of_unread rfl
  | haltMode c hr he => exact h.raiseHalt hr (modeError_ne_none he)
  | haltAck hr he => exact BlockInv.raiseHalt (s := drawn s) (h.of_unread rfl) hr (by decide)
  | program hr he => exact BlockInv.programTimers (s := drawn s) (h.of_unread rfl) hr he
  | arm hr hg hf => exact h.armDescriptor hr hg hf
  | armWait hr _ hg hf => exact (h.armDescriptor hr hg hf).setWaiting (.inl hr) _ _
  | stop hr =>
    refine h.stop ?_
    obtain ⟨-, hh, -⟩ := hc
    unfold TimersRun
    cases e : s.runstate <;> simp_all
  | callback => exact h.of_unread rfl
  | eoi => exact BlockInv.leaveService (s := requestFlush s) (h.of_unread rfl)
  | writeMode n v _ hr => exact h.setMode hr _
  | writePtr => exact h.of_unread rfl
  | writePitch => exact h.of_unread rfl
  | read => exact h.of_unread rfl

/-! ### The DMA reader -/

theorem memRead_length (s : State) (a n : Nat) : (memRead s a n).length = n := by simp [memRead]

/-- A read of an enabled chain leaves the position at a granule of a line, and ends the chain where no line
is left (R68, R69). -/
theorem BlockInv.dmaAdvance {s : State} (h : BlockInv s) (hd : s.dmaEn = true) : BlockInv (dmaAdvance s) := by
  obtain ⟨hline, hoff, hdvd⟩ := h.dmaInFrame hd
  have hlb := (h.curFits hd).lineDivided
  have hroom := granule_fits hoff hdvd hlb
  obtain ⟨hne, e⟩ | ⟨-, e⟩ := dmaAdvance_cases s <;> rw [e]
  · exact { h with
      dmaInFrame := fun _ => ⟨hline, lt_of_le_of_ne hroom hne, (Nat.dvd_add_right hdvd).mpr dvd_rfl⟩ }
  · exact { h with
      dmaArmed := fun _ => h.dmaArmed hd
      dmaInFrame := fun hd' => by
        refine ⟨?_, by show 0 < s.mode.lb; omega, dvd_zero _⟩
        have hnext : s.dmaLine + 1 ≠ s.mode.va.toNat := by simpa [hd] using hd'
        show s.dmaLine + 1 < s.mode.va.toNat
        omega
      curFits := fun _ => h.curFits hd }

/-- One read of an enabled chain, with room in the queue for it (R68). -/
theorem BlockInv.dmaBody {s t : State} (h : BlockInv s) (hd : s.dmaEn = true)
    (hq : s.fq.length + s.curG.bytes ≤ Config.fqCap) (e : dmaBody s = some t) : BlockInv t := by
  obtain ⟨-, rfl⟩ := dmaBody_some.mp e
  refine BlockInv.dmaAdvance (.of_unread (s := pushRead s) { h with queueBounded := ?_ } rfl) hd
  simpa [memRead_length] using hq

/-- The queued buffer may become the current one while RUNNING (R74). -/
theorem BlockInv.loadDescriptor {s : State} (h : BlockInv s) (hr : s.runstate = .running)
    (ha : s.armed = true) : BlockInv (loadDescriptor s) :=
  have g := geometry h (.inl hr)
  { h with
    queueBounded := Nat.zero_le _
    dmaArmed := fun _ => ⟨hr, ha⟩
    dmaInFrame := fun _ => ⟨g.vaPos, g.lbPos, dvd_zero _⟩
    curFits := fun _ => h.nextFits ha }

/-! ### The frame service -/

theorem BlockInv.settle {s : State} (h : BlockInv s) : BlockInv (settle s) :=
  { h with memCanonical := Memory.wf_settle h.memCanonical }

/-- The re-arm of the frame service, from a RUNNING block (R74). -/
theorem BlockInv.rearmed {s u : State} (h : BlockInv s) (hr : s.runstate = .running) (hu : Rearmed s u) :
    BlockInv u := by
  obtain ⟨-, rfl⟩ | ⟨ha, hspace, rfl⟩ := hu
  · exact h.settle
  · refine (h.settle.loadDescriptor hr ha).dmaBody rfl ?_ (dmaBody_loadDescriptor.mpr ⟨hspace, rfl⟩)
    have hg := (Machine.settle s).nextG.bytes_le
    simp only [loadDescriptor_fq, loadDescriptor_curG, List.length_nil, Config.fqCap]
    omega

/-- Counting the frame clears the pending event (R75). -/
theorem BlockInv.countFrame {s : State} (h : BlockInv s) : BlockInv (countFrame s) :=
  { h with
    pendingEnabled := nofun
    serviceAlone := fun _ => rfl }

theorem Rearmed.runstate_eq {s u : State} (hu : Rearmed s u) : u.runstate = s.runstate := by
  obtain ⟨-, rfl⟩ | ⟨-, -, rfl⟩ := hu <;> rfl

/-! ### PIXEL -/

/-- The serializer only takes from the queue. -/
theorem serialize_fq_length_le (s : State) : (serialize s).1.fq.length ≤ s.fq.length := by
  have hshift : ∀ u : State, (shiftOut u).1.fq = u.fq := fun u => by unfold shiftOut; split_ifs <;> rfl
  have hload : (loadByte s).fq.length ≤ s.fq.length := by
    unfold loadByte
    split <;> simp_all
  obtain ⟨-, e⟩ | ⟨-, -, e⟩ | ⟨-, -, e⟩ := serialize_cases s <;> rw [e]
  · rw [hshift]
  · rwa [hshift]

/-- An event PIXEL leaves pending was pending before, or is raised with the interrupt enabled and no service
running (R72). -/
theorem pixelEffect_fbPending {s : State} (h : (pixelEffect s).fbPending = true) :
    s.fbPending = true ∨ (s.irqEn = true ∧ s.inService = false) := by
  by_cases hf : frameEnds s
  · rw [(pixelEffect_event hf).1] at h
    obtain ⟨-, e⟩ | ⟨hi, -, hs, -⟩ | ⟨-, -, e⟩ := frameEvent_cases s
    · exact .inl (e ▸ h)
    · exact .inr ⟨hi, hs⟩
    · exact .inl (by rw [e] at h; exact h)
  · exact .inl ((pixelEffect_noEvent hf).1 ▸ h)

/-- From a position of the frame the scan moves to one of the frame (R62). -/
theorem nextPosition_mem_frame {m : ModeRegs} {v h : Nat} (hv : v < m.vt) (hh : h < m.ht) :
    (nextPosition m (v, h)).2 < m.ht ∧ (nextPosition m (v, h)).1 < m.vt := by
  unfold nextPosition
  dsimp only
  split_ifs <;> omega

/-- PIXEL keeps the invariant: what it writes of it are the queue, the position, the pending event and the
pins (R52). -/
theorem BlockInv.pixelEffect {s : State} (h : BlockInv s) (ht : TimersRun s) : BlockInv (pixelEffect s) := by
  obtain ⟨hpos, hline⟩ := h.position ht
  have hmove := nextPosition_mem_frame hline hpos
  rw [← pixelEffect_position] at hmove
  have hpending := @pixelEffect_fbPending s
  have hqueue := le_trans (serialize_fq_length_le s) h.queueBounded
  rw [pixelEffect_frame] at *
  exact { h with
    queueBounded := hqueue
    position := fun _ => hmove
    pendingEnabled := fun hp => (hpending hp).elim h.pendingEnabled And.left
    serviceAlone := fun hs => Bool.eq_false_iff.mpr fun hp => by
      obtain hp | ⟨-, hn⟩ := hpending hp
      · simp [h.serviceAlone hs] at hp
      · exact absurd hs (by simp [hn])
    offPins := fun ho => absurd ht ho }

/-! ### Every step -/

/-- Every operation keeps the invariant, by the moves of its agent. -/
theorem BlockInv.exec {s : State} (h : BlockInv s) : ∀ i t, exec i s = .next t → BlockInv t := by
  apply exec_moves
  case host => exact fun _ _ _ m hc => h.hostMove hc m
  case command => exact fun _ _ _ _ _ _ _ ht => ht
  case pixel => exact fun _ ht _ => h.pixelEffect ht
  case read => exact fun _ _ hd hq _ e => h.dmaBody hd hq e
  case late => exact fun _ _ _ _ _ _ => h.of_unread rfl
  case service =>
    intro _ hr _ _ _ _ u hu
    have hcount := (h.rearmed hr hu).countFrame
    have hon : TimersRun (Machine.countFrame u) := .inl (hu.runstate_eq.trans hr)
    exact ⟨fun _ => .of_unread (hcount.enterService hon rfl) rfl, fun _ => hcount.of_unread rfl⟩
  case release => exact fun _ ht _ _ => h.setWaiting ht _ _
  case reset => exact blockInv_hwResetEffect h.memCanonical

/-- Settles O54: a step is an operation from a state that differs in the schedule or the draw counter, or
writes only fields the invariant does not speak of. -/
theorem stepKeepsInvariant : Obligations.StepKeepsInvariant := by
  intro s t h hs
  obtain ⟨x, rest, i, -, -, he⟩ | ⟨a, -, -, he⟩ | ⟨rest, -, rfl⟩ | ⟨a, b, rest, -, rfl⟩ | ⟨rest, rfl⟩ :=
    step_cases hs
  · exact BlockInv.exec (s := afterEvent rest s) (h.of_unread rfl) i t he
  · exact BlockInv.exec (s := drawn s) (h.of_unread rfl) _ t he
  · exact h.of_unread rfl
  · exact h.of_unread rfl
  · exact h.of_unread rfl

/-- Settles O53: reset is a hardware reset of itself; in UNCONFIGURED supply and picture say nothing. -/
theorem invariantsHoldAtReset : Obligations.InvariantsHoldAtReset :=
  ⟨blockInv_hwResetEffect (s := State.reset) Memory.wf_reset, nofun, ⟨rfl, rfl⟩, nofun⟩

end Sys2Proof.Machine
end

section
/-! SUPPORT. Settles the statements of spec/10_state.md about the marks (R18), STATUS (R8) and the reset values
(R22). -/

namespace Sys2Proof.Machine

/-! ## The marks -/

/-- A mark that was set before is the same after (R18). -/
def KeepsMarks (s t : State) : Prop :=
  (s.fault ≠ none → t.fault = s.fault) ∧ (s.refused ≠ none → t.refused = s.refused)

/-- Where no mark is set there is none to keep. -/
theorem Unmarked.keepsMarks {s : State} (h : Unmarked s) (t : State) : KeepsMarks s t :=
  ⟨fun hf => absurd h.1 hf, fun hr => absurd h.2 hr⟩

/-- After a mark HW_RESET alone is enabled, and it leaves the marks (R84). -/
theorem exec_keepsMarks {s : State} : ∀ i t, exec i s = .next t → KeepsMarks s t := by
  apply exec_moves
  case host => exact fun _ _ _ _ hc => hc.1.keepsMarks _
  case command => exact fun _ _ _ _ _ _ _ ht => ht
  case pixel => exact fun hu _ _ => hu.keepsMarks _
  case read => exact fun hu _ _ _ _ _ => hu.keepsMarks _
  case late => exact fun hu _ _ _ _ _ => hu.keepsMarks _
  case service => exact fun hu _ _ _ _ _ _ _ => ⟨fun _ => hu.keepsMarks _, fun _ => hu.keepsMarks _⟩
  case release => exact fun hu _ _ _ => hu.keepsMarks _
  case reset => exact ⟨fun _ => rfl, fun _ => rfl⟩

/-- Settles O13: a step is an operation, the refusal of a reserved word, which no marked state makes, or
writes neither mark. -/
theorem marksNeverCleared : Obligations.MarksNeverCleared := by
  refine ⟨fun i s t => exec_keepsMarks i t, fun s t hs => ?_⟩
  obtain ⟨x, rest, i, -, -, he⟩ | ⟨a, -, -, he⟩ | ⟨rest, hc, rfl⟩ | ⟨a, b, rest, -, rfl⟩ | ⟨rest, rfl⟩ :=
    step_cases hs
  · exact exec_keepsMarks (s := afterEvent rest s) i t he
  · exact exec_keepsMarks (s := drawn s) _ t he
  · exact hc.1.keepsMarks _
  · exact ⟨fun _ => rfl, fun _ => rfl⟩
  · exact ⟨fun _ => rfl, fun _ => rfl⟩

/-! ## STATUS and the reset state -/

/-- The two code fields of STATUS and its reserved bits. -/
theorem status_codes (s : State) :
    (status s).extractLsb' 0 2 = runCode s.runstate ∧ (status s).extractLsb' 9 3 = 0 ∧
    (status s).extractLsb' 12 4 = haltCode s.haltCause ∧ (status s).extractLsb' 16 16 = 0 := by
  unfold status
  simp only [BitVec.extractLsb'_append_eq_ite]
  simp

/-- The single bits of STATUS. -/
theorem status_flags (s : State) :
    (status s).getLsbD 2 = s.irqEn ∧ (status s).getLsbD 3 = s.fbPending ∧
    (status s).getLsbD 4 = s.inService ∧ (status s).getLsbD 5 = s.dmaEn ∧
    (status s).getLsbD 6 = s.armed ∧ (status s).getLsbD 7 = s.cbEn ∧
    (status s).getLsbD 8 = s.waiting := by
  unfold status
  simp only [BitVec.getLsbD_append]
  simp

/-- Settles O25: the code fields are the codes of the run state and of the halt cause. -/
theorem statusFields : Obligations.StatusFields := by
  intro s
  obtain ⟨hrun, hzero, hcause, hhigh⟩ := status_codes s
  obtain ⟨hirq, hpending, hservice, hdma, harmed, hcb, hwaiting⟩ := status_flags s
  rw [hrun, hcause]
  refine ⟨?_, hirq, hpending, hservice, hdma, harmed, hcb, hwaiting, hzero, ?_, hhigh⟩
  · cases s.runstate <;> simp [runCode]
  · cases s.haltCause <;> simp [haltCode]

/-- Settles O41: registers and STATUS are evaluated; no address is listed or stored to. -/
theorem resetStateValues : Obligations.ResetStateValues := by
  refine ⟨?_, by decide, rfl, rfl, rfl, rfl, rfl, rfl, ⟨⟨rfl, rfl⟩, by decide⟩, fun _ => rfl⟩
  intro n hn
  interval_cases n <;> rfl

end Sys2Proof.Machine
end

section
/-! SUPPORT. Settles the statement of spec/10_state.md about the observation (R21): every operation commutes with
putting older items under the observation. -/

namespace Sys2Proof.Machine

/-! ## The observation -/

/-- The state with the items of `l`, older than all its own, under its observation. -/
def withOlder (l : List Obs) (s : State) : State := { s with obs := s.obs ++ l }

/-- An outcome with its next state, if it has one, mapped. -/
def mapNext (f : State → State) : Host.Outcome State Fault Refusal → Host.Outcome State Fault Refusal
  | .next t => .next (f t)
  | .fault r => .fault r
  | .refused r => .refused r

theorem mapNext_next {f : State → State} {k : Host.Outcome State Fault Refusal} {t : State} :
    mapNext f k = .next t ↔ ∃ u, k = .next u ∧ t = f u := by
  cases k <;> simp [mapNext, @eq_comm _ t]

theorem mapNext_fault {f : State → State} {k : Host.Outcome State Fault Refusal} {r : Fault} :
    mapNext f k = .fault r ↔ k = .fault r := by
  cases k <;> simp [mapNext]

theorem mapNext_refused {f : State → State} {k : Host.Outcome State Fault Refusal} {r : Refusal} :
    mapNext f k = .refused r ↔ k = .refused r := by
  cases k <;> simp [mapNext]

section
variable (l : List Obs) (s : State)

/-! ### The shared operations -/

theorem dmaAdvance_withOlder : dmaAdvance (withOlder l s) = withOlder l (dmaAdvance s) := by
  unfold dmaAdvance
  rw [apply_ite (withOlder l)]
  rfl

theorem dmaBody_withOlder : dmaBody (withOlder l s) = (dmaBody s).map (withOlder l) := by
  unfold dmaBody
  rw [apply_ite (Option.map (withOlder l)), Option.map_some, ← dmaAdvance_withOlder]
  rfl

theorem rearm_withOlder : rearm (withOlder l s) = (rearm s).map (withOlder l) := by
  unfold rearm
  rw [apply_ite (Option.map (withOlder l)), ← dmaBody_withOlder]
  rfl

theorem frameEvent_withOlder : frameEvent (withOlder l s) = withOlder l (frameEvent s) := by
  unfold frameEvent
  rw [apply_ite (withOlder l), apply_ite (withOlder l)]
  rfl

theorem takeFrameInterrupt_withOlder :
    takeFrameInterrupt (withOlder l s) = (takeFrameInterrupt s).map (withOlder l) := by
  have e : rearm (settle (withOlder l s)) = (rearm (settle s)).map (withOlder l) := rearm_withOlder l (settle s)
  unfold takeFrameInterrupt
  rw [e]
  cases rearm (settle s) with
  | none => rfl
  | some u =>
    dsimp only [Option.map_some]
    rw [apply_ite (withOlder l)]
    rfl

theorem loadByte_withOlder : loadByte (withOlder l s) = withOlder l (loadByte s) := by
  have hfq : (withOlder l s).fq = s.fq := rfl
  unfold loadByte
  rw [hfq]
  cases s.fq <;> rfl

theorem shiftOut_withOlder : shiftOut (withOlder l s) = (withOlder l (shiftOut s).1, (shiftOut s).2) := by
  have hvalid : (withOlder l s).curValid = s.curValid := rfl
  unfold shiftOut
  rw [hvalid]
  cases s.curValid <;> rfl

theorem serialize_withOlder :
    serialize (withOlder l s) = (withOlder l (serialize s).1, (serialize s).2) := by
  obtain ⟨ha, e⟩ | ⟨ha, hx, e⟩ | ⟨ha, hx, e⟩ := serialize_cases s <;> rw [e]
  · exact serialize_blank (s := withOlder l s) ha
  · rw [serialize_odd (s := withOlder l s) ha hx, shiftOut_withOlder]
  · rw [serialize_even (s := withOlder l s) ha hx, loadByte_withOlder, shiftOut_withOlder]

theorem advance_withOlder : advance (withOlder l s) = withOlder l (advance s) := by
  have e : (if vaFalls (withOlder l s) then frameEvent (withOlder l s) else withOlder l s) =
      withOlder l (if vaFalls s then frameEvent s else s) := by
    rw [apply_ite (withOlder l), frameEvent_withOlder]
    rfl
  unfold advance
  rw [apply_ite (withOlder l), e]
  rfl

theorem pixelEffect_withOlder : pixelEffect (withOlder l s) = withOlder l (pixelEffect s) := by
  rw [pixelEffect_eq, pixelEffect_eq, ← advance_withOlder]
  unfold beforeAdvance
  rw [serialize_withOlder]
  rfl

/-! ### The host's effects -/

theorem configureEffect_withOlder : configureEffect (withOlder l s) = withOlder l (configureEffect s) := by
  have hmode : (withOlder l s).mode = s.mode := rfl
  unfold configureEffect resetHandshake
  rw [hmode, apply_ite (withOlder l)]
  cases modeError s.mode with
  | some c => rfl
  | none => dsimp only; rw [apply_ite (withOlder l)]; rfl

theorem setNextBufferEffect_withOlder (wait : Bool) :
    setNextBufferEffect wait (withOlder l s) = withOlder l (setNextBufferEffect wait s) := by
  have hrefusal : setNextBufferRefusal wait (withOlder l s) = setNextBufferRefusal wait s := rfl
  unfold setNextBufferEffect
  rw [hrefusal]
  cases setNextBufferRefusal wait s with
  | some why => rfl
  | none => cases wait <;> rfl

theorem stopEffect_withOlder : stopEffect (withOlder l s) = withOlder l (stopEffect s) := by
  unfold stopEffect
  rw [apply_ite (withOlder l)]
  rfl

theorem eoiEffect_withOlder : eoiEffect (withOlder l s) = withOlder l (eoiEffect s) := by
  unfold eoiEffect
  rw [apply_ite (withOlder l)]
  rfl

theorem rdEffect_withOlder (n : Nat) : rdEffect n (withOlder l s) = withOlder l (rdEffect n s) := by
  have hread : readReg (withOlder l s) n = readReg s n := rfl
  unfold rdEffect
  rw [hread]
  cases readReg s n <;> rfl

/-- A command word performs the same command. -/
theorem hostEffect_withOlder_of_isCommand {i : Instr} (h : isCommand i = true) :
    hostEffect i (withOlder l s) = withOlder l (hostEffect i s) := by
  cases i with
  | nop => rfl
  | configure => exact configureEffect_withOlder l s
  | setNextBuffer wait => exact setNextBufferEffect_withOlder l s wait
  | stop => exact stopEffect_withOlder l s
  | registerCallback enable => rfl
  | eoi => exact eoiEffect_withOlder l s
  | wr n v => cases h
  | rd n => cases h
  | pixel => cases h
  | dmaRead => cases h
  | serviceEnter => cases h
  | waitRelease => cases h
  | hwReset => cases h

theorem commandEffect_withOlder (w : Word) :
    commandEffect w (withOlder l s) = withOlder l (commandEffect w s) := by
  unfold commandEffect
  cases h : decodeCommand w with
  | error e => rfl
  | ok i =>
    have hc := isCommand_of_decode h
    dsimp only
    rw [performCommand_eq hc, performCommand_eq hc, hostEffect_withOlder_of_isCommand l s hc]

theorem wrEffect_withOlder (n : Nat) (v : Word) :
    wrEffect n v (withOlder l s) = withOlder l (wrEffect n v s) := by
  have hmode : modeWriteEffect n v (withOlder l s) = withOlder l (modeWriteEffect n v s) := by
    unfold modeWriteEffect
    rw [apply_ite (withOlder l)]
    rfl
  unfold wrEffect
  rw [hmode, commandEffect_withOlder]
  split_ifs <;> rfl

theorem hostEffect_withOlder (i : Instr) : hostEffect i (withOlder l s) = withOlder l (hostEffect i s) := by
  by_cases hc : isCommand i = true
  · exact hostEffect_withOlder_of_isCommand l s hc
  cases i with
  | wr n v => exact wrEffect_withOlder l s n v
  | rd n => exact rdEffect_withOlder l s n
  | pixel => rfl
  | dmaRead => rfl
  | serviceEnter => rfl
  | waitRelease => rfl
  | hwReset => rfl
  | _ => exact absurd rfl hc

/-! ### Every operation -/

/-- No enabling condition sees the observation: only a next state carries the older items on. -/
theorem whenEnabled_withOlder (bar : Option NotEnabled) (k : Host.Outcome State Fault Refusal) :
    whenEnabled bar (withOlder l s) (mapNext (withOlder l) k) = mapNext (withOlder l) (whenEnabled bar s k) := by
  have hfault : (withOlder l s).fault = s.fault := rfl
  have hrefused : (withOlder l s).refused = s.refused := rfl
  unfold whenEnabled unlessEnded
  rw [hfault, hrefused]
  cases s.fault <;> cases s.refused <;> cases bar <;> rfl

theorem orPastAddressSpace_map (o : Option State) :
    orPastAddressSpace (o.map (withOlder l)) = mapNext (withOlder l) (orPastAddressSpace o) := by
  cases o <;> rfl

/-- Every operation commutes with older items under the observation. -/
theorem exec_withOlder (i : Instr) : exec i (withOlder l s) = mapNext (withOlder l) (exec i s) := by
  by_cases hi : isHostOp i = true
  · rw [exec_hostOp hi, exec_hostOp hi]
    unfold hostStep
    rw [hostEffect_withOlder]
    exact whenEnabled_withOlder l s (hostBar s) (.next (hostEffect i s))
  cases i with
  | pixel =>
    show execPixel (withOlder l s) = mapNext (withOlder l) (execPixel s)
    unfold execPixel
    rw [pixelEffect_withOlder]
    exact whenEnabled_withOlder l s (pixelBar s) (.next (pixelEffect s))
  | dmaRead =>
    show execDmaRead (withOlder l s) = mapNext (withOlder l) (execDmaRead s)
    unfold execDmaRead
    rw [dmaBody_withOlder, orPastAddressSpace_map]
    exact whenEnabled_withOlder l s (dmaBar s) _
  | serviceEnter =>
    show execServiceEnter (withOlder l s) = mapNext (withOlder l) (execServiceEnter s)
    unfold execServiceEnter
    rw [takeFrameInterrupt_withOlder, orPastAddressSpace_map, ← whenEnabled_withOlder, apply_ite (mapNext _)]
    rfl
  | waitRelease => exact whenEnabled_withOlder l s (releaseBar s) (.next { s with waiting := false })
  | hwReset => rfl
  | _ => exact absurd rfl hi

end

/-- What an operation adds to the observation is at most two items; two only where the frame service makes
the first read of a frame. -/
theorem exec_obs_length_le {s : State} : ∀ i t, exec i s = .next t → t.obs.length ≤ s.obs.length + 2 := by
  apply exec_moves
  case host => intro _ _ _ m _; cases m <;> simp
  case command => exact fun _ _ _ _ _ _ _ h => h
  case pixel => intro _ _ _; simp [pixelEffect_obs]
  case read =>
    intro _ _ _ _ t h
    obtain ⟨-, rfl⟩ := dmaBody_some.mp h
    simp
  case late => intro _ _ _ _ _ _; simp
  case service =>
    intro _ _ _ _ _ _ u hu
    have hread : u.obs.length ≤ s.obs.length + 1 := by
      obtain ⟨-, rfl⟩ | ⟨-, -, rfl⟩ := hu <;> simp [firstRead]
    constructor <;> intro _ <;> simpa using hread
  case release => intro _ _ _ _; simp
  case reset => simp

/-- The state as if nothing had been observed. -/
def unobserved (s : State) : State := { s with obs := [] }

/-- Settles O43: both states are the state with an empty observation over older items, and what that state
observes is what the operation adds. -/
theorem observationIsNotRead : Obligations.ObservationIsNotRead := by
  intro i s o
  have hs : exec i s = mapNext (withOlder s.obs) (exec i (unobserved s)) :=
    exec_withOlder s.obs (unobserved s) i
  have ho : exec i { s with obs := o } = mapNext (withOlder o) (exec i (unobserved s)) :=
    exec_withOlder o (unobserved s) i
  rw [hs, ho]
  refine ⟨fun t ht => ?_, fun r hr => ?_, fun r hr => ?_⟩
  · obtain ⟨u, hu, rfl⟩ := mapNext_next.mp ht
    exact ⟨u.obs, exec_obs_length_le i u hu, rfl, mapNext_next.mpr ⟨u, hu, rfl⟩⟩
  · exact mapNext_fault.mpr (mapNext_fault.mp hr)
  · exact mapNext_refused.mpr (mapNext_refused.mp hr)

end Sys2Proof.Machine
end

section
/-! SUPPORT. Settles the statements of spec/10_state.md about the writers of its elements: RUNSTATE (R11), the
interrupt flags (R12), the buffer registers (R9, R19) and the wait (R16). -/

namespace Sys2Proof.Machine

/-! ## Commands and the words that carry them -/

/-- The operation `i` is the command or autonomous step `c`, or the bus write of the word of `c` to CMD. -/
def Performs (i c : Instr) : Prop := i = c ∨ ∃ w, i = .wr 0x0E w ∧ decodeCommand w = .ok c

/-- What is no command is performed by itself alone. -/
theorem Performs.eq {i c : Instr} (h : Performs i c) (hc : isCommand c = false) : i = c := by
  obtain rfl | ⟨w, -, hd⟩ := h
  · rfl
  · simp [isCommand_of_decode hd] at hc

/-- A command with one word has two spellings. -/
theorem Performs.spelled {i c : Instr} {v : Word} (h : Performs i c)
    (hv : ∀ w, decodeCommand w = .ok c → w = v) : i = c ∨ i = .wr 0x0E v := by
  obtain rfl | ⟨w, rfl, hd⟩ := h
  · exact .inl rfl
  · exact .inr (by rw [hv w hd])

theorem Performs.configure {i : Instr} (h : Performs i .configure) : i = .configure ∨ i = .wr 0x0E 0x00000001 :=
  h.spelled fun _ hd => by simpa using decodeCommand_ok hd

theorem Performs.stop {i : Instr} (h : Performs i .stop) : i = .stop ∨ i = .wr 0x0E 0x00000003 :=
  h.spelled fun _ hd => by simpa using decodeCommand_ok hd

theorem Performs.eoi {i : Instr} (h : Performs i .eoi) : i = .eoi ∨ i = .wr 0x0E 0x00000005 :=
  h.spelled fun _ hd => by simpa using decodeCommand_ok hd

theorem Performs.registerCallback {i : Instr} {enable : Bool} (h : Performs i (.registerCallback enable)) :
    i = .registerCallback enable ∨ i = .wr 0x0E (if enable then 0x00000104 else 0x00000004) :=
  h.spelled fun _ hd => by cases enable <;> simpa using decodeCommand_ok hd

/-- What holds of every move but HW_RESET holds of the command or step that an operation performs. -/
theorem exec_performs {Q : Instr → State → Prop} {s : State}
    (host : ∀ c t, HostMove s c t → HostCanAct s → Q c t)
    (pixel : TimersRun s → Q .pixel (pixelEffect s))
    (read : ∀ t, dmaBody s = some t → Q .dmaRead t)
    (late : Q .serviceEnter (markFault .lateService s))
    (service : s.inService = false → vaActive s = false → ∀ u, Rearmed s u →
      (s.cbEn = true → Q .serviceEnter (invokeCallback (countFrame u))) ∧
      (s.cbEn = false → Q .serviceEnter (requestFlush (countFrame u))))
    (release : s.framecount ≠ s.waitFc → Q .waitRelease { s with waiting := false }) :
    ∀ i t, exec i s = .next t → i ≠ .hwReset → ∃ c, Performs i c ∧ Q c t := by
  apply exec_moves
  case host => exact fun i t _ m hc _ => ⟨i, .inl rfl, host i t m hc⟩
  case command => exact fun w i t hd _ m hc _ _ => ⟨i, .inr ⟨w, rfl, hd⟩, host i t m hc⟩
  case pixel => exact fun _ ht _ _ => ⟨_, .inl rfl, pixel ht⟩
  case read => exact fun _ _ _ _ t h _ => ⟨_, .inl rfl, read t h⟩
  case late => exact fun _ _ _ _ _ _ _ => ⟨_, .inl rfl, late⟩
  case service =>
    exact fun _ _ _ _ hs hv u hu =>
      ⟨fun hc _ => ⟨_, .inl rfl, (service hs hv u hu).1 hc⟩, fun hc _ => ⟨_, .inl rfl, (service hs hv u hu).2 hc⟩⟩
  case release => exact fun _ _ _ hf _ => ⟨_, .inl rfl, release hf⟩
  case reset => exact fun h => absurd rfl h

/-! ## RUNSTATE -/

/-- The transitions of R11 but those of HW_RESET, by the command performed. -/
def RunStateMove (s : State) (c : Instr) (t : State) : Prop :=
  t.runstate = s.runstate ∨
  (s.runstate = .unconfigured ∧ (t.runstate = .running ∨ t.runstate = .halted) ∧ c = .configure) ∨
  (s.runstate = .running ∧ t.runstate = .stopped ∧ c = .stop)

/-- STOP finds RUNNING or STOPPED: a halted host has no step. -/
theorem HostMove.runStateMove {s t : State} {c : Instr} (m : HostMove s c t) (hc : HostCanAct s) :
    RunStateMove s c t := by
  cases m with
  | haltMode _ hr => exact .inr (.inl ⟨hr, .inr rfl, rfl⟩)
  | haltAck hr => exact .inr (.inl ⟨hr, .inr rfl, rfl⟩)
  | program hr => exact .inr (.inl ⟨hr, .inl rfl, rfl⟩)
  | stop hr =>
    obtain ⟨-, hh, -⟩ := hc
    cases e : s.runstate with
    | unconfigured => exact absurd e hr
    | running => exact .inr (.inr ⟨e, rfl, rfl⟩)
    | stopped => exact .inl e.symm
    | halted => exact absurd e hh
  | _ => exact .inl rfl

theorem exec_runStateMove {s : State} :
    ∀ i t, exec i s = .next t → i ≠ .hwReset → ∃ c, Performs i c ∧ RunStateMove s c t := by
  apply exec_performs
  case host => exact fun _ _ m hc => m.runStateMove hc
  case pixel => exact fun _ => .inl (pixelEffect_runstate s)
  case read =>
    intro t h
    obtain ⟨-, rfl⟩ := dmaBody_some.mp h
    exact .inl (by simp)
  case late => exact .inl rfl
  case service =>
    intro _ _ u hu
    exact ⟨fun _ => .inl hu.runstate_eq, fun _ => .inl hu.runstate_eq⟩
  case release => exact fun _ => .inl rfl

/-- Settles O46: the move of the command performed, with the command spelled either way. -/
theorem runStateTransitions : Obligations.RunStateTransitions := by
  intro i s t h hi
  obtain ⟨c, hp, e | ⟨hr, ht, rfl⟩ | ⟨hr, ht, rfl⟩⟩ := exec_runStateMove i t h hi
  · exact .inl e
  · exact .inr (.inl ⟨hr, ht, hp.configure⟩)
  · exact .inr (.inr ⟨hr, ht, hp.stop⟩)

/-! ## The interrupt flags -/

/-- A successful CONFIGURE, seen in RUNSTATE (R45). -/
def Configured (s t : State) : Prop := s.runstate = .unconfigured ∧ t.runstate = .running

/-- What sets and clears the flags of R12, by the command or step performed; HW_RESET is not among them. -/
structure FlagMove (s : State) (c : Instr) (t : State) : Prop where
  irqSet : s.irqEn = false → t.irqEn = true → Configured s t
  irqCleared : s.irqEn = true → t.irqEn = false → t.runstate = .stopped ∨ t.runstate = .halted
  pendingSet : s.fbPending = false → t.fbPending = true → c = .pixel ∧ s.irqEn = true
  pendingCleared : s.fbPending = true → t.fbPending = false →
    c = .serviceEnter ∨ t.runstate = .stopped ∨ t.runstate = .halted ∨ Configured s t
  serviceSet : s.inService = false → t.inService = true → c = .serviceEnter ∧ s.cbEn = true
  serviceCleared : s.inService = true → t.inService = false → c = .eoi ∨ Configured s t
  callbackWritten : t.cbEn ≠ s.cbEn → c = .registerCallback t.cbEn

/-- The four flags of the interrupt controller. -/
def flags (s : State) : Bool × Bool × Bool × Bool := (s.irqEn, s.fbPending, s.inService, s.cbEn)

theorem flagMove_of_same {s t : State} {c : Instr} (h : flags t = flags s) : FlagMove s c t := by
  simp only [flags, Prod.mk.injEq] at h
  obtain ⟨hi, hp, hs, hc⟩ := h
  constructor <;> simp_all

/-- A Halt, and STOP as well, leave the interrupt off and no event pending. -/
theorem flagMove_of_off {s t : State} (c : Instr) (hoff : t.irqEn = false ∧ t.fbPending = false)
    (hr : t.runstate = .stopped ∨ t.runstate = .halted) (hs : t.inService = s.inService)
    (hc : t.cbEn = s.cbEn) : FlagMove s c t := by
  obtain ⟨hi, hp⟩ := hoff
  constructor <;> simp_all
  tauto

theorem HostMove.flagMove {s t : State} {c : Instr} (m : HostMove s c t) : FlagMove s c t := by
  cases m with
  | haltMode => exact flagMove_of_off _ ⟨rfl, rfl⟩ (.inr rfl) rfl rfl
  | haltAck => exact flagMove_of_off _ ⟨rfl, rfl⟩ (.inr rfl) rfl rfl
  | program hr =>
    have hconf : Configured s (programTimers (drawn s)) := ⟨hr, rfl⟩
    exact ⟨fun _ _ => hconf, nofun, nofun, fun _ _ => .inr (.inr (.inr hconf)), nofun, fun _ _ => .inr hconf,
      fun h => absurd rfl h⟩
  | stop => exact flagMove_of_off _ ⟨rfl, rfl⟩ (.inl rfl) rfl rfl
  | callback enable => constructor <;> simp_all
  | eoi => constructor <;> simp_all
  | _ => exact flagMove_of_same rfl

/-- The re-arm touches no flag (R74). -/
theorem Rearmed.flags_eq {s u : State} (hu : Rearmed s u) : flags u = flags s := by
  obtain ⟨-, rfl⟩ | ⟨-, -, rfl⟩ := hu <;> rfl

/-- PIXEL raises an event only with the interrupt enabled, and ends none (R72). -/
theorem pixelEffect_flagMove (s : State) : FlagMove s .pixel (pixelEffect s) := by
  have hp : (pixelEffect s).fbPending = s.fbPending ∨
      (s.irqEn = true ∧ (pixelEffect s).fbPending = true) := by
    by_cases hf : frameEnds s
    · rw [(pixelEffect_event hf).1]
      obtain ⟨-, e⟩ | ⟨hi, -, -, e⟩ | ⟨-, -, e⟩ := frameEvent_cases s <;> simp [*]
    · exact .inl (pixelEffect_noEvent hf).1
  obtain hp | ⟨hi, hp⟩ := hp <;> constructor <;> simp_all

theorem exec_flagMove {s : State} :
    ∀ i t, exec i s = .next t → i ≠ .hwReset → ∃ c, Performs i c ∧ FlagMove s c t := by
  apply exec_performs
  case host => exact fun _ _ m _ => m.flagMove
  case pixel => exact fun _ => pixelEffect_flagMove s
  case read =>
    intro t h
    obtain ⟨-, rfl⟩ := dmaBody_some.mp h
    exact flagMove_of_same (by simp [flags])
  case late => exact flagMove_of_same rfl
  case service =>
    intro _ _ u hu
    have hsame := hu.flags_eq
    simp only [flags, Prod.mk.injEq] at hsame
    obtain ⟨hi, -, hs, hc⟩ := hsame
    constructor <;> intro hcb <;> constructor <;> simp_all
  case release => exact fun _ => flagMove_of_same rfl

/-- Settles O47: the pin by its definition, the closed door of a running service by the enabling condition,
the writers by the move of the command performed. -/
theorem interruptFlagWriters : Obligations.InterruptFlagWriters := by
  refine ⟨fun s ht => ?_, fun s t hs h => ?_, fun i s t h hi => ?_⟩
  · rw [irqPin, (timersOn_iff s).mpr ht, Bool.true_and]
  · obtain ⟨-, ⟨-, -, -, hn⟩, -⟩ := execServiceEnter_next.mp h
    simp [hs] at hn
  · obtain ⟨c, hp, m⟩ := exec_flagMove i t h hi
    refine ⟨m.irqSet, m.irqCleared, fun h0 h1 => ?_, fun h0 h1 => ?_, fun h0 h1 => ?_, fun h0 h1 => ?_,
      fun h0 => ?_⟩
    · obtain ⟨rfl, hirq⟩ := m.pendingSet h0 h1
      exact ⟨hp.eq rfl, hirq⟩
    · obtain rfl | hr := m.pendingCleared h0 h1
      · exact .inl (hp.eq rfl)
      · exact .inr hr
    · obtain ⟨rfl, hcb⟩ := m.serviceSet h0 h1
      exact ⟨hp.eq rfl, hcb⟩
    · obtain rfl | hr := m.serviceCleared h0 h1
      · exact or_assoc.mp (.inl hp.eoi)
      · exact .inr (.inr hr)
    · obtain rfl := m.callbackWritten h0
      exact hp.registerCallback

/-! ## The buffer registers -/

/-- What writes CUR_*, NEXT_*, ARMED and ARG_*, by the command or step performed (R9, R19, R74). -/
structure BufferMove (s : State) (c : Instr) (t : State) : Prop where
  cur : (t.curPtr, t.curPitch, t.curG) ≠ (s.curPtr, s.curPitch, s.curG) →
    c = .serviceEnter ∧ vaActive s = false ∧ s.armed = true ∧
      (t.curPtr, t.curPitch, t.curG) = (s.nextPtr, s.nextPitch, s.nextG)
  next : (t.nextPtr, t.nextPitch, t.nextG) ≠ (s.nextPtr, s.nextPitch, s.nextG) ∨ t.armed ≠ s.armed →
    (∃ wait, c = .setNextBuffer wait) ∧ (t.nextPtr, t.nextPitch) = (s.argPtr, s.argPitch)
  armed : s.armed = true → t.armed = true
  argPtr : t.argPtr ≠ s.argPtr → ∃ v, c = .wr 0x0C v ∧ t.argPtr = v
  argPitch : t.argPitch ≠ s.argPitch → ∃ v, c = .wr 0x0D v ∧ t.argPitch = v

/-- The buffer registers, ARMED and the operands of the next buffer. -/
def bufferRegs (s : State) : (Word × Word × Granule) × (Word × Word × Granule) × Bool × Word × Word :=
  ((s.curPtr, s.curPitch, s.curG), (s.nextPtr, s.nextPitch, s.nextG), s.armed, s.argPtr, s.argPitch)

theorem bufferMove_of_same {s t : State} {c : Instr} (h : bufferRegs t = bufferRegs s) : BufferMove s c t := by
  simp only [bufferRegs, Prod.mk.injEq] at h
  obtain ⟨⟨hp, hl, hg⟩, ⟨hnp, hnl, hng⟩, ha, hap, hal⟩ := h
  constructor <;> simp [*]

theorem HostMove.bufferMove {s t : State} {c : Instr} (m : HostMove s c t) : BufferMove s c t := by
  cases m with
  | arm => constructor <;> simp
  | armWait => constructor <;> simp
  | writePtr => constructor <;> simp
  | writePitch => constructor <;> simp
  | _ => exact bufferMove_of_same rfl

theorem exec_bufferMove {s : State} :
    ∀ i t, exec i s = .next t → i ≠ .hwReset → ∃ c, Performs i c ∧ BufferMove s c t := by
  apply exec_performs
  case host => exact fun _ _ m _ => m.bufferMove
  case pixel => exact fun _ => bufferMove_of_same (by simp [bufferRegs])
  case read =>
    intro t h
    obtain ⟨-, rfl⟩ := dmaBody_some.mp h
    exact bufferMove_of_same (by simp [bufferRegs])
  case late => exact bufferMove_of_same rfl
  case service =>
    intro _ hv u hu
    obtain ⟨-, rfl⟩ | ⟨ha, -, rfl⟩ := hu
    · exact ⟨fun _ => bufferMove_of_same rfl, fun _ => bufferMove_of_same rfl⟩
    · constructor <;> intro _ <;> constructor <;> simp [firstRead, hv, ha]
  case release => exact fun _ => bufferMove_of_same rfl

/-- Settles O45: the move of the command performed; only SET_NEXT_BUFFER among the writers has a word. -/
theorem bufferRegisterWriters : Obligations.BufferRegisterWriters := by
  intro i s t h hi
  obtain ⟨c, hp, m⟩ := exec_bufferMove i t h hi
  refine ⟨fun hcur => ?_, fun hnext => ?_, m.armed, fun hptr => ?_, fun hpitch => ?_⟩
  · obtain ⟨rfl, hw⟩ := m.cur hcur
    exact ⟨hp.eq rfl, hw⟩
  · obtain ⟨⟨wait, rfl⟩, hw⟩ := m.next hnext
    exact ⟨⟨wait, hp⟩, hw⟩
  · obtain ⟨v, rfl, hv⟩ := m.argPtr hptr
    exact ⟨v, hp.eq rfl, hv⟩
  · obtain ⟨v, rfl, hv⟩ := m.argPitch hpitch
    exact ⟨v, hp.eq rfl, hv⟩

/-! ## The wait -/

/-- What happens to a wait in progress, by the command or step performed (R16, R67). -/
def WaitMove (s : State) (c : Instr) (t : State) : Prop :=
  s.waiting = true →
    t.waitFc = s.waitFc ∧ (t.waiting = false → c = .waitRelease ∧ s.framecount ≠ s.waitFc)

theorem waitMove_of_same {s t : State} (c : Instr) (hfc : t.waitFc = s.waitFc) (hw : t.waiting = s.waiting) :
    WaitMove s c t :=
  fun h => ⟨hfc, fun hn => by simp [hw, h] at hn⟩

/-- During a wait the host acts in its handler only, and there begins no other (R63, R66). -/
theorem HostMove.waitMove {s t : State} {c : Instr} (m : HostMove s c t) (hc : HostCanAct s) :
    WaitMove s c t := by
  cases m with
  | armWait _ hi =>
    obtain ⟨-, -, hhandler⟩ := hc
    exact fun hw => by simp [hhandler hw] at hi
  | _ => exact waitMove_of_same _ rfl rfl

theorem exec_waitMove {s : State} :
    ∀ i t, exec i s = .next t → i ≠ .hwReset → ∃ c, Performs i c ∧ WaitMove s c t := by
  apply exec_performs
  case host => exact fun _ _ m hc => m.waitMove hc
  case pixel => exact fun _ => waitMove_of_same _ (by simp) (by simp)
  case read =>
    intro t h
    obtain ⟨-, rfl⟩ := dmaBody_some.mp h
    exact waitMove_of_same _ (by simp) (by simp)
  case late => exact waitMove_of_same _ rfl rfl
  case service =>
    intro _ _ u hu
    obtain ⟨-, rfl⟩ | ⟨-, -, rfl⟩ := hu <;>
      exact ⟨fun _ => waitMove_of_same _ rfl rfl, fun _ => waitMove_of_same _ rfl rfl⟩
  case release => exact fun hf _ => ⟨rfl, fun _ => ⟨rfl, hf⟩⟩

/-- Settles O49: WAIT_RELEASE has no word; an accepted waiting SET_NEXT_BUFFER begins its wait, and a refused
one is marked. -/
theorem waitEndsOnlyAfterCount : Obligations.WaitEndsOnlyAfterCount := by
  refine ⟨fun i s t h hi hw => ?_, fun s t h hr => ?_⟩
  · obtain ⟨c, hp, m⟩ := exec_waitMove i t h hi
    refine ⟨(m hw).1, fun hn => ?_⟩
    obtain ⟨rfl, hf⟩ := (m hw).2 hn
    exact ⟨hp.eq rfl, hf⟩
  · obtain ⟨-, rfl⟩ := hostStep_next.mp h
    obtain ⟨why, e⟩ | ⟨-, -, -, -, ⟨hf, -⟩ | ⟨-, e⟩⟩ := setNextBufferEffect_cases true s
    · rw [e] at hr
      simp at hr
    · cases hf
    · rw [e]
      exact ⟨rfl, rfl, rfl⟩

end Sys2Proof.Machine
end

section
/-! SUPPORT. Settles the statements of spec/20_memory.md about memory itself: what keeps the stores (R24, R28, R29,
R33), what a frame service makes visible (R35), and where the reads of a frame go (R31, R32, R34, R38). -/

namespace Sys2Proof.Machine

/-! ## Memory and the stores under way -/

/-- The surely visible memory is the same, and the stores under way are, whether flushed or not. -/
def SameStores (s t : State) : Prop := t.mem = s.mem ∧ t.flushed ++ t.fresh = s.flushed ++ s.fresh

theorem SameStores.newerBytes_eq {s t : State} (h : SameStores s t) (a : Nat) :
    newerBytes t a = newerBytes s a := by
  unfold newerBytes
  rw [h.2]

theorem SameStores.candidates_eq {s t : State} (h : SameStores s t) (a : Nat) :
    candidates t a = candidates s a := by
  unfold candidates
  rw [h.newerBytes_eq, h.1]

theorem SameStores.latestByte_eq {s t : State} (h : SameStores s t) (a : Nat) :
    latestByte t a = latestByte s a := by
  unfold latestByte
  rw [h.newerBytes_eq, h.1]

/-- A flush request moves stores from one list to the other and keeps their order (R33). -/
theorem sameStores_requestFlush (s : State) : SameStores s (requestFlush s) := ⟨rfl, by simp⟩

theorem HostMove.sameStores {s t : State} {i : Instr} (m : HostMove s i t) :
    SameStores s t ∧ t.schedule = s.schedule := by
  cases m with
  | eoi => exact ⟨sameStores_requestFlush s, rfl⟩
  | _ => exact ⟨⟨rfl, rfl⟩, rfl⟩

/-- Every operation but the frame service leaves memory, the stores under way and the schedule. -/
theorem exec_sameStores {s : State} :
    ∀ i t, exec i s = .next t → i ≠ .serviceEnter → SameStores s t ∧ t.schedule = s.schedule := by
  apply exec_moves
  case host => exact fun _ _ _ m _ _ => m.sameStores
  case command => exact fun _ _ _ _ _ m _ _ _ => m.sameStores
  case pixel => exact fun _ _ _ _ => ⟨⟨by simp, by simp⟩, by simp⟩
  case read =>
    intro _ _ _ _ t e _
    obtain ⟨-, rfl⟩ := dmaBody_some.mp e
    exact ⟨⟨by simp, by simp⟩, by simp⟩
  case late => exact fun _ _ _ _ _ _ h => absurd rfl h
  case service => exact fun _ _ _ _ _ _ _ _ => ⟨fun _ h => absurd rfl h, fun _ h => absurd rfl h⟩
  case release => exact fun _ _ _ _ _ => ⟨⟨rfl, rfl⟩, rfl⟩
  case reset => exact fun _ => ⟨⟨rfl, rfl⟩, rfl⟩

theorem Rearmed.sameStores {s u : State} (hu : Rearmed s u) : SameStores (settle s) u := by
  obtain ⟨-, rfl⟩ | ⟨-, -, rfl⟩ := hu <;> exact ⟨rfl, rfl⟩

/-- A frame service in time re-arms and counts the frame, then invokes the callback or requests the flush. -/
theorem serviceInTime {s t : State} (h : exec .serviceEnter s = .next t) (hv : vaActive s = false) :
    s.runstate = .running ∧ ∃ u, Rearmed s u ∧
      ((s.cbEn = true ∧ t = invokeCallback (countFrame u)) ∨
        (s.cbEn = false ∧ t = requestFlush (countFrame u))) := by
  obtain ⟨-, ⟨hr, -⟩, ⟨hv', -⟩ | ⟨-, e⟩⟩ := execServiceEnter_next.mp h
  · simp [hv] at hv'
  · exact ⟨hr, takeFrameInterrupt_cases e⟩

theorem vaActive_eq_false {s : State} (h : ¬ (s.mode.va0 ≤ s.vline ∧ s.vline < s.mode.va1)) :
    vaActive s = false :=
  Bool.eq_false_iff.mpr fun hv => h ((vaActive_iff s).mp hv)

/-- A frame service in time settles the flushed stores and leaves every other store under way. -/
theorem serviceInTime_sameStores {s t : State} (h : exec .serviceEnter s = .next t) (hv : vaActive s = false) :
    SameStores (settle s) t := by
  obtain ⟨-, u, hu, ⟨-, rfl⟩ | ⟨-, rfl⟩⟩ := serviceInTime h hv
  · exact hu.sameStores
  · exact ⟨hu.sameStores.1, (sameStores_requestFlush (countFrame u)).2.trans hu.sameStores.2⟩

/-- Every operation keeps the stores, or settles the flushed ones and keeps the rest. -/
theorem exec_sameStores_or_settled {i : Instr} {s t : State} (h : exec i s = .next t) :
    SameStores s t ∨ SameStores (settle s) t := by
  by_cases hi : i = .serviceEnter
  · subst hi
    obtain ⟨-, -, ⟨-, rfl⟩ | ⟨hv, -⟩⟩ := execServiceEnter_next.mp h
    · exact .inl ⟨rfl, rfl⟩
    · exact .inr (serviceInTime_sameStores h hv)
  · exact .inl (exec_sameStores i t h hi).1

/-- Settles O52: the surely visible memory and the candidates are functions of what is kept. -/
theorem memoryFrame : Obligations.MemoryFrame := by
  intro i s t h hi
  obtain ⟨hstores, hschedule⟩ := exec_sameStores i t h hi
  exact ⟨fun a => by rw [hstores.1], hstores.candidates_eq, hschedule⟩

/-- Settles O51: the stores are kept, and the ones a frame service settles stay the latest writes. -/
theorem blockNeverWritesMemory : Obligations.BlockNeverWritesMemory := by
  intro i s t a hinv h
  obtain hkept | hsettled := exec_sameStores_or_settled h
  · exact hkept.latestByte_eq a
  · exact (hsettled.latestByte_eq a).trans (latestByte_settle hinv.memCanonical a)

/-! ## Visibility -/

/-- Where no store under way goes to an address, it has one candidate, and reads as it. -/
theorem candidates_of_none_newer {s : State} {a : Nat} (h : newerBytes s a = []) :
    candidates s a = [latestByte s a] ∧ readByte s a = latestByte s a := by
  have hlatest : latestByte s a = Memory.read s.mem a := by unfold latestByte; rw [h]; rfl
  refine ⟨?_, (readByte_of_none_newer h).trans hlatest.symm⟩
  unfold candidates
  rw [h, hlatest]

/-- After settling, only the stores that no flush request has followed are under way. -/
theorem newerBytes_settle_of_not_fresh {s : State} {a : Nat} (h : ∀ w ∈ s.fresh, w.addr.toNat ≠ a) :
    newerBytes (settle s) a = [] := by
  simpa [newerBytes] using h

/-- Settles O38: the service in time settles what was flushed; a flush request leaves nothing unflushed. -/
theorem serviceMakesFlushedVisible : Obligations.ServiceMakesFlushedVisible := by
  refine ⟨fun s t a hinv h hv hfresh => ?_, fun s t h hv hcb => ?_, fun s t h hs => ?_⟩
  · have hstores := serviceInTime_sameStores h (vaActive_eq_false hv)
    have hnone : newerBytes t a = [] :=
      (hstores.newerBytes_eq a).trans (newerBytes_settle_of_not_fresh hfresh)
    have hlatest : latestByte t a = latestByte s a :=
      (hstores.latestByte_eq a).trans (latestByte_settle hinv.memCanonical a)
    rw [← hlatest]
    exact candidates_of_none_newer hnone
  · obtain ⟨-, u, -, ⟨hcb', -⟩ | ⟨-, rfl⟩⟩ := serviceInTime h (vaActive_eq_false hv)
    · simp [hcb] at hcb'
    · rfl
  · obtain ⟨-, rfl⟩ := hostStep_next.mp h
    obtain ⟨-, e⟩ | ⟨hs', -⟩ := eoiEffect_cases s
    · rw [e]; rfl
    · simp [hs] at hs'

/-- The newest store is the latest write to its address and to no other (R28). -/
theorem latestByte_hostStore (s : State) (a : Word) (b : Byte) (x : Nat) :
    latestByte (hostStore a b s) x = if x = a.toNat then b else latestByte s x := by
  have happend : newerBytes (hostStore a b s) x = newerBytes s x ++ if x = a.toNat then [b] else [] := by
    unfold newerBytes
    by_cases hx : x = a.toNat
    · simp [hostStore, hx]
    · simp [hostStore, hx, Ne.symm hx]
  unfold latestByte
  rw [happend]
  split_ifs
  · simp
  · simp

/-- Settles O9: an unmarked run takes the store, whose byte is then the newest. -/
theorem hostStoreIsLatestWrite : Obligations.HostStoreIsLatestWrite := by
  intro s a b rest hu hs
  have hstep : step s = .next (hostStore a b (afterEvent rest s)) := by
    unfold step nextStep
    rw [hs]
    exact unlessEnded_of_unmarked (s := afterEvent rest s) hu _
  exact ⟨_, hstep, rfl, latestByte_hostStore (afterEvent rest s) a b⟩

/-! ## The reads of a frame -/

/-- Settles O32: a read appends one byte per address, each chosen on its own. -/
theorem readSeesCandidate : Obligations.ReadSeesCandidate := by
  intro s t h
  obtain ⟨-, -, e⟩ := execDmaRead_next.mp h
  obtain ⟨-, rfl⟩ := dmaBody_some.mp e
  refine ⟨memRead s (dmaAddr s) s.curG.bytes, by simp, memRead_length _ _ _, fun i hi => ?_⟩
  have hbyte : (memRead s (dmaAddr s) s.curG.bytes)[i] = readByte s (dmaAddr s + i) := by simp [memRead]
  rw [hbyte]
  exact readByte_candidate s _

/-- A read leaves its item in the observation. -/
theorem dmaBody_obs {s t : State} (e : dmaBody s = some t) :
    t.obs = .dmaRd (dmaAddr s) s.curG.bytes :: s.obs := by
  obtain ⟨-, rfl⟩ := dmaBody_some.mp e
  simp

/-- A buffer's granule divides the address of every granule of its lines (R31). -/
theorem BufferFits.aligned {m : ModeRegs} {ptr pitch : Word} {g : Granule} (h : BufferFits m ptr pitch g)
    (line : Nat) {off : Nat} (ho : g.bytes ∣ off) : g.bytes ∣ ptr.toNat + line * pitch.toNat + off :=
  ((h.ptrAligned.add (h.pitchAligned.mul_left line)).add ho)

/-- A buffer's bytes up to the end of an active line stay inside the address space (R38). -/
theorem BufferFits.line_end_le {m : ModeRegs} {ptr pitch : Word} {g : Granule} (h : BufferFits m ptr pitch g)
    {line off : Nat} (hl : line < m.va.toNat) (ho : off ≤ m.lb) :
    ptr.toNat + line * pitch.toNat + off ≤ 2 ^ 32 := by
  have hspace := h.insideSpace
  unfold footprintEnd at hspace
  have hline : line * pitch.toNat ≤ (m.va.toNat - 1) * pitch.toNat := Nat.mul_le_mul_right _ (by omega)
  omega

section
variable {s : State} (hi : BlockInv s) (hd : s.dmaEn = true)
include hi hd

/-- The next read of an enabled chain ends inside its line. -/
theorem BlockInv.read_in_line : s.dmaOff + s.curG.bytes ≤ s.mode.lb :=
  have ⟨_, hoff, hdvd⟩ := hi.dmaInFrame hd
  granule_fits hoff hdvd (hi.curFits hd).lineDivided

/-- The next read of an enabled chain ends inside the address space (R38). -/
theorem BlockInv.read_in_space : dmaAddr s + s.curG.bytes ≤ 2 ^ 32 := by
  have hend := (hi.curFits hd).line_end_le (hi.dmaInFrame hd).1 (hi.read_in_line hd)
  unfold dmaAddr
  omega

/-- The next read of an enabled chain is naturally aligned (R31). -/
theorem BlockInv.read_aligned : s.curG.bytes ∣ dmaAddr s :=
  have ⟨_, _, hdvd⟩ := hi.dmaInFrame hd
  (hi.curFits hd).aligned s.dmaLine hdvd

/-- Every byte of the next read of an enabled chain lies in the footprint of the current buffer (R32). -/
theorem BlockInv.read_in_footprint {k : Nat} (hk : k < s.curG.bytes) :
    inFootprint s.mode s.curPtr s.curPitch (dmaAddr s + k) := by
  have hroom := hi.read_in_line hd
  obtain ⟨hline, -, -⟩ := hi.dmaInFrame hd
  exact ⟨s.dmaLine, s.dmaOff + k, hline, by omega, by unfold dmaAddr; omega⟩

/-- The bytes of the next read of an enabled chain are the next ones of the frame (R34). -/
theorem BlockInv.streamAddr_fetched {k : Nat} (hk : k < s.curG.bytes) :
    streamAddr s (fetched s + k) = dmaAddr s + k := by
  have hroom := hi.read_in_line hd
  have hsplit : fetched s + k = (s.dmaOff + k) + s.mode.lb * s.dmaLine := by unfold fetched; ring
  unfold streamAddr dmaAddr
  rw [hsplit, Nat.add_mul_div_left _ _ (by omega), Nat.add_mul_mod_self_left, Nat.div_eq_of_lt (by omega),
    Nat.mod_eq_of_lt (by omega), Nat.zero_add, Nat.add_assoc _ _ k]

end

/-- Advancing the DMA position counts one granule; when it ends the chain, the frame is fetched (R68, R69). -/
theorem fetched_dmaAdvance {s : State} (hd : s.dmaEn = true) :
    fetched (dmaAdvance s) = fetched s + s.curG.bytes ∧
      ((dmaAdvance s).dmaEn = false → fetched (dmaAdvance s) = s.mode.va.toNat * s.mode.lb) := by
  obtain ⟨-, e⟩ | ⟨hend, e⟩ := dmaAdvance_cases s <;> rw [e] <;> unfold fetched
  · exact ⟨Nat.add_assoc _ _ _ |>.symm, fun hoff => by simp [hd] at hoff⟩
  · refine ⟨by dsimp only; rw [← hend]; ring, fun hoff => ?_⟩
    have hlast : s.dmaLine + 1 = s.mode.va.toNat := by simpa [hd] using hoff
    dsimp only
    rw [hlast, Nat.add_zero]

/-- A read of an enabled chain counts one granule; when it ends the chain, the frame is fetched. -/
theorem fetched_dmaBody {s t : State} (hd : s.dmaEn = true) (e : dmaBody s = some t) :
    fetched t = fetched s + s.curG.bytes ∧ (t.dmaEn = false → fetched t = s.mode.va.toNat * s.mode.lb) := by
  obtain ⟨-, rfl⟩ := dmaBody_some.mp e
  exact fetched_dmaAdvance (s := emit (drawn (pushRead s)) (.dmaRd (dmaAddr s) s.curG.bytes)) hd

/-- Settles O34: the bytes fetched so far give line and offset of the next read. -/
theorem readOrder : Obligations.ReadOrder := by
  intro s t k hinv h hk
  obtain ⟨-, ⟨-, hd, -⟩, e⟩ := execDmaRead_next.mp h
  have haddr : streamAddr s (k * s.curG.bytes) = dmaAddr s := by
    simpa [hk] using hinv.streamAddr_fetched hd s.curG.bytes_pos
  refine ⟨?_, by rw [(fetched_dmaBody hd e).1, hk, Nat.add_mul, Nat.one_mul]⟩
  rw [dmaBody_obs e, ← haddr]
  rfl

theorem HostMove.reads {s t : State} {i : Instr} (m : HostMove s i t) {a n : Nat} (h : Obs.dmaRd a n ∈ t.obs) :
    Obs.dmaRd a n ∈ s.obs := by
  cases m <;> simpa using h

/-- A read is observed by DMA_READ and by the service of an armed block in time, and by no other operation. -/
theorem exec_reads {s : State} :
    ∀ i t, exec i s = .next t →
      i = .dmaRead ∨ (i = .serviceEnter ∧ vaActive s = false ∧ s.armed = true) ∨
        ∀ a n, Obs.dmaRd a n ∈ t.obs → Obs.dmaRd a n ∈ s.obs := by
  apply exec_moves
  case host => exact fun _ _ _ m _ => .inr (.inr fun _ _ => m.reads)
  case command => exact fun _ _ _ _ _ m _ _ => .inr (.inr fun _ _ => m.reads)
  case pixel => exact fun _ _ _ => .inr (.inr fun _ _ h => by simpa [pixelEffect_obs] using h)
  case read => exact fun _ _ _ _ _ _ => .inl rfl
  case late => exact fun _ _ _ _ _ _ => .inr (.inr fun _ _ h => h)
  case service =>
    intro _ _ _ _ _ hv u hu
    obtain ⟨-, rfl⟩ | ⟨ha, -, rfl⟩ := hu
    · exact ⟨fun _ => .inr (.inr fun _ _ h => by simpa using h), fun _ => .inr (.inr fun _ _ h => by simpa using h)⟩
    · exact ⟨fun _ => .inr (.inl ⟨rfl, hv, ha⟩), fun _ => .inr (.inl ⟨rfl, hv, ha⟩)⟩
  case release => exact fun _ _ _ _ => .inr (.inr fun _ _ h => h)
  case reset => exact .inr (.inr fun _ _ h => h)

/-- Settles O33: a read of the chain, then the first read of a frame as the next read of the reloaded chain. -/
theorem readsAlignedInFootprint : Obligations.ReadsAlignedInFootprint := by
  refine ⟨fun s t hinv h => ?_, fun s t hinv h hv ha => ?_, fun i s t => exec_reads i t⟩
  · obtain ⟨-, ⟨-, hd, -⟩, e⟩ := execDmaRead_next.mp h
    exact ⟨dmaBody_obs e, hinv.read_aligned hd, hinv.read_in_space hd, fun _ => hinv.read_in_footprint hd⟩
  · obtain ⟨hr, u, hu, ht⟩ := serviceInTime h hv
    have hload := hinv.loadDescriptor hr ha
    refine ⟨?_, dmaAddr_loadDescriptor s ▸ hload.read_aligned rfl,
      dmaAddr_loadDescriptor s ▸ hload.read_in_space rfl,
      fun _ => dmaAddr_loadDescriptor s ▸ hload.read_in_footprint rfl⟩
    obtain ⟨ha', -⟩ | ⟨-, -, rfl⟩ := hu
    · simp [ha] at ha'
    · obtain ⟨-, rfl⟩ | ⟨-, rfl⟩ := ht <;> exact ⟨_, rfl, nofun⟩

/-! ### No read past the address space -/

theorem whenEnabled_pastAddressSpace {bar : Option NotEnabled} {s : State}
    {k : Host.Outcome State Fault Refusal} (h : whenEnabled bar s k = .fault .pastAddressSpace) :
    bar = none ∧ k = .fault .pastAddressSpace := by
  unfold whenEnabled unlessEnded at h
  cases hf : s.fault <;> cases hr : s.refused <;> cases bar <;> simp_all

theorem orPastAddressSpace_fault {o : Option State} (h : orPastAddressSpace o = .fault .pastAddressSpace) :
    o = none := by
  cases o with
  | none => rfl
  | some t => cases h

/-- The next read of an enabled chain happens. -/
theorem BlockInv.dmaBody_ne_none {s : State} (hi : BlockInv s) (hd : s.dmaEn = true) :
    Machine.dmaBody s ≠ none := by
  unfold Machine.dmaBody
  rw [if_neg (not_lt.mpr (hi.read_in_space hd))]
  exact nofun

/-- A frame interrupt is taken: the first read of the queued buffer happens. -/
theorem BlockInv.takeFrameInterrupt_ne_none {s : State} (hi : BlockInv s) (hr : s.runstate = .running) :
    takeFrameInterrupt s ≠ none := by
  have hrearm : rearm (Machine.settle s) ≠ none := by
    unfold rearm
    split_ifs with ha
    · exact (hi.settle.loadDescriptor hr ha).dmaBody_ne_none rfl
    · exact nofun
  unfold takeFrameInterrupt
  cases hu : rearm (Machine.settle s) with
  | none => exact absurd hu hrearm
  | some u => exact nofun

/-- Settles O58: the two operations that read find their reads inside the address space, and no other can stop
for one. -/
theorem noReadPastAddressSpace : Obligations.NoReadPastAddressSpace := by
  intro i s hinv h
  by_cases hh : isHostOp i = true
  · rw [exec_hostOp hh] at h
    exact nomatch (whenEnabled_pastAddressSpace h).2
  cases i with
  | dmaRead =>
    obtain ⟨hbar, hbody⟩ := whenEnabled_pastAddressSpace h
    exact hinv.dmaBody_ne_none (dmaBar_none.mp hbar).2.1 (orPastAddressSpace_fault hbody)
  | serviceEnter =>
    obtain ⟨hbar, hbody⟩ := whenEnabled_pastAddressSpace h
    split_ifs at hbody
    exact hinv.takeFrameInterrupt_ne_none (serviceBar_none.mp hbar).1 (orPastAddressSpace_fault hbody)
  | pixel => exact nomatch (whenEnabled_pastAddressSpace h).2
  | waitRelease => exact nomatch (whenEnabled_pastAddressSpace h).2
  | hwReset => exact nomatch h
  | nop => exact hh rfl
  | configure => exact hh rfl
  | setNextBuffer wait => exact hh rfl
  | stop => exact hh rfl
  | registerCallback enable => exact hh rfl
  | eoi => exact hh rfl
  | wr n v => exact hh rfl
  | rd n => exact hh rfl

end Sys2Proof.Machine
end

section
/-! SUPPORT. Settles the statements of spec/20_memory.md about the picture: what the queue holds on its way from the
DMA reader to the serializer (R25, R26, R27, R34), and what an armed pixel shows. -/

namespace Sys2Proof.Machine

/-! ## PIXEL and the supply -/

/-- At an even active pixel the head of the queue becomes the current byte and goes on the pins (R60). -/
theorem serialize_cons {s : State} {b : Byte} {rest : List Byte} (ha : AtActivePixel s)
    (hx : column s % 2 = 0) (hq : s.fq = b :: rest) :
    serialize s = ({ s with curByte := b, curValid := true, fq := rest }, nibbleAt b (column s)) := by
  rw [serialize_even ha hx]
  unfold loadByte
  rw [hq]
  rfl

/-- At an odd active pixel the current byte goes on the pins, where it is valid. -/
theorem serialize_valid {s : State} (ha : AtActivePixel s) (hx : column s % 2 = 1) (hc : s.curValid = true) :
    serialize s = (s, nibbleAt s.curByte (column s)) := by
  rw [serialize_odd ha hx]
  unfold shiftOut
  rw [if_pos hc]

/-- Without a byte to load, PIXEL leaves the queue. -/
theorem serialize_fq_of_not_even {s : State} (h : ¬ (AtActivePixel s ∧ column s % 2 = 0)) :
    (serialize s).1.fq = s.fq := by
  obtain ⟨-, e⟩ | ⟨-, -, e⟩ | ⟨ha, hx, -⟩ := serialize_cases s
  · rw [e]
  · rw [e]
    unfold shiftOut
    split_ifs <;> rfl
  · exact absurd ⟨ha, hx⟩ h

/-- With the queue empty there is nothing to load: the queue stays empty, and an even active pixel leaves no
valid byte (R60). -/
theorem serialize_empty {s : State} (hq : s.fq = []) :
    (serialize s).1.fq = [] ∧ (AtActivePixel s → column s % 2 = 0 → (serialize s).1.curValid = false) := by
  by_cases he : AtActivePixel s ∧ column s % 2 = 0
  · have e : serialize s = (drawn { s with curValid := false }, Config.pixelDraw s.draws) := by
      rw [serialize_even he.1 he.2]
      unfold loadByte
      rw [hq]
      rfl
    rw [e]
    exact ⟨hq, fun _ _ => rfl⟩
  · exact ⟨(serialize_fq_of_not_even he).trans hq, fun ha hx => absurd ⟨ha, hx⟩ he⟩

/-- PIXEL leaves an idle supply idle. -/
theorem SupplyIdle.pixelEffect {s : State} (h : SupplyIdle s) (g : Geometry s) : SupplyIdle (pixelEffect s) := by
  obtain ⟨hq, hd, -⟩ := h
  obtain ⟨hqueue, hvalid⟩ := serialize_empty hq
  refine ⟨(pixelEffect_fq s).trans hqueue, (pixelEffect_dmaEn s).trans hd, fun ha hx => ?_⟩
  obtain ⟨ha', hx', -⟩ := even_before_odd g ha hx
  exact (pixelEffect_curValid s).trans (hvalid ha' hx')

/-- Where a chain is in use, a PIXEL that needs a byte and is not held finds one (R71). -/
theorem SupplyFlowing.fq_ne_nil {s : State} (h : SupplyFlowing s) (g : Geometry s) (hp : ¬ PixelHeld s)
    (ha : AtActivePixel s) (hx : column s % 2 = 0) : s.fq ≠ [] := by
  intro hq
  have hoff : s.dmaEn = false := Bool.eq_false_iff.mpr fun hd => hp ⟨ha, hx, hq, hd⟩
  obtain ⟨hbalance, hend⟩ := h
  have hleft := (consumed_even g ha hx).2.2.2.2
  have hall := hend hoff
  rw [hq, List.length_nil] at hbalance
  omega

@[simp] theorem fetched_pixelEffect (s : State) : fetched (pixelEffect s) = fetched s := by simp [fetched]

/-- A state that differs from one with a balanced supply in the queue and in what was taken, by the same amount,
is balanced. -/
theorem SupplyFlowing.pixelEffect_of {s : State} (h : SupplyFlowing s)
    (hb : consumed (pixelEffect s) + (serialize s).1.fq.length = consumed s + s.fq.length) :
    SupplyFlowing (pixelEffect s) := by
  obtain ⟨hbalance, hend⟩ := h
  unfold SupplyFlowing
  rw [fetched_pixelEffect, pixelEffect_fq, pixelEffect_dmaEn, pixelEffect_mode, hb]
  exact ⟨hbalance, hend⟩

/-- What PIXEL does to a chain in use: it takes the next byte of the frame, or takes nothing, or ends the frame
with everything taken and the chain over. -/
theorem SupplyFlowing.pixelEffect_cases {s : State} (h : SupplyFlowing s) (hi : BlockInv s) (g : Geometry s)
    (hp : ¬ PixelHeld s) :
    (AtActivePixel s ∧ column s % 2 = 0 ∧ SupplyFlowing (pixelEffect s) ∧
      consumed (pixelEffect s) = consumed s + 1 ∧ ∃ b, s.fq = b :: (pixelEffect s).fq ∧
        (pixelEffect s).curByte = b ∧ (pixelEffect s).curValid = true) ∨
    (¬ (AtActivePixel s ∧ column s % 2 = 0) ∧ SupplyFlowing (pixelEffect s) ∧
      consumed (pixelEffect s) = consumed s ∧ (pixelEffect s).fq = s.fq) ∨
    SupplyIdle (pixelEffect s) := by
  by_cases he : AtActivePixel s ∧ column s % 2 = 0
  · obtain ⟨ha, hx⟩ := he
    obtain ⟨-, -, hnext, hline, -⟩ := consumed_even g ha hx
    have htaken : consumed (pixelEffect s) = consumed s + 1 := by
      rw [consumed_pixelEffect, ← hnext]
      simp [nextPosition, hline]
    obtain ⟨b, rest, hq⟩ := List.exists_cons_of_ne_nil (h.fq_ne_nil g hp ha hx)
    have e := serialize_cons ha hx hq
    refine .inl ⟨ha, hx, h.pixelEffect_of ?_, htaken, b, ?_⟩
    · rw [htaken, e, hq, List.length_cons, Nat.add_assoc, Nat.add_comm 1]
    · rw [pixelEffect_fq, pixelEffect_curByte, pixelEffect_curValid, e]
      exact ⟨hq, rfl, rfl⟩
  · have hq := serialize_fq_of_not_even he
    obtain ⟨-, hsame⟩ | ⟨-, hzero, hall⟩ := consumed_other g he
    · exact .inr (.inl ⟨he, h.pixelEffect_of (by rw [hsame, hq]), hsame, (pixelEffect_fq s).trans hq⟩)
    · obtain ⟨hbalance, hend⟩ := h
      have hoff : s.dmaEn = false := Bool.eq_false_iff.mpr fun hd => by
        have hleft := fetched_lt hi hd
        omega
      have hnil : s.fq = [] := List.eq_nil_of_length_eq_zero (by have := hend hoff; omega)
      refine .inr (.inr ⟨?_, (pixelEffect_dmaEn s).trans hoff, fun ha hx => ?_⟩)
      · rw [pixelEffect_fq, hq, hnil]
      · obtain ⟨ha', hx', -⟩ := even_before_odd g ha hx
        exact absurd ⟨ha', hx'⟩ he

/-! ## The picture -/

/-- While RUNNING: no chain is in use, or the balance of supply holds and the queue holds the picture. -/
def PictureSupply (s : State) : Prop := SupplyIdle s ∨ (SupplyFlowing s ∧ PictureQueued s)

/-- Byte `consumed s` of the frame is the byte that the buffer holds for an even active pixel (R25, R34). -/
theorem streamAddr_consumed {s : State} (g : Geometry s) (ha : AtActivePixel s) (hx : column s % 2 = 0) :
    streamAddr s (consumed s) = pixelAddr s.curPtr s.curPitch (column s) (row s) := by
  obtain ⟨htaken, hcol, -⟩ := consumed_even g ha hx
  have hsplit : consumed s = column s / 2 + s.mode.lb * row s := by rw [htaken]; ring
  unfold streamAddr pixelAddr
  rw [hsplit, Nat.add_mul_div_left _ _ g.lbPos, Nat.add_mul_mod_self_left, Nat.div_eq_of_lt hcol,
    Nat.mod_eq_of_lt hcol, Nat.zero_add]

/-- The head of a queue that holds the picture is the next byte of the frame, and the rest holds what follows. -/
theorem PictureQueued.head_and_rest {s : State} {b : Byte} {rest : List Byte} (h : PictureQueued s)
    (hq : s.fq = b :: rest) :
    b = Memory.read s.mem (streamAddr s (consumed s)) ∧
    rest = (List.range rest.length).map (fun j => Memory.read s.mem (streamAddr s (consumed s + 1 + j))) := by
  have hqueue := h.1
  rw [hq, List.length_cons, List.range_succ_eq_map, List.map_cons, List.map_map] at hqueue
  obtain ⟨hb, hrest⟩ := List.cons.inj hqueue
  refine ⟨hb, hrest.trans (List.map_congr_left fun j _ => ?_)⟩
  show Memory.read s.mem (streamAddr s (consumed s + (j + 1))) = _
  rw [Nat.add_right_comm, Nat.add_assoc _ j 1]

/-- PIXEL keeps the picture in the queue. -/
theorem PictureSupply.pixelEffect {s : State} (h : PictureSupply s) (hi : BlockInv s) (ht : TimersRun s)
    (hp : ¬ PixelHeld s) : PictureSupply (Machine.pixelEffect s) := by
  have g := geometry hi ht
  have hstream : ∀ k, streamAddr (Machine.pixelEffect s) k = streamAddr s k := fun k => by simp [streamAddr]
  obtain hidle | ⟨hflow, hpic⟩ := h
  · exact .inl (hidle.pixelEffect g)
  obtain ⟨ha, hx, hflow', htaken, b, hq, hb, hvalid⟩ | ⟨he, hflow', htaken, hq⟩ | hidle :=
    hflow.pixelEffect_cases hi g hp
  · obtain ⟨hhead, hrest⟩ := hpic.head_and_rest hq
    refine .inr ⟨hflow', ?_, fun ha' hx' => ⟨hvalid, ?_⟩⟩
    · simpa only [htaken, hstream, pixelEffect_mem] using hrest
    · obtain ⟨-, -, hpos, hline⟩ := even_before_odd g ha' hx'
      have haddr : pixelAddr s.curPtr s.curPitch (column (Machine.pixelEffect s)) (row (Machine.pixelEffect s)) =
          pixelAddr s.curPtr s.curPitch (column s) (row s) := by
        obtain ⟨-, hleft, -⟩ := ha
        unfold pixelAddr column row at *
        rw [hpos, hline, pixelEffect_mode]
        omega
      rw [hb, pixelEffect_mem, pixelEffect_curPtr, pixelEffect_curPitch, haddr, hhead,
        streamAddr_consumed g ha hx]
  · refine .inr ⟨hflow', ?_, fun ha' hx' => ?_⟩
    · simpa only [htaken, hstream, pixelEffect_mem, hq] using hpic.1
    · obtain ⟨ha, hx, -⟩ := even_before_odd g ha' hx'
      exact absurd ⟨ha, hx⟩ he
  · exact .inl hidle

/-! ## DMA_READ and the supply -/

/-- With no store under way a read delivers what memory holds. -/
theorem memRead_of_settled {s : State} (h : StoresSettled s) (a n : Nat) :
    memRead s a n = (List.range n).map (fun i => Memory.read s.mem (a + i)) := by
  obtain ⟨hflushed, hfresh⟩ := h
  have hnone : ∀ x, newerBytes s x = [] := fun x => by simp [newerBytes, hflushed, hfresh]
  exact List.map_congr_left fun i _ => readByte_of_none_newer (hnone (a + i))

/-- A read keeps the balance of supply. -/
theorem SupplyFlowing.dmaBody {s t : State} (h : SupplyFlowing s) (hd : s.dmaEn = true)
    (e : dmaBody s = some t) : SupplyFlowing t := by
  obtain ⟨hfetched, hend⟩ := fetched_dmaBody hd e
  obtain ⟨hbalance, -⟩ := h
  obtain ⟨-, rfl⟩ := dmaBody_some.mp e
  refine ⟨?_, fun hoff => ?_⟩
  · rw [hfetched, hbalance, consumed_eq, consumed_eq]
    simp [memRead_length, Nat.add_assoc]
  · rw [hend hoff]
    simp

/-- A read of settled memory appends the next bytes of the frame (R27, R34). -/
theorem PictureQueued.dmaBody {s t : State} (h : PictureQueued s) (hflow : SupplyFlowing s) (hi : BlockInv s)
    (hs : StoresSettled s) (hd : s.dmaEn = true) (e : dmaBody s = some t) : PictureQueued t := by
  obtain ⟨hqueue, hbyte⟩ := h
  obtain ⟨hbalance, -⟩ := hflow
  obtain ⟨-, rfl⟩ := dmaBody_some.mp e
  have hread : memRead s (dmaAddr s) s.curG.bytes = (List.range s.curG.bytes).map
      (fun i => Memory.read s.mem (streamAddr s (consumed s + (s.fq.length + i)))) := by
    rw [memRead_of_settled hs]
    refine List.map_congr_left fun i hmem => ?_
    rw [← Nat.add_assoc, ← hbalance, hi.streamAddr_fetched hd (List.mem_range.mp hmem)]
  refine ⟨?_, fun ha hx => ?_⟩
  · have hall : s.fq ++ memRead s (dmaAddr s) s.curG.bytes =
        (List.range (s.fq.length + s.curG.bytes)).map
          (fun j => Memory.read s.mem (streamAddr s (consumed s + j))) := by
      rw [List.range_add, List.map_append, ← hqueue, hread, List.map_map]
      rfl
    simpa [streamAddr, consumed_eq, memRead_length] using hall
  · simpa [column, row] using hbyte (by simpa [AtActivePixel] using ha) (by simpa [column] using hx)

/-! ## The frame service and the supply -/

/-- Where everything is settled there is nothing to settle. -/
theorem StoresSettled.settle_eq {s : State} (h : StoresSettled s) : settle s = s := by
  obtain ⟨hflushed, -⟩ := h
  obtain ⟨⟩ := s
  obtain rfl : _ = [] := hflushed
  rfl

/-- Outside the active lines a reloaded chain has fetched nothing, taken nothing and queued nothing (R74). -/
theorem flowing_loadDescriptor {s : State} (hv : vaActive s = false) :
    SupplyFlowing (loadDescriptor s) ∧ PictureQueued (loadDescriptor s) := by
  have htaken : consumed (loadDescriptor s) = 0 := if_neg (by simpa [vaActive] using hv)
  refine ⟨⟨?_, nofun⟩, rfl, fun ha => ?_⟩
  · rw [htaken]
    simp [fetched]
  · exact absurd ((vaActive_iff s).mpr ha.1) (by simp [hv])

/-- The re-arm of a frame service starts the picture of the queued buffer, or leaves the one there is. -/
theorem Rearmed.pictureSupply {s u : State} (hu : Rearmed s u) (h : PictureSupply s) (hi : BlockInv s)
    (hs : StoresSettled s) (hr : s.runstate = .running) (hv : vaActive s = false) : PictureSupply u := by
  unfold Rearmed at hu
  rw [hs.settle_eq] at hu
  obtain ⟨-, rfl⟩ | ⟨ha, hspace, rfl⟩ := hu
  · exact h
  · obtain ⟨hflow, hpic⟩ := flowing_loadDescriptor hv
    have e := dmaBody_loadDescriptor.mpr ⟨hspace, rfl⟩
    exact .inr ⟨hflow.dmaBody rfl e, hpic.dmaBody hflow (hi.loadDescriptor hr ha) hs rfl e⟩

/-! ## Every step -/

/-- What the supply and the picture are read from: the mode and the position, the current buffer, the chain, the
queue, the current byte and memory. -/
def pictureSources (s : State) :
    (ModeRegs × Nat × Nat) × (Word × Word) × (Bool × Nat × Nat) × List Byte × (Byte × Bool) × List Host.Cell :=
  ((s.mode, s.hpos, s.vline), (s.curPtr, s.curPitch), (s.dmaEn, s.dmaLine, s.dmaOff), s.fq,
    (s.curByte, s.curValid), s.mem)

theorem PictureSupply.of_same {s t : State} (h : PictureSupply s) (e : pictureSources t = pictureSources s) :
    PictureSupply t := by
  obtain ⟨⟩ := s
  obtain ⟨⟩ := t
  simp only [pictureSources, Prod.mk.injEq] at e
  obtain ⟨⟨rfl, rfl, rfl⟩, ⟨rfl, rfl⟩, ⟨rfl, rfl, rfl⟩, rfl, ⟨rfl, rfl⟩, rfl⟩ := e
  exact h

/-- The host keeps the picture while RUNNING, and CONFIGURE starts without a chain (R48). -/
theorem HostMove.pictureSupply {s t : State} {i : Instr} (m : HostMove s i t)
    (h : s.runstate = .running → PictureSupply s) (hr : t.runstate = .running) : PictureSupply t := by
  cases m with
  | haltMode => cases hr
  | haltAck => cases hr
  | program => exact .inl ⟨rfl, rfl, fun _ _ => rfl⟩
  | stop => cases hr
  | writeMode _ _ _ hu => exact absurd (hu.symm.trans hr) (by decide)
  | _ => exact (h hr).of_same rfl

/-- What keeps the stores keeps them settled. -/
theorem StoresSettled.of_sameStores {s t : State} (hs : StoresSettled s) (h : SameStores s t) :
    StoresSettled t := by
  obtain ⟨-, hlists⟩ := h
  rw [hs.1, hs.2] at hlists
  exact List.append_eq_nil_iff.mp hlists

/-- Every operation keeps the stores settled. -/
theorem exec_storesSettled {s t : State} {i : Instr} (hs : StoresSettled s) (h : exec i s = .next t) :
    StoresSettled t := by
  have hstores := exec_sameStores_or_settled h
  rw [hs.settle_eq, or_self] at hstores
  exact hs.of_sameStores hstores

/-- Every operation keeps the picture, by the moves of its agent. -/
theorem exec_pictureSupply {s : State} (hi : BlockInv s) (hs : StoresSettled s)
    (h : s.runstate = .running → PictureSupply s) :
    ∀ i t, exec i s = .next t → t.runstate = .running → PictureSupply t := by
  apply exec_moves
  case host => exact fun _ _ _ m _ => m.pictureSupply h
  case command => exact fun _ _ _ _ _ _ _ ht => ht
  case pixel => exact fun _ ht hp hr => (h ((pixelEffect_runstate s).symm.trans hr)).pixelEffect hi ht hp
  case read =>
    intro _ _ hd _ t e _
    obtain ⟨-, hoff, -⟩ | ⟨hflow, hpic⟩ := h (hi.dmaArmed hd).1
    · simp [hd] at hoff
    · exact .inr ⟨hflow.dmaBody hd e, hpic.dmaBody hflow hi hs hd e⟩
  case late => exact fun _ hr _ _ _ _ _ => (h hr).of_same rfl
  case service =>
    intro _ hr _ _ _ hv u hu
    have hsupply := hu.pictureSupply (h hr) hi hs hr hv
    exact ⟨fun _ _ => hsupply.of_same rfl, fun _ _ => hsupply.of_same rfl⟩
  case release => exact fun _ _ _ _ hr => (h hr).of_same rfl
  case reset => exact nofun

theorem PictureInv.exec {s t : State} {i : Instr} (h : PictureInv s) (hi : BlockInv s)
    (e : exec i s = .next t) : PictureInv t :=
  ⟨exec_storesSettled h.1 e, exec_pictureSupply hi h.1 h.2 i t e⟩

/-- What writes neither the stores nor RUNSTATE nor what the picture is read from keeps the picture. -/
theorem PictureInv.of_same {s t : State} (h : PictureInv s) (hstores : SameStores s t)
    (hr : t.runstate = s.runstate) (e : pictureSources t = pictureSources s) : PictureInv t :=
  ⟨h.1.of_sameStores hstores, fun ht => PictureSupply.of_same (h.2 (hr.symm.trans ht)) e⟩

/-- Settles O56: a step is an operation from a state that differs in the schedule or the draw counter, a refusal,
or an event passed over; a host store it is not. -/
theorem stepKeepsPicture : Obligations.StepKeepsPicture := by
  intro s t hi h hstore hstep
  obtain ⟨x, rest, i, -, -, e⟩ | ⟨a, -, -, e⟩ | ⟨rest, -, rfl⟩ | ⟨a, b, rest, hs, -⟩ | ⟨rest, rfl⟩ :=
    step_cases hstep
  · exact PictureInv.exec (s := afterEvent rest s) (h.of_same ⟨rfl, rfl⟩ rfl rfl) (hi.of_unread rfl) e
  · exact PictureInv.exec (s := drawn s) (h.of_same ⟨rfl, rfl⟩ rfl rfl) (hi.of_unread rfl) e
  · exact h.of_same ⟨rfl, rfl⟩ rfl rfl
  · exact absurd hs (hstore a b rest)
  · exact h.of_same ⟨rfl, rfl⟩ rfl rfl

/-- Settles O57: an even column shows the head of the queue, the next byte of the frame; an odd one the current
byte. -/
theorem armedPixelShowsBuffer : Obligations.ArmedPixelShowsBuffer := by
  intro s t hi hinv hr hbusy ha h
  obtain ⟨-, ⟨ht, hp⟩, rfl⟩ := execPixel_next.mp h
  have g := geometry hi ht
  obtain ⟨hflow, hpic⟩ := (hinv.2 hr).resolve_left hbusy
  rw [pixelEffect_pix, pixelEffect_draws]
  change _ = nibbleAt (Memory.read s.mem (pixelAddr s.curPtr s.curPitch (column s) (row s))) (column s) ∧ _
  obtain hx | hx := Nat.mod_two_eq_zero_or_one (column s)
  · obtain ⟨b, rest, hq⟩ := List.exists_cons_of_ne_nil (hflow.fq_ne_nil g hp ha hx)
    rw [serialize_cons ha hx hq, (hpic.head_and_rest hq).1, streamAddr_consumed g ha hx]
    exact ⟨rfl, rfl⟩
  · obtain ⟨hvalid, hbyte⟩ := hpic.2 ha hx
    rw [serialize_valid ha hx hvalid, hbyte]
    exact ⟨rfl, rfl⟩

end Sys2Proof.Machine
end

section
/-! SUPPORT. Settles the statements of spec/30_encoding.md: the operation map (R41), the decoder and the encoder
as inverses (R39 to R41), and the reserved words and registers (R40, R42). -/

namespace Sys2Proof

/-! ## The fields of a command word -/

@[simp] theorem cmdRsv_commandWord (op : BitVec 8) (f : Bool) : cmdRsv (commandWord op f) = 0 := by
  unfold cmdRsv commandWord
  rw [BitVec.extractLsb'_append_eq_of_le (by omega)]
  exact BitVec.extractLsb'_append_eq_left

@[simp] theorem cmdFlag_commandWord (op : BitVec 8) (f : Bool) : cmdFlag (commandWord op f) = f := by
  unfold cmdFlag commandWord
  rw [BitVec.getLsbD_append, if_neg (by omega), BitVec.getLsbD_append]
  simp

@[simp] theorem cmdOp_commandWord (op : BitVec 8) (f : Bool) : cmdOp (commandWord op f) = op :=
  BitVec.extractLsb'_append_eq_right

/-- A word is the command word of its fields exactly when RSV is 0 (R40). -/
theorem eq_commandWord_iff {w : Word} {op : BitVec 8} {f : Bool} :
    w = commandWord op f ↔ cmdRsv w = 0 ∧ cmdFlag w = f ∧ cmdOp w = op := by
  constructor
  · rintro rfl
    simp
  · rintro ⟨hr, rfl, rfl⟩
    conv_lhs => rw [← fields_append w, hr]
    rfl

/-! ## The decoder and the encoder are inverses -/

/-- Settles O3: a command's word has RSV 0, the command's operation code and its flag; every other well-formed
instruction stands for itself. -/
theorem decodeEncodeRoundTrip : Obligations.DecodeEncodeRoundTrip := by
  intro i h
  cases i with
  | nop | configure | setNextBuffer | stop | registerCallback | eoi =>
    simp [encode, decode, decodeCommand, withoutFlag]
  | wr n v => exact if_neg (by simpa [wellFormed] using h)
  | rd | pixel | dmaRead | serviceEnter | waitRelease | hwReset => rfl

/-- Each of the eight words that decode is the encoding of what it decodes to. -/
theorem encode_of_decodeCommand {w : Word} {i : Instr} (h : decodeCommand w = .ok i) :
    wellFormed i = true ∧ encode i = .busWrite cmdRegister w := by
  obtain ⟨rfl, rfl⟩ | ⟨rfl, rfl⟩ | ⟨rfl, rfl⟩ | ⟨rfl, rfl⟩ | ⟨rfl, rfl⟩ | ⟨rfl, rfl⟩ | ⟨rfl, rfl⟩ | ⟨rfl, rfl⟩ :=
    Machine.decodeCommand_ok h <;> exact ⟨rfl, rfl⟩

/-- Settles O4: a write to CMD decodes by its word; every other input decodes to the instruction that is
encoded as it. -/
theorem decodedInputIsEncoding : Obligations.DecodedInputIsEncoding := by
  intro x i h
  cases x with
  | busWrite n v =>
    by_cases hn : n = cmdRegister
    · subst hn
      exact encode_of_decodeCommand h
    · obtain rfl : .wr n v = i := by simpa [decode, hn] using h
      exact ⟨by simpa [wellFormed] using hn, rfl⟩
  | busRead n => cases h; exact ⟨rfl, rfl⟩
  | auto a => cases h; cases a <;> exact ⟨rfl, rfl⟩

/-- A word decodes to a well-formed instruction exactly when the instruction is encoded as the write of that
word to CMD. -/
theorem decodeCommand_eq_ok_iff {w : Word} {i : Instr} (hi : wellFormed i = true) :
    decodeCommand w = .ok i ↔ encode i = .busWrite cmdRegister w :=
  ⟨fun h => (encode_of_decodeCommand h).2, fun h => by
    simpa [h, decode] using decodeEncodeRoundTrip i hi⟩

/-! ## The operation map -/

/-- A row whose mask covers the whole word selects the command's one word. -/
theorem and_fullMask_eq_iff_decode {w v : Word} {i : Instr} (hi : wellFormed i = true)
    (hv : encode i = .busWrite cmdRegister v) : w &&& 0xFFFFFFFF = v ↔ decodeCommand w = .ok i := by
  rw [decodeCommand_eq_ok_iff hi, hv, show w &&& 0xFFFFFFFF = w from BitVec.and_allOnes]
  simp [eq_comm]

/-- The mask 0xFFFFFEFF leaves out the flag: it selects the words with RSV 0 and one operation code. -/
theorem and_flaglessMask_eq_iff {w : Word} {op : BitVec 8} :
    w &&& 0xFFFFFEFF = commandWord op false ↔ w = commandWord op (cmdFlag w) := by
  have hrsv : cmdRsv (w &&& 0xFFFFFEFF) = cmdRsv w := by
    unfold cmdRsv
    rw [BitVec.extractLsb'_and]
    exact BitVec.and_allOnes
  have hop : cmdOp (w &&& 0xFFFFFEFF) = cmdOp w := by
    unfold cmdOp
    rw [BitVec.extractLsb'_and]
    exact BitVec.and_allOnes
  have hflag : cmdFlag (w &&& 0xFFFFFEFF) = false := by simp [cmdFlag]
  simp only [eq_commandWord_iff, hrsv, hop, hflag, true_and]

/-- A row that leaves out the flag selects the command's word with either flag. -/
theorem and_flaglessMask_eq_iff_decode {w : Word} {op : BitVec 8} {i : Instr} (hi : wellFormed i = true)
    (hv : encode i = .busWrite cmdRegister (commandWord op (cmdFlag w))) :
    w &&& 0xFFFFFEFF = commandWord op false ↔ decodeCommand w = .ok i := by
  rw [decodeCommand_eq_ok_iff hi, hv, and_flaglessMask_eq_iff]
  simp [eq_comm]

/-- The decoder rejects exactly the reserved words of R42. -/
theorem decodeCommand_error_iff (w : Word) :
    (∃ e, decodeCommand w = .error e) ↔
      6 ≤ w.toNat % 256 ∨ 512 ≤ w.toNat ∨ (w.getLsbD 8 = true ∧ w.toNat % 256 ∈ [0, 1, 3, 5]) := by
  rw [decodeCommand_toNat, show w.getLsbD 8 = _ from cmdFlag_eq w]
  generalize w.toNat = n
  unfold withoutFlag
  split_ifs <;> simp_all
  omega

/-- Settles O2: the rows with a full mask, the rows that leave out the flag, and the reserved words. -/
theorem decoderIsOperationMap : Obligations.DecoderIsOperationMap := fun w =>
  ⟨and_fullMask_eq_iff_decode rfl rfl, and_fullMask_eq_iff_decode rfl rfl,
    and_flaglessMask_eq_iff_decode (op := 0x02) rfl rfl, and_fullMask_eq_iff_decode rfl rfl,
    and_flaglessMask_eq_iff_decode (op := 0x04) rfl rfl, and_fullMask_eq_iff_decode rfl rfl,
    decodeCommand_error_iff w⟩

/-- Settles O1: each listed word and input, evaluated. -/
theorem commandWordsDecode : Obligations.CommandWordsDecode := by
  unfold Obligations.CommandWordsDecode
  decide

namespace Machine

/-! ## Writes to CMD -/

/-- A write to CMD of a word that decodes has the effect of the command (R40, R82). -/
theorem hostEffect_wr_of_decode {w : Word} {i : Instr} (h : decodeCommand w = .ok i) (s : State) :
    hostEffect (.wr 0x0E w) s = hostEffect i s := by
  obtain ⟨e, he, -⟩ | ⟨j, hj, -, heff⟩ := commandEffect_cases w s
  · cases h.symm.trans he
  · obtain rfl : i = j := Except.ok.inj (h.symm.trans hj)
    exact heff

/-- A write to CMD of a reserved word is refused (R42). -/
theorem hostEffect_wr_of_reject {w : Word} {e : DecodeReject} (h : decodeCommand w = .error e) (s : State) :
    hostEffect (.wr 0x0E w) s = refuse .reservedCommand s := by
  obtain ⟨-, -, heff⟩ | ⟨j, hj, -, -⟩ := commandEffect_cases w s
  · exact heff
  · cases h.symm.trans hj

/-- Settles O6: both are host operations, under the same enabling condition and with the same effect. -/
theorem busWriteToCmdIsCommand : Obligations.BusWriteToCmdIsCommand := by
  intro w i s h
  rw [exec_hostOp rfl, exec_hostOp (isHostOp_of_isCommand (isCommand_of_decode h)),
    funext (hostEffect_wr_of_decode h)]

/-! ## Refusals -/

/-- Where the host has a step no mark is set yet, so a refusal sets REFUSED and nothing else (R98). -/
theorem HostCanAct.refuse_eq {s : State} (hc : HostCanAct s) (why : RefuseReason) :
    refuse why s = { s with refused := some why } := by
  obtain ⟨⟨-, hr⟩, -⟩ := hc
  simp [refuse, hr]

/-- A host operation whose effect is a refusal sets REFUSED and nothing else, where the host has a step. -/
theorem HostCanAct.exec_refuses {s : State} (hc : HostCanAct s) {i : Instr} {why : RefuseReason}
    (hi : isHostOp i = true) (he : hostEffect i s = refuse why s) :
    exec i s = .next { s with refused := some why } :=
  (exec_hostOp_next hi).mpr ⟨hc, by rw [he, hc.refuse_eq]⟩

/-- A step whose next event is an input runs it from the state whose schedule has moved on. -/
theorem step_of_input {s : State} {x : Input} {rest : List Event} (hs : s.schedule = .input x :: rest) :
    step s = runInput x (afterEvent rest s) := by
  unfold step nextStep
  rw [hs]
  rfl

/-- An input that does not decode is a refused host access (R42). -/
theorem HostCanAct.runInput_rejected {s : State} (hc : HostCanAct s) {x : Input} {e : DecodeReject}
    (hd : decode x = .error e) : runInput x s = .next { s with refused := some .reservedCommand } := by
  unfold runInput
  rw [hd]
  exact passOver_next.mpr (.inl (hostStep_next.mpr ⟨hc, (hc.refuse_eq _).symm⟩))

theorem wrEffect_noSuchRegister {n : Nat} (h : 0x15 ≤ n) (v : Word) (s : State) :
    wrEffect n v s = refuse .noSuchRegister s := if_pos h

/-- No register is numbered 0x15 or above (R7). -/
theorem readReg_eq_none {n : Nat} (h : 0x15 ≤ n) (s : State) : readReg s n = none := by
  obtain ⟨k, rfl⟩ := Nat.exists_eq_add_of_le' h
  rfl

theorem rdEffect_noSuchRegister {n : Nat} (h : 0x15 ≤ n) (s : State) :
    rdEffect n s = refuse .noSuchRegister s := by
  unfold rdEffect
  rw [readReg_eq_none h]

/-- Settles O5: a reserved word is one the decoder rejects, and both accesses to a register that does not exist
refuse. -/
theorem reservedIsRefused : Obligations.ReservedIsRefused := by
  refine fun s hc => ⟨fun w hw => ?_, fun n v hn => ⟨?_, ?_⟩⟩
  · obtain ⟨e, he⟩ := (decodeCommand_error_iff w).mpr hw
    refine ⟨hc.exec_refuses rfl (hostEffect_wr_of_reject he s), fun rest => ?_⟩
    have hc' : HostCanAct { s with schedule := rest } := hc
    exact (step_of_input rfl).trans (hc'.runInput_rejected (x := .busWrite 0x0E w) he)
  · exact hc.exec_refuses rfl (wrEffect_noSuchRegister hn v s)
  · exact hc.exec_refuses rfl (rdEffect_noSuchRegister hn s)

end Machine
end Sys2Proof
end

section
/-! SUPPORT. Settles the statement of spec/40_configure.md about the whole effect of CONFIGURE (R45 to R48). -/

namespace Sys2Proof.Machine

/-- The checks in the order K2, K3, K4, K5, each as the condition of R44 on the mode registers (R47). -/
theorem modeError_eq (m : ModeRegs) : modeError m =
    if ¬ (8 ∣ m.ha.toNat ∧ 8 ∣ m.hfp.toNat ∧ 8 ∣ m.hs.toNat ∧ 8 ∣ m.hbp.toNat) then some .hNotMult8
    else if Config.validRatio m.num m.den = false then some .badRatio
    else if ¬ (0 < m.ha.toNat ∧ 0 < m.hs.toNat ∧ 0 < m.va.toNat ∧ 0 < m.vs.toNat) then some .badTiming
    else if m.bpp ≠ 4 then some .badBpp
    else none := by
  simp only [modeError, Bool.not_eq_true', ← Bool.not_eq_true (checkMult8 m), ← Bool.not_eq_true (checkTiming m),
    ← Bool.not_eq_true (checkBpp m), checkMult8_iff, checkTiming_iff, checkBpp_iff, checkRatio, ne_eq]

/-- The handshake, its failure first (R46). -/
theorem resetHandshake_eq (s : State) : resetHandshake s =
    if Config.resetAckClears s.draws = false then raiseHalt .resetAck (drawn s) else programTimers (drawn s) := by
  unfold resetHandshake
  cases Config.resetAckClears s.draws <;> rfl

/-- In UNCONFIGURED a mode without error reaches the handshake (R45). -/
theorem exec_configure_of_no_modeError {s : State} (hc : HostCanAct s) (hr : s.runstate = .unconfigured)
    (he : modeError s.mode = none) : exec .configure s = .next (resetHandshake s) := by
  refine (exec_hostOp_next rfl).mpr ⟨hc, ?_⟩
  show resetHandshake s = configureEffect s
  unfold configureEffect
  rw [if_neg (not_not.mpr hr), he]

/-- Once a mode has been selected CONFIGURE is a refusal (R45). -/
theorem HostCanAct.exec_configure_refused {s : State} (hc : HostCanAct s) (hr : s.runstate ≠ .unconfigured) :
    exec .configure s = .next { s with refused := some .configureTwice } :=
  hc.exec_refuses rfl (if_pos hr)

/-- Settles O16: the refusal; else the mode error there is, check by check, or the handshake by its draw. -/
theorem configureOutcome : Obligations.ConfigureOutcome := by
  refine ⟨by decide, fun s hc => ⟨hc.exec_configure_refused, fun hr => ?_⟩⟩
  have herror {c} (he : modeError s.mode = some c) := exec_configure_of_modeError hc hr he
  have hmode := modeError_eq s.mode
  split_ifs at hmode ⊢ with hK2 hK3 hK4 hK5 hack
  · exact herror hmode -- K3 fails
  · exact herror hmode -- K5 fails
  · rw [exec_configure_of_no_modeError hc hr hmode, resetHandshake_eq, if_pos hack]
    rfl
  · rw [exec_configure_of_no_modeError hc hr hmode, resetHandshake_eq, if_neg hack]
    rfl
  · exact herror hmode -- K4 fails
  · exact herror hmode -- K2 fails

end Sys2Proof.Machine
end

section
/-! SUPPORT. Settles the statement of spec/41_timing_generator.md about the balance of supply that the serializer and
the DMA reader keep between them (R60, R69, R71). -/

namespace Sys2Proof.Machine

/-! ## The balance of supply -/

/-- No chain is in use, or what was fetched is what was taken and what is queued. -/
def SupplyBalanced (s : State) : Prop := SupplyIdle s ∨ SupplyFlowing s

/-- What the balance of supply is read from: the mode and the position, the chain, the queue, and whether the
current byte is valid. -/
def supplySources (s : State) : (ModeRegs × Nat × Nat) × (Bool × Nat × Nat) × List Byte × Bool :=
  ((s.mode, s.hpos, s.vline), (s.dmaEn, s.dmaLine, s.dmaOff), s.fq, s.curValid)

theorem SupplyBalanced.of_same {s t : State} (h : SupplyBalanced s) (e : supplySources t = supplySources s) :
    SupplyBalanced t := by
  obtain ⟨⟩ := s
  obtain ⟨⟩ := t
  simp only [supplySources, Prod.mk.injEq] at e
  obtain ⟨⟨rfl, rfl, rfl⟩, ⟨rfl, rfl, rfl⟩, rfl, rfl⟩ := e
  exact h

/-- PIXEL keeps the balance: it takes the byte it counts, or takes nothing, or ends the frame with the chain over
and the queue empty. -/
theorem SupplyBalanced.pixelEffect {s : State} (h : SupplyBalanced s) (hi : BlockInv s) (ht : TimersRun s)
    (hp : ¬ PixelHeld s) : SupplyBalanced (Machine.pixelEffect s) := by
  have g := geometry hi ht
  obtain hidle | hflow := h
  · exact .inl (hidle.pixelEffect g)
  · obtain ⟨-, -, hflow', -⟩ | ⟨-, hflow', -⟩ | hidle := hflow.pixelEffect_cases hi g hp
    · exact .inr hflow'
    · exact .inr hflow'
    · exact .inl hidle

/-- A read of an enabled chain keeps the balance: an idle supply has no enabled chain. -/
theorem SupplyBalanced.dmaBody {s t : State} (h : SupplyBalanced s) (hd : s.dmaEn = true)
    (e : dmaBody s = some t) : SupplyBalanced t := by
  obtain ⟨-, hoff, -⟩ | hflow := h
  · simp [hd] at hoff
  · exact .inr (hflow.dmaBody hd e)

/-- The re-arm of a frame service outside the active lines starts a balanced chain, or leaves the supply there
is (R74). -/
theorem Rearmed.supplyBalanced {s u : State} (hu : Rearmed s u) (h : SupplyBalanced s)
    (hv : vaActive s = false) : SupplyBalanced u := by
  obtain ⟨-, rfl⟩ | ⟨-, hspace, rfl⟩ := hu
  · exact h.of_same rfl
  · have hflow := (flowing_loadDescriptor (s := settle s) hv).1
    exact .inr (hflow.dmaBody rfl (dmaBody_loadDescriptor.mpr ⟨hspace, rfl⟩))

/-- The host keeps the balance while RUNNING, and CONFIGURE starts without a chain (R48). -/
theorem HostMove.supplyInv {s t : State} {i : Instr} (m : HostMove s i t) (h : SupplyInv s) :
    SupplyInv t := by
  intro hr
  cases m with
  | haltMode => cases hr
  | haltAck => cases hr
  | program => exact .inl ⟨rfl, rfl, fun _ _ => rfl⟩
  | stop => cases hr
  | writeMode _ _ _ hu => exact absurd (hu.symm.trans hr) (by decide)
  | _ => exact SupplyBalanced.of_same (h hr) rfl

/-- Every operation keeps the balance of supply, by the moves of its agent. -/
theorem SupplyInv.exec {s : State} (h : SupplyInv s) (hi : BlockInv s) :
    ∀ i t, exec i s = .next t → SupplyInv t := by
  apply exec_moves
  case host => exact fun _ _ _ m _ => m.supplyInv h
  case command => exact fun _ _ _ _ _ _ _ ht => ht
  case pixel =>
    exact fun _ ht hp hr =>
      SupplyBalanced.pixelEffect (h ((pixelEffect_runstate s).symm.trans hr)) hi ht hp
  case read => exact fun _ _ hd _ _ e _ => SupplyBalanced.dmaBody (h (hi.dmaArmed hd).1) hd e
  case late => exact fun _ hr _ _ _ _ _ => SupplyBalanced.of_same (h hr) rfl
  case service =>
    intro _ hr _ _ _ hv u hu
    have hsupply := hu.supplyBalanced (h hr) hv
    exact ⟨fun _ _ => hsupply.of_same rfl, fun _ _ => hsupply.of_same rfl⟩
  case release => exact fun _ _ _ _ => h
  case reset => exact nofun

/-- Settles O55: a step is an operation from a state that differs in the schedule or the draw counter, or writes
nothing the supply is read from. -/
theorem stepKeepsSupply : Obligations.StepKeepsSupply := by
  intro s t hi h hstep
  obtain ⟨x, rest, i, -, -, e⟩ | ⟨a, -, -, e⟩ | ⟨rest, -, rfl⟩ | ⟨a, b, rest, -, rfl⟩ | ⟨rest, rfl⟩ :=
    step_cases hstep
  · exact SupplyInv.exec (s := afterEvent rest s) h (hi.of_unread rfl) i t e
  · exact SupplyInv.exec (s := drawn s) h (hi.of_unread rfl) _ t e
  · exact h
  · exact h
  · exact h

end Sys2Proof.Machine
end

section
/-! SUPPORT. Settles the statements of spec/41_timing_generator.md about the autonomous steps: where each is enabled
(R52, R67, R68, R71, R73, R84), and what PIXEL emits, takes, moves and raises (R20, R55, R60 to R62, R72). -/

namespace Sys2Proof.Machine

/-! ## Who can act by itself -/

/-- The frame interrupt can be taken exactly where the first read of an armed buffer lies inside the address
space (R74; log 13). -/
theorem exists_takeFrameInterrupt (s : State) :
    (∃ t, takeFrameInterrupt s = some t) ↔ (s.armed = true → s.nextPtr.toNat + s.nextG.bytes ≤ 2 ^ 32) := by
  have htake : (∃ t, takeFrameInterrupt s = some t) ↔ ∃ u, rearm (settle s) = some u := by
    unfold takeFrameInterrupt
    cases rearm (settle s) <;> simp
  rw [htake]
  cases ha : s.armed <;> simp [rearm_some, dmaBody_loadDescriptor, ha]

/-- A frame service is late, or takes the interrupt where it can. -/
theorem exists_execServiceEnter {s : State} (hu : Unmarked s) :
    (∃ t, exec .serviceEnter s = .next t) ↔
      (s.runstate = .running ∧ s.irqEn = true ∧ s.fbPending = true ∧ s.inService = false) ∧
        (vaActive s = true ∨ ∃ t, takeFrameInterrupt s = some t) := by
  change (∃ t, execServiceEnter s = .next t) ↔ _
  simp only [execServiceEnter_next, hu, true_and, exists_and_left, exists_or, exists_eq, and_true]
  cases vaActive s <;> simp

/-- Settles O14: each operation's inversion lemma names its enabling condition and, for a read, its bound. -/
theorem autonomousStepsEnabled : Obligations.AutonomousStepsEnabled := by
  refine fun s hu => ⟨⟨fun ⟨t, h⟩ => ?_, fun h => ⟨_, execPixel_next.mpr ⟨hu, h, rfl⟩⟩⟩,
    ⟨fun ⟨t, h⟩ => ?_, fun ⟨ht, hd, hq, hspace⟩ => ?_⟩, ?_, ⟨fun ⟨t, h⟩ => ?_, fun h => ?_⟩, ⟨_, rfl⟩⟩
  · exact (execPixel_next.mp h).2.1
  · obtain ⟨-, ⟨ht, hd, hq⟩, e⟩ := execDmaRead_next.mp h
    exact ⟨ht, hd, hq, (dmaBody_some.mp e).1⟩
  · exact ⟨_, execDmaRead_next.mpr ⟨hu, ⟨ht, hd, hq⟩, dmaBody_some.mpr ⟨hspace, rfl⟩⟩⟩
  · rw [exists_execServiceEnter hu, exists_takeFrameInterrupt, ← vaActive_iff]
    tauto
  · exact (execWaitRelease_next.mp h).2.1
  · exact ⟨_, execWaitRelease_next.mpr ⟨hu, h, rfl⟩⟩

/-! ## The sample and the pins -/

/-- The pins of a block whose timers are off (R20). -/
theorem pins_of_timersOff {s : State} (h : timersOn s = false) :
    hsyncPin s = false ∧ vsyncPin s = false ∧ pixPins s = 0 ∧ irqPin s = false := by
  simp [hsyncPin, vsyncPin, pixPins, irqPin, h]

/-- The pins of a block whose timers run: the levels last driven, and the interrupt (R20). -/
theorem pins_of_timersOn {s : State} (h : timersOn s = true) :
    hsyncPin s = s.hsync ∧ vsyncPin s = s.vsync ∧ pixPins s = s.pix ∧ irqPin s = (s.fbPending && s.irqEn) := by
  simp [hsyncPin, vsyncPin, pixPins, irqPin, h]

/-- The level of HSYNC by the position and polarity bit 0 (R54, R55). -/
theorem hsyncLevel_eq (s : State) : syncLevel (hsActive s) s.mode.hpol =
    if s.hpos < s.mode.hs.toNat then s.mode.pol.getLsbD 0 else !s.mode.pol.getLsbD 0 := by
  simp [syncLevel, hsActive, ModeRegs.hpol]

/-- The level of VSYNC by the line and polarity bit 1 (R55, R57). -/
theorem vsyncLevel_eq (s : State) : syncLevel (vsActive s) s.mode.vpol =
    if s.vline < s.mode.vs.toNat then s.mode.pol.getLsbD 1 else !s.mode.pol.getLsbD 1 := by
  simp [syncLevel, vsActive, ModeRegs.vpol]

/-- Settles O27: PIXEL's record of writes, and the pins of a block whose timers run or do not. -/
theorem pixelEmitsSample : Obligations.PixelEmitsSample := by
  refine ⟨fun s hu ht hp => ⟨_, execPixel_next.mpr ⟨hu, ⟨ht, hp⟩, rfl⟩, ?_⟩, fun s hr => ?_⟩
  · have hon : timersOn (pixelEffect s) = true :=
      (timersOn_iff _).mpr (by unfold TimersRun at *; rwa [pixelEffect_runstate])
    obtain ⟨hh, hv, hpix, hirq⟩ := pins_of_timersOn hon
    rw [pixelEffect_hsync, hsyncLevel_eq] at hh
    rw [pixelEffect_vsync, vsyncLevel_eq] at hv
    refine ⟨?_, hh, hv, hpix, hirq⟩
    rw [← hsyncLevel_eq, ← vsyncLevel_eq, pixelEffect_fq, pixelEffect_curByte, pixelEffect_curValid,
      pixelEffect_draws, pixelEffect_pix]
    exact pixelEffect_frame s
  · refine pins_of_timersOff (Bool.eq_false_iff.mpr fun hon => ?_)
    have ht := (timersOn_iff s).mp hon
    obtain e | e := hr <;> simp [TimersRun, e] at ht

/-! ## The serializer -/

/-- At an even active pixel with an empty queue there is no byte, and a free value goes on the pins (R60). -/
theorem serialize_nil {s : State} (ha : AtActivePixel s) (hx : column s % 2 = 0) (hq : s.fq = []) :
    serialize s = (drawn { s with curValid := false }, Config.pixelDraw s.draws) := by
  rw [serialize_even ha hx]
  unfold loadByte
  rw [hq]
  rfl

/-- At an odd active pixel without a valid byte a free value goes on the pins (R60). -/
theorem serialize_invalid {s : State} (ha : AtActivePixel s) (hx : column s % 2 = 1) (hc : s.curValid = false) :
    serialize s = (drawn s, Config.pixelDraw s.draws) := by
  rw [serialize_odd ha hx]
  unfold shiftOut
  rw [if_neg (by simp [hc])]

/-- Settles O28: the pixel is blank, or loads a byte, or finds none, or shifts a byte on, or has none. -/
theorem pixelSerializer : Obligations.PixelSerializer := by
  intro s t h
  obtain ⟨-, ⟨-, hp⟩, rfl⟩ := execPixel_next.mp h
  simp only [pixelEffect_pix, pixelEffect_fq, pixelEffect_curByte, pixelEffect_curValid, pixelEffect_draws]
  refine ⟨fun ha => ?_, fun ha hx b rest hq => ?_, fun ha hx hq => ?_, fun ha hx hc => ?_, fun ha hx hc => ?_⟩
  · rw [serialize_blank ha]
    exact ⟨rfl, rfl, rfl, rfl, rfl⟩
  · rw [serialize_cons ha hx hq]
    exact ⟨if_pos hx, rfl, rfl, rfl, rfl⟩
  · rw [serialize_nil ha hx hq]
    exact ⟨Bool.eq_false_iff.mpr fun hd => hp ⟨ha, hx, hq, hd⟩, rfl, hq, rfl, rfl, rfl⟩
  · rw [serialize_valid ha hx hc]
    exact ⟨if_neg (by rw [column, hx]; decide), rfl, rfl, hc, rfl⟩
  · rw [serialize_invalid ha hx hc]
    exact ⟨rfl, rfl, rfl, hc, rfl⟩

/-! ## The frame event -/

/-- `va` falls in a PIXEL exactly when the line was active before it and is not after it (R58, R62). -/
theorem frameEnds_iff (s : State) : frameEnds s ↔
    (s.mode.va0 ≤ s.vline ∧ s.vline < s.mode.va1) ∧
      ¬ (s.mode.va0 ≤ (pixelEffect s).vline ∧ (pixelEffect s).vline < s.mode.va1) := by
  have hfalls : vaFalls s = true ↔ (s.mode.va0 ≤ s.vline ∧ s.vline < s.mode.va1) ∧
      ¬ (s.mode.va0 ≤ nextLine s.mode s.vline ∧ nextLine s.mode s.vline < s.mode.va1) := by
    rw [← activeLine_iff, ← activeLine_iff]
    simp [vaFalls]
  unfold frameEnds
  rw [pixelEffect_vline]
  split_ifs with hl
  · exact ⟨fun h => absurd h.1 (by omega), fun h => absurd h.1 h.2⟩
  · rw [hfalls]
    exact and_iff_right (by omega)

/-- Settles O29: the position PIXEL moves to; where `va` falls, the three cases of the frame event. -/
theorem pixelAdvancesAndRaisesEvent : Obligations.PixelAdvancesAndRaisesEvent := by
  intro s t h
  obtain ⟨⟨hfault, -⟩, -, rfl⟩ := execPixel_next.mp h
  rw [← hfault, ← frameEnds_iff]
  refine ⟨pixelEffect_position s, fun hend => ?_, pixelEffect_noEvent⟩
  obtain ⟨hpending, hmark⟩ := pixelEffect_event hend
  rw [hpending, hmark]
  obtain ⟨hi, e⟩ | ⟨hi, hp, hs, e⟩ | ⟨hi, hbusy, e⟩ := frameEvent_cases s <;> rw [e]
  · simp [hi]
  · simp [hi, hp, hs]
  · refine ⟨by simp [hi], fun _ hp hs => ?_, fun _ _ => ⟨rfl, by simp [hfault]⟩⟩
    simp [hp, hs] at hbusy

/-! ## The position after n pixels -/

/-- The quotient and remainder of the next number: the remainder moves on, or wraps and the quotient moves on. -/
theorem succ_div_mod {n d : Nat} (hd : 0 < d) :
    (n % d + 1 < d ∧ (n + 1) / d = n / d ∧ (n + 1) % d = n % d + 1) ∨
    (n % d + 1 = d ∧ (n + 1) / d = n / d + 1 ∧ (n + 1) % d = 0) := by
  have hlt := Nat.mod_lt n hd
  have hn := Nat.div_add_mod n d
  by_cases h : n % d + 1 < d
  · refine .inl ⟨h, (Nat.div_mod_unique hd).mpr ⟨by omega, h⟩⟩
  · exact .inr ⟨by omega, (Nat.div_mod_unique hd).mpr ⟨by rw [Nat.mul_add]; omega, hd⟩⟩

/-- The position of pixel number `n` of a scan from (0, 0): line `n / HT` modulo VT, pixel `n` modulo HT. -/
def positionOf (m : ModeRegs) (n : Nat) : Nat × Nat := (n / m.ht % m.vt, n % m.ht)

theorem nextPosition_positionOf {m : ModeRegs} (hh : 0 < m.ht) (hv : 0 < m.vt) (n : Nat) :
    nextPosition m (positionOf m n) = positionOf m (n + 1) := by
  unfold nextPosition positionOf
  dsimp only
  obtain ⟨hlt, hdiv, hmod⟩ | ⟨hend, hdiv, hmod⟩ := succ_div_mod (n := n) hh <;> rw [hdiv, hmod]
  · rw [if_pos hlt]
  · rw [if_neg (by omega)]
    obtain ⟨hlt', -, hmod'⟩ | ⟨hend', -, hmod'⟩ := succ_div_mod (n := n / m.ht) hv <;> rw [hmod']
    · rw [if_pos hlt']
    · rw [if_neg (by omega)]

theorem iterate_nextPosition {m : ModeRegs} (hh : 0 < m.ht) (hv : 0 < m.vt) (n : Nat) :
    (nextPosition m)^[n] (0, 0) = positionOf m n := by
  induction n with
  | zero => simp [positionOf]
  | succ n ih => rw [Function.iterate_succ_apply', ih, nextPosition_positionOf hh hv]

/-- The scan is back at a position after one frame (R3, R62). -/
theorem positionOf_add_framePx {m : ModeRegs} (hh : 0 < m.ht) (n : Nat) :
    positionOf m (n + m.framePx) = positionOf m n := by
  unfold positionOf ModeRegs.framePx
  rw [Nat.add_mul_div_left _ _ hh, Nat.add_mod_right, Nat.add_mul_mod_self_left]

/-- Settles O59: PIXEL moves by `nextPosition`, which counts pixels; a run by induction on its PIXEL steps. -/
theorem positionAfterPixels : Obligations.PositionAfterPixels := by
  have hpixel : ∀ s t, exec .pixel s = .next t →
      t.mode = s.mode ∧ (t.vline, t.hpos) = nextPosition s.mode (s.vline, s.hpos) := by
    intro s t h
    obtain ⟨-, -, rfl⟩ := execPixel_next.mp h
    exact ⟨pixelEffect_mode s, pixelEffect_position s⟩
  refine ⟨hpixel, fun m hh hv => ⟨fun n => ⟨iterate_nextPosition hh hv n, ?_⟩, fun τ n hstart hrun => ?_⟩⟩
  · rw [iterate_nextPosition hh hv, iterate_nextPosition hh hv, positionOf_add_framePx hh]
  · change _ = positionOf m n
    induction n with
    | zero => rw [hstart]; simp [positionOf]
    | succ n ih =>
      obtain ⟨hmode, t, ht, hline, hpos⟩ := hrun n (Nat.lt_succ_self n)
      have hprev := ih fun k hk => hrun k (Nat.lt_succ_of_lt hk)
      rw [hline, hpos, (hpixel _ _ ht).2, hmode, hprev, nextPosition_positionOf hh hv]

end Sys2Proof.Machine
end

section
/-! SUPPORT. Settles the statements of spec/42_set_next_buffer.md: the granule (R64), the length of a transfer (R65,
R69), the outcome of SET_NEXT_BUFFER (R63) and its wait (R66, R67). -/

namespace Sys2Proof.Machine

/-! ## The granule -/

theorem Granule.bytes_mem (g : Granule) : g.bytes ∈ [8, 4, 2, 1] := by cases g <;> decide

/-- No size above the granule divides both operands (R64). -/
theorem le_gran_bytes {ptr pitch : Word} {d : Nat} (hd : d ∈ [8, 4, 2, 1]) (hptr : d ∣ ptr.toNat)
    (hpitch : d ∣ pitch.toNat) : d ≤ (gran ptr pitch).bytes := by
  have hne {k : Nat} (hk : ¬ (k ∣ ptr.toNat ∧ k ∣ pitch.toNat)) : d ≠ k := by
    rintro rfl
    exact hk ⟨hptr, hpitch⟩
  simp only [List.mem_cons, List.not_mem_nil, or_false] at hd
  rw [gran_eq]
  split_ifs with h8 h4 h2 <;> dsimp only [Granule.bytes]
  · omega
  · have := hne h8
    omega
  · have := hne h8
    have := hne h4
    omega
  · have := hne h8
    have := hne h4
    have := hne h2
    omega

/-- A divisor of 8 divides a word exactly when it divides the word's low three bits. -/
theorem dvd_low_three_iff {d : Nat} (hd : d ∣ 8) (w : Word) : d ∣ (w &&& 7).toNat ↔ d ∣ w.toNat := by
  rw [BitVec.toNat_and, show (7 : Word).toNat = 2 ^ 3 - 1 from rfl, Nat.and_two_pow_sub_one_eq_mod]
  exact Nat.dvd_mod_iff hd

theorem gran_low_three (ptr pitch : Word) : gran (ptr &&& 7) (pitch &&& 7) = gran ptr pitch := by
  simp only [gran_eq, dvd_low_three_iff (show 8 ∣ 8 by decide), dvd_low_three_iff (show 4 ∣ 8 by decide),
    dvd_low_three_iff (show 2 ∣ 8 by decide)]

/-- Settles O19: the granule is one of the four sizes, divides both operands and is not exceeded by another that
does; divisibility by it is decided by the low three bits. -/
theorem granuleIsLargestDivisor : Obligations.GranuleIsLargestDivisor := fun ptr pitch =>
  have ⟨hptr, hpitch⟩ := gran_dvd ptr pitch
  ⟨Granule.bytes_mem _, hptr, hpitch, fun _ => le_gran_bytes, (gran_low_three ptr pitch).symm⟩

/-! ## The length of a transfer -/

/-- Settles O35: a read fetches one granule of a frame it divides, and an enabled chain has bytes left to fetch. -/
theorem chainEndsWithFrame : Obligations.ChainEndsWithFrame := by
  intro s t hinv h
  obtain ⟨-, ⟨-, hd, -⟩, e⟩ := execDmaRead_next.mp h
  obtain ⟨hcount, hend⟩ := fetched_dmaBody hd e
  have hmode : t.mode = s.mode := by
    obtain ⟨-, rfl⟩ := dmaBody_some.mp e
    simp
  have hline : s.curG.bytes ∣ s.mode.lb := (hinv.curFits hd).lineDivided
  have hframe : s.curG.bytes ∣ s.mode.va.toNat * s.mode.lb := hline.mul_left _
  have hfetched : s.curG.bytes ∣ fetched s := (hline.mul_left _).add (hinv.dmaInFrame hd).2.2
  have hfetched' : s.curG.bytes ∣ fetched t := hcount ▸ hfetched.add dvd_rfl
  have hoff : t.dmaEn = false ↔ fetched t = s.mode.va.toNat * s.mode.lb := by
    refine ⟨hend, fun hall => Bool.eq_false_iff.mpr fun hon => ?_⟩
    have hleft := fetched_lt (hinv.exec _ _ h) hon
    rw [hmode, hall] at hleft
    exact lt_irrefl _ hleft
  refine ⟨Nat.mod_eq_zero_of_dvd hfetched, ?_, hoff, ?_⟩
  · rw [hcount]
    exact granule_fits (fetched_lt hinv hd) hfetched hframe
  · rw [hoff]
    exact (Nat.div_left_inj hfetched' hframe).symm

/-! ## SET_NEXT_BUFFER -/

/-- The four refusals in the order of R63, each as its condition on the operands and the mode. -/
theorem setNextBufferRefusal_eq (wait : Bool) (s : State) : setNextBufferRefusal wait s =
    if s.runstate ≠ .running then some .setBufferWhileNotRunning
    else if wait = true ∧ s.inService = true then some .waitInsideHandler
    else if ¬ (gran s.argPtr s.argPitch).bytes ∣ s.mode.ha.toNat * 4 / 8 then some .granuleNotDividingLine
    else if 2 ^ 32 <
        s.argPtr.toNat + (s.mode.va.toNat - 1) * s.argPitch.toNat + s.mode.ha.toNat * 4 / 8 then
      some .footprintPastEnd
    else none := by
  unfold setNextBufferRefusal
  congr! 4
  · exact Bool.and_eq_true_iff
  · exact Nat.dvd_iff_mod_eq_zero.symm

/-- SET_NEXT_BUFFER sets REFUSED to the refusal there is, or arms the descriptor, and with the flag begins a
wait (R63). -/
theorem HostCanAct.exec_setNextBuffer {s : State} (hc : HostCanAct s) (wait : Bool) :
    exec (.setNextBuffer wait) s = .next ((setNextBufferRefusal wait s).elim
      (if wait then beginWait (armDescriptor s) else armDescriptor s)
      fun why => { s with refused := some why }) := by
  refine (exec_hostOp_next rfl).mpr ⟨hc, ?_⟩
  change _ = setNextBufferEffect wait s
  unfold setNextBufferEffect
  cases setNextBufferRefusal wait s with
  | none => rfl
  | some why => exact (hc.refuse_eq why).symm

/-- Settles O18: the refusal is read off condition by condition; the arming with the wait and without. -/
theorem setNextBufferOutcome : Obligations.SetNextBufferOutcome := by
  refine ⟨by decide, by decide, fun s wait hc => ?_⟩
  rw [hc.exec_setNextBuffer, setNextBufferRefusal_eq]
  dsimp only
  split_ifs <;> rfl

/-! ## The wait -/

/-- A barred step of an unmarked run is answered by what bars it (log 2). -/
theorem whenEnabled_of_bar {bar : Option NotEnabled} {why : NotEnabled} {s : State} (hu : Unmarked s)
    (hb : bar = some why) (k : Host.Outcome State Fault Refusal) :
    whenEnabled bar s k = .refused (.notEnabled why) := by
  subst hb
  exact unlessEnded_of_unmarked hu _

/-- A wait bars the foreground, unless the halt already does (R66, R86). -/
theorem hostBar_of_waiting {s : State} (hr : s.runstate ≠ .halted) (hw : s.waiting = true)
    (hs : s.inService = false) : hostBar s = some .hostBlocked := by
  simp [hostBar, hr, hw, hs]

/-- Settles O10: the wait bars the foreground, and in the handler nothing bars the host. -/
theorem waitBlocksForeground : Obligations.WaitBlocksForeground := by
  refine fun s hu hr hw => ⟨fun hs i hi => ?_, fun hs i hi => ?_⟩
  · rw [exec_hostOp hi]
    exact whenEnabled_of_bar hu (hostBar_of_waiting hr hw hs) _
  · exact ⟨_, (exec_hostOp_next hi).mpr ⟨⟨hu, hr, fun _ => hs⟩, rfl⟩⟩

/-- Where there is no wait to end, that is what bars WAIT_RELEASE (R67). -/
theorem releaseBar_of_nothing {s : State} (h : ¬ (s.waiting = true ∧ s.framecount ≠ s.waitFc)) :
    releaseBar s = some .nothingToRelease := by
  refine if_neg fun ⟨hon, hfc⟩ => h ⟨?_, hfc⟩
  exact (Bool.and_eq_true_iff.mp hon).2

/-- Settles O39: WAIT_RELEASE's enabling condition, and what bars it where there is no wait to end. -/
theorem waitReleaseOutcome : Obligations.WaitReleaseOutcome := by
  refine fun s hu ht => ⟨fun hw hfc => execWaitRelease_next.mpr ⟨hu, ⟨ht, hw, hfc⟩, rfl⟩, fun h => ?_⟩
  refine whenEnabled_of_bar hu (releaseBar_of_nothing fun ⟨hw, hfc⟩ => ?_) _
  obtain hidle | hsame := h
  · exact Bool.false_ne_true (hidle.symm.trans hw)
  · exact hfc hsame

end Sys2Proof.Machine
end

section
/-! SUPPORT. Settles the statements of spec/43_dma_reader.md on the hold of PIXEL (R71) and on the outcome of
DMA_READ (R68). -/

namespace Sys2Proof.Machine

/-! ## The hold of PIXEL -/

/-- With the timers on, the hold is what bars PIXEL where it is held (R71). -/
theorem pixelBar_of_held {s : State} (ht : TimersRun s) (hp : PixelHeld s) : pixelBar s = some .pixelHeld := by
  obtain ⟨ha, hx, hq, hd⟩ := hp
  simp [pixelBar, (timersOn_iff s).mpr ht, (deActive_iff s).mpr ha, column, hx, hq, hd]

/-- After a read the queue holds a byte (R68). -/
theorem dmaBody_fq_ne_nil {s t : State} (e : dmaBody s = some t) : t.fq ≠ [] := by
  obtain ⟨-, rfl⟩ := dmaBody_some.mp e
  refine List.ne_nil_of_length_pos ?_
  have hpos := s.curG.bytes_pos
  simp only [dmaAdvance_fq, emit_fq, drawn_fq, pushRead_fq, List.length_append, memRead_length]
  omega

/-- An enabled chain finds room for its read in an empty queue (R2, R68). -/
theorem room_of_fq_nil {s : State} (hq : s.fq = []) : s.fq.length + s.curG.bytes ≤ Config.fqCap := by
  have hle := s.curG.bytes_le
  simp only [hq, List.length_nil, Config.fqCap]
  omega

/-- Settles O30: PIXEL is held or has a next state; where it is held, the read of the enabled chain finds room in
the empty queue and fills it. -/
theorem supplyHoldsPixel : Obligations.SupplyHoldsPixel := by
  refine fun s hu ht => ⟨⟨fun h => ?_, fun hp => whenEnabled_of_bar hu (pixelBar_of_held ht hp) _⟩,
    fun hinv ⟨_, _, hq, hd⟩ => ?_⟩
  · by_contra hp
    exact nomatch h.symm.trans (execPixel_next.mpr ⟨hu, ⟨ht, hp⟩, rfl⟩)
  · obtain ⟨t, e⟩ := Option.ne_none_iff_exists'.mp (hinv.dmaBody_ne_none hd)
    have hne := dmaBody_fq_ne_nil e
    exact ⟨t, execDmaRead_next.mpr ⟨hu, ⟨ht, hd, room_of_fq_nil hq⟩, e⟩, hne, fun ⟨_, _, hnil, _⟩ => hne hnil⟩

/-! ## The outcome of DMA_READ -/

/-- Settles O31: the read is made where it stays in the address space; an enabled chain then stays enabled unless
the line it ends is the last. -/
theorem dmaReadOutcome : Obligations.DmaReadOutcome := by
  refine fun s hu ht hd hq haddr => execDmaRead_next.mpr ⟨hu, ⟨ht, hd, hq⟩, dmaBody_some.mpr ⟨haddr, ?_⟩⟩
  have hlast : decide (s.dmaLine + 1 ≠ s.mode.va.toNat) = !(s.dmaLine + 1 == s.mode.va.toNat) := decide_not
  rw [dmaAdvance_eq, hlast]
  simp only [emit_dmaEn, drawn_dmaEn, pushRead_dmaEn, hd, Bool.true_and]
  rfl

end Sys2Proof.Machine
end

section
/-! SUPPORT. Settles the statements of spec/44_frame_boundary.md: SERVICE_ENTER in time and late (R73 to R76, R96),
EOI and REGISTER_CALLBACK (R77, R78), the count of frames (R75), the masked handler (R79), and the service window
(R110, R112). -/

namespace Sys2Proof.Machine

/-! ## EOI and REGISTER_CALLBACK -/

/-- Settles O21: both words by evaluation; wherever the host has a step, the effect is the one write. -/
theorem registerCallbackOutcome : Obligations.RegisterCallbackOutcome :=
  ⟨by decide, by decide, fun _ _ hc => (exec_hostOp_next rfl).mpr ⟨hc, rfl⟩⟩

/-- Settles O22: in service the return from the frame interrupt, whose flush request drops no store; else the
refusal. -/
theorem eoiOutcome : Obligations.EoiOutcome := by
  refine ⟨by decide, fun s hc => ⟨fun hs => ?_, fun hs => ?_⟩⟩
  · have he : hostEffect .eoi s = returnFromFrameInterrupt s := if_pos hs
    exact ⟨_, (exec_hostOp_next rfl).mpr ⟨hc, he.symm⟩, rfl, (sameStores_requestFlush s).candidates_eq⟩
  · exact hc.exec_refuses rfl (if_neg (Bool.eq_false_iff.mp hs))

/-! ## SERVICE_ENTER -/

/-- In an unmarked run the mark FAULT takes its reason and nothing else changes (R96). -/
theorem Unmarked.markFault_eq {s : State} (hu : Unmarked s) (m : FaultMark) :
    markFault m s = { s with fault := some m } := by
  obtain ⟨hf, -⟩ := hu
  simp [markFault, hf]

/-- Settles O36: inside the active lines the service is late. -/
theorem lateServiceFaults : Obligations.LateServiceFaults := by
  intro s hu hr hi hp hs h0 h1
  refine execServiceEnter_next.mpr ⟨hu, ⟨hr, hi, hp, hs⟩, .inl ⟨(vaActive_iff s).mpr ⟨h0, h1⟩, ?_⟩⟩
  exact (hu.markFault_eq _).symm

/-- Where the frame interrupt can be taken and an armed buffer's first read lies inside the address space, a service
gives a next state (R73; log 13). -/
theorem exists_service {s : State} (hun : Unmarked s)
    (hbar : s.runstate = .running ∧ s.irqEn = true ∧ s.fbPending = true ∧ s.inService = false)
    (hspace : s.armed = true → s.nextPtr.toNat + s.nextG.bytes ≤ 2 ^ 32) : ∃ t, exec .serviceEnter s = .next t :=
  (exists_execServiceEnter hun).mpr ⟨hbar, .inr ((exists_takeFrameInterrupt s).mpr hspace)⟩

/-- After the re-arm of an armed block the queue holds the first granule of the queued buffer, each byte one that
its address holds after the service (R28, R74). -/
theorem Rearmed.first_bytes {s u t : State} (hu : Rearmed s u) (ha : s.armed = true)
    (hstores : SameStores (settle s) t) (hq : t.fq = u.fq) :
    t.fq.length = s.nextG.bytes ∧ ∀ i, (hi : i < t.fq.length) →
      if Config.coherent = true then t.fq[i] = latestByte t (s.nextPtr.toNat + i)
      else t.fq[i] ∈ candidates t (s.nextPtr.toNat + i) := by
  obtain ⟨ha', -⟩ | ⟨-, -, rfl⟩ := hu
  · simp [ha] at ha'
  have hbytes : t.fq = memRead (settle s) s.nextPtr.toNat s.nextG.bytes := hq
  refine ⟨by rw [hbytes, memRead_length], fun i hi => ?_⟩
  have hbyte : t.fq[i] = readByte (settle s) (s.nextPtr.toNat + i) := by simp [hbytes, memRead]
  rw [hbyte, hstores.latestByte_eq, hstores.candidates_eq]
  exact readByte_candidate (settle s) _

/-- Settles O37: armed or not, with the callback or the flush request; the bytes of the first read are read after
the settling, and the rest of the service keeps the stores. -/
theorem serviceEnterOutcome : Obligations.ServiceEnterOutcome := by
  intro s hun hr hi hp hs hv hspace
  obtain ⟨t, h⟩ := exists_service hun ⟨hr, hi, hp, hs⟩ hspace
  have hstores := serviceInTime_sameStores h (vaActive_eq_false hv)
  obtain ⟨-, u, hu, ht⟩ := serviceInTime h (vaActive_eq_false hv)
  have hq : t.fq = u.fq := by obtain ⟨-, rfl⟩ | ⟨-, rfl⟩ := ht <;> rfl
  refine ⟨t, h, ?_, fun ha => hu.first_bytes ha hstores hq⟩
  have hlast : decide (1 ≠ s.mode.va.toNat) = !(1 == s.mode.va.toNat) := decide_not
  dsimp only
  rw [hlast]
  obtain ⟨ha, rfl⟩ | ⟨ha, -, rfl⟩ := hu
  · rw [if_neg (Bool.eq_false_iff.mp ha)]
    obtain ⟨hcb, rfl⟩ | ⟨hcb, rfl⟩ := ht
    · rw [if_pos hcb]
      rfl
    · rw [if_neg (Bool.eq_false_iff.mp hcb)]
      rfl
  · rw [if_pos ha]
    obtain ⟨hcb, rfl⟩ | ⟨hcb, rfl⟩ := ht
    · rw [if_pos hcb]
      rfl
    · rw [if_neg (Bool.eq_false_iff.mp hcb)]
      rfl

/-! ## The frame counter -/

/-- The re-arm counts no frame. -/
theorem Rearmed.framecount_eq {s u : State} (hu : Rearmed s u) : u.framecount = s.framecount := by
  obtain ⟨-, rfl⟩ | ⟨-, -, rfl⟩ := hu <;> rfl

/-- A service in time counts one frame (R75). -/
theorem serviceInTime_framecount {s t : State} (h : exec .serviceEnter s = .next t) (hv : vaActive s = false) :
    t.framecount = s.framecount + 1 := by
  obtain ⟨-, u, hu, ht⟩ := serviceInTime h hv
  rw [← hu.framecount_eq]
  obtain ⟨-, rfl⟩ | ⟨-, rfl⟩ := ht <;> rfl

/-- A late service marks the state it finds (R96; log 23). -/
theorem serviceLate {s t : State} (h : exec .serviceEnter s = .next t) (hv : vaActive s = true) :
    t = markFault .lateService s := by
  obtain ⟨-, -, ⟨-, e⟩ | ⟨hv', -⟩⟩ := execServiceEnter_next.mp h
  · exact e
  · exact absurd hv (Bool.eq_false_iff.mp hv')

/-- Of the host's moves, the programming of the timers alone writes the frame counter (R48). -/
theorem HostMove.framecount {s t : State} {i : Instr} (m : HostMove s i t) :
    t.framecount = s.framecount ∨ (t.framecount = 0 ∧ Configured s t) := by
  cases m with
  | program hr => exact .inr ⟨rfl, hr, rfl⟩
  | _ => exact .inl rfl

/-- Outside the frame service, FRAMECOUNT stays or is set to 0 by HW_RESET or a successful CONFIGURE (R75). -/
theorem exec_framecount {s : State} :
    ∀ i t, exec i s = .next t → i ≠ .serviceEnter →
      t.framecount = s.framecount ∨ (t.framecount = 0 ∧ (i = .hwReset ∨ Configured s t)) := by
  apply exec_moves
  case host => exact fun _ _ _ m _ _ => m.framecount.imp_right (And.imp_right .inr)
  case command => exact fun _ _ _ _ _ m _ _ _ => m.framecount.imp_right (And.imp_right .inr)
  case pixel => exact fun _ _ _ _ => .inl (pixelEffect_framecount s)
  case read =>
    intro _ _ _ _ t e _
    obtain ⟨-, rfl⟩ := dmaBody_some.mp e
    exact .inl (by simp)
  case late => exact fun _ _ _ _ _ _ h => absurd rfl h
  case service => exact fun _ _ _ _ _ _ _ _ => ⟨fun _ h => absurd rfl h, fun _ h => absurd rfl h⟩
  case release => exact fun _ _ _ _ _ => .inl rfl
  case reset => exact fun _ => .inr ⟨rfl, .inl rfl⟩

/-- Settles O44: the service in time counts, the late one only marks, and the others leave or reset the count. -/
theorem frameCounterCountsServices : Obligations.FrameCounterCountsServices := by
  refine fun i s t h => ⟨fun hi hv => ?_, fun hi hv => ?_, exec_framecount i t h⟩
  · subst hi
    rw [serviceInTime_framecount h hv]
    exact BitVec.toNat_add _ _
  · subst hi
    rw [serviceLate h hv]
    rfl

/-! ## The handler -/

/-- No move of the host invokes a callback. -/
theorem HostMove.callbacks {s t : State} {i : Instr} (m : HostMove s i t) {fc : Word}
    (h : Obs.callback fc ∈ t.obs) : Obs.callback fc ∈ s.obs := by
  cases m <;> simpa using h

/-- The callback is invoked by the frame service and by no other operation (R76). -/
theorem exec_callbacks {s : State} :
    ∀ i t, exec i s = .next t → i ≠ .serviceEnter → ∀ fc, Obs.callback fc ∈ t.obs → Obs.callback fc ∈ s.obs := by
  apply exec_moves
  case host => exact fun _ _ _ m _ _ _ => m.callbacks
  case command => exact fun _ _ _ _ _ m _ _ _ _ => m.callbacks
  case pixel => exact fun _ _ _ _ _ h => by simpa [pixelEffect_obs] using h
  case read => exact fun _ _ _ _ _ e _ _ h => by simpa [dmaBody_obs e] using h
  case late => exact fun _ _ _ _ _ _ h => absurd rfl h
  case service => exact fun _ _ _ _ _ _ _ _ => ⟨fun _ h => absurd rfl h, fun _ h => absurd rfl h⟩
  case release => exact fun _ _ _ _ _ _ h => h
  case reset => exact fun _ _ h => h

/-- Settles O48: in service no SERVICE_ENTER is enabled and with the timers on no CONFIGURE succeeds, which are all
that write the count, the current buffer or a callback, or end the service without EOI. -/
theorem handlerNotReentered : Obligations.HandlerNotReentered := by
  intro i s t ht hs h hi
  obtain ⟨-, hdoor, hflags⟩ := interruptFlagWriters
  have hne : i ≠ .serviceEnter := by
    rintro rfl
    exact hdoor s t hs h
  have hconf : ¬ Configured s t := fun ⟨hr, _⟩ => not_timersRun_of_unconfigured hr ht
  have hcur : (t.curPtr, t.curPitch, t.curG) = (s.curPtr, s.curPitch, s.curG) :=
    not_not.mp fun hn => hne ((bufferRegisterWriters i s t h hi).1 hn).1
  simp only [Prod.mk.injEq] at hcur
  obtain ⟨hptr, hpitch, -⟩ := hcur
  refine ⟨?_, hptr, hpitch, exec_callbacks i t h hne, ?_⟩
  · obtain hkept | ⟨-, hreset | hc⟩ := exec_framecount i t h hne
    · exact hkept
    · exact absurd hreset hi
    · exact absurd hc hconf
  · obtain ⟨-, -, -, -, -, hcleared, -⟩ := hflags i s t h hi
    cases hin : t.inService with
    | true => exact .inl rfl
    | false =>
      obtain he | he | hc := hcleared hs hin
      · exact .inr (.inl he)
      · exact .inr (.inr he)
      · exact absurd hc hconf

/-! ## The service window -/

/-- After the last active line comes line VA1, or line 0 where the frame ends with it (R62). -/
theorem nextLine_of_falls {m : ModeRegs} {l : Nat} (hl : m.va0 ≤ l ∧ l < m.va1)
    (hn : ¬ (m.va0 ≤ nextLine m l ∧ nextLine m l < m.va1)) : nextLine m l = m.va1 % m.vt := by
  have hvt : m.vt = m.va1 + m.vfp.toNat := rfl
  unfold nextLine at *
  split_ifs at * with hlast
  · rw [Nat.mod_eq_of_lt] <;> omega
  · rw [show m.va1 = m.vt by omega, Nat.mod_self]

/-- The PIXEL that raises FB_PENDING leaves the start of the line after the last active one (R62, R72). -/
theorem pixelEffect_eventPosition {s : State} (h0 : s.fbPending = false) (h1 : (pixelEffect s).fbPending = true) :
    ((pixelEffect s).vline, (pixelEffect s).hpos) = (s.mode.va1 % s.mode.vt, 0) := by
  have hend : frameEnds s := not_not.mp fun hn => by simp [(pixelEffect_noEvent hn).1, h0] at h1
  obtain ⟨hl, hn⟩ := (frameEnds_iff s).mp hend
  have hlast : ¬ s.hpos + 1 < s.mode.ht := not_lt.mpr hend.1
  rw [pixelEffect_vline, if_neg hlast] at hn
  rw [pixelEffect_vline, pixelEffect_hpos, if_neg hlast, if_neg hlast, nextLine_of_falls hl hn]

/-- `d` pixel periods after the event's position the scan is `d / HT` lines past line VA1 (R62). -/
theorem iterate_from_event {m : ModeRegs} (hh : 0 < m.ht) (hv : 0 < m.vt) (d : Nat) :
    ((nextPosition m)^[d] (m.va1 % m.vt, 0)).1 = (m.va1 + d / m.ht) % m.vt := by
  have hstart : (m.va1 % m.vt, 0) = (nextPosition m)^[m.va1 * m.ht] (0, 0) := by
    rw [iterate_nextPosition hh hv, positionOf, Nat.mul_div_cancel _ hh, Nat.mul_mod_left]
  rw [hstart, ← Function.iterate_add_apply, iterate_nextPosition hh hv, positionOf, Nat.add_mul_div_right _ _ hh,
    Nat.add_comm]

/-- Within a frame of the event, the scan is in the active lines exactly once B has passed (R110, R112). -/
theorem active_after_event_iff {m : ModeRegs} (hm : checkTiming m = true) {d : Nat} (hd : d < m.framePx) :
    (m.va0 ≤ ((nextPosition m)^[d] (m.va1 % m.vt, 0)).1 ∧ ((nextPosition m)^[d] (m.va1 % m.vt, 0)).1 < m.va1) ↔
      m.serviceWindow ≤ d := by
  obtain ⟨hh, hv⟩ := frame_pos_of_checkTiming hm
  have hlines : d / m.ht < m.vt := Nat.div_lt_of_lt_mul hd
  have hwindow : m.serviceWindow ≤ d ↔ m.vfp.toNat + m.va0 ≤ d / m.ht := by
    rw [Nat.le_div_iff_mul_le hh, ModeRegs.serviceWindow, ModeRegs.va0, Nat.add_assoc]
  have hvt : m.vt = m.va1 + m.vfp.toNat := rfl
  rw [iterate_from_event hh hv, hwindow]
  generalize d / m.ht = lines at hlines
  by_cases hblank : m.va1 + lines < m.vt
  · rw [Nat.mod_eq_of_lt hblank]
    omega
  · rw [Nat.mod_eq_sub_mod (not_lt.mp hblank), Nat.mod_eq_of_lt (by omega)]
    omega

/-- The re-arm sets no mark. -/
theorem Rearmed.fault_eq {s u : State} (hu : Rearmed s u) : u.fault = s.fault := by
  obtain ⟨-, rfl⟩ | ⟨-, -, rfl⟩ := hu <;> rfl

/-- A service sets FAULT exactly when it is late (R96). -/
theorem service_fault {s t : State} (h : exec .serviceEnter s = .next t) :
    t.fault = if vaActive s then some .lateService else none := by
  obtain ⟨hun, -⟩ := execServiceEnter_next.mp h
  cases hv : vaActive s with
  | true => rw [serviceLate h hv, hun.markFault_eq, if_pos rfl]
  | false =>
    obtain ⟨-, u, hu, ht⟩ := serviceInTime h hv
    have hnone : u.fault = none := hu.fault_eq.trans hun.1
    obtain ⟨-, rfl⟩ | ⟨-, rfl⟩ := ht <;> exact hnone

/-- Settles O60: PIXEL's position and the event's; the lines the scan reaches from there; and the service, which
is late exactly in the active lines. -/
theorem serviceWindowIsB : Obligations.ServiceWindowIsB := by
  refine ⟨fun s t h => ?_, fun m hm d => active_after_event_iff hm, ?_⟩
  · obtain ⟨-, -, rfl⟩ := execPixel_next.mp h
    exact ⟨pixelEffect_position s, pixelEffect_eventPosition⟩
  · intro s d hm hd hpos hun hr hi hp hs hspace
    obtain ⟨t, h⟩ := exists_service hun ⟨hr, hi, hp, hs⟩ hspace
    refine ⟨t, h, (service_fault h).trans ?_⟩
    have hlate : vaActive s = true ↔ s.mode.serviceWindow ≤ d := by
      rw [vaActive_iff, ← active_after_event_iff hm hd, ← hpos]
    by_cases hB : d < s.mode.serviceWindow
    · rw [if_pos hB, if_neg fun hv => not_lt.mpr (hlate.mp hv) hB]
    · rw [if_neg hB, if_pos (hlate.mpr (not_lt.mp hB))]

end Sys2Proof.Machine
end

section
/-! SUPPORT. Settles the statements of spec/45_stop_and_bus.md: STOP and NOP (R80, R81), the bus accesses WR and RD
(R82, R83, R85), and HW_RESET (R84). -/

namespace Sys2Proof.Machine

/-! ## STOP and NOP -/

/-- Settles O15: the word by evaluation; the effect is the state itself. -/
theorem nopChangesNothing : Obligations.NopChangesNothing :=
  ⟨by decide, fun _ hc => (exec_hostOp_next rfl).mpr ⟨hc, rfl⟩⟩

/-- Settles O20: the word by evaluation; the refusal in UNCONFIGURED, else the one write. -/
theorem stopOutcome : Obligations.StopOutcome := by
  refine ⟨by decide, fun s hc => ⟨fun hr => hc.exec_refuses rfl (if_pos hr), fun hr => ?_⟩⟩
  exact (exec_hostOp_next rfl).mpr ⟨hc, (if_neg hr).symm⟩

/-! ## The registers by number -/

/-- What the 21 registers read as, in the order of their numbers (R7). -/
def registerWords (s : State) : List Word :=
  [s.mode.ha.setWidth 32, s.mode.hfp.setWidth 32, s.mode.hs.setWidth 32, s.mode.hbp.setWidth 32,
    s.mode.va.setWidth 32, s.mode.vfp.setWidth 32, s.mode.vs.setWidth 32, s.mode.vbp.setWidth 32,
    s.mode.num.setWidth 32, s.mode.den.setWidth 32, s.mode.pol.setWidth 32, s.mode.bpp.setWidth 32,
    s.argPtr, s.argPitch, 0, status s, s.framecount, s.curPtr, s.curPitch, s.nextPtr, s.nextPitch]

theorem registerWords_length (s : State) : (registerWords s).length = 0x15 := rfl

/-- The register table is the list of its words; beyond its end no register exists (R7). -/
theorem readReg_eq_getElem? (s : State) (n : Nat) : readReg s n = (registerWords s)[n]? := by
  by_cases hn : n < 0x15
  · interval_cases n <;> rfl
  · rw [readReg_eq_none (not_lt.mp hn), List.getElem?_eq_none (not_lt.mp hn)]

/-- A word cut to `k` bits and zero-extended again is the word under a mask of its low `k` bits. -/
theorem setWidth_setWidth_eq_and (k : Nat) (v : Word) :
    (v.setWidth k).setWidth 32 = v &&& (BitVec.allOnes k).setWidth 32 := by
  ext i hi
  simp [Bool.and_comm, BitVec.getLsbD_eq_getElem hi]

/-- A write to a mode register puts the masked word at its place in the table and leaves the others (R82). -/
theorem registerWords_writeMode {n : Nat} (hn : n ≤ 0x0B) (v : Word) (s : State) :
    registerWords { s with mode := writeMode s.mode n v } = (registerWords s).set n (v &&& modeMask n) := by
  have h16 : v &&& 0xFFFF = (v.setWidth 16).setWidth 32 := (setWidth_setWidth_eq_and 16 v).symm
  have h2 : v &&& 0x3 = (v.setWidth 2).setWidth 32 := (setWidth_setWidth_eq_and 2 v).symm
  have h6 : v &&& 0x3F = (v.setWidth 6).setWidth 32 := (setWidth_setWidth_eq_and 6 v).symm
  simp only [modeMask, apply_ite (v &&& ·), h16, h2, h6]
  interval_cases n <;> rfl

theorem readReg_writeMode {n k : Nat} (hn : n ≤ 0x0B) (v : Word) (s : State) :
    readReg { s with mode := writeMode s.mode n v } k =
      if k = n then some (v &&& modeMask n) else readReg s k := by
  rw [readReg_eq_getElem?, readReg_eq_getElem?, registerWords_writeMode hn, List.getElem?_set, registerWords_length,
    if_pos (by omega : n < 0x15)]
  simp only [eq_comm]

/-! ## Bus reads -/

/-- A read of a register that exists observes its value and changes nothing else (R83). -/
theorem HostCanAct.exec_rd {s : State} (hc : HostCanAct s) {n : Nat} {v : Word} (hv : readReg s n = some v) :
    exec (.rd n) s = .next { s with obs := .readValue n v :: s.obs } := by
  refine (exec_hostOp_next rfl).mpr ⟨hc, ?_⟩
  change _ = rdEffect n s
  unfold rdEffect
  rw [hv]
  rfl

/-- Settles O24: the listed pairs are the register table, each word with its number; beyond it there is no register. -/
theorem rdOutcome : Obligations.RdOutcome := by
  refine fun s hc => ⟨fun p hp => ?_, fun n hn => hc.exec_refuses rfl (rdEffect_noSuchRegister hn s)⟩
  change p ∈ (registerWords s).zipIdx.map Prod.swap at hp
  obtain ⟨⟨v, n⟩, hmem, rfl⟩ := List.mem_map.mp hp
  exact hc.exec_rd ((readReg_eq_getElem? s n).trans (List.mem_zipIdx_iff_getElem?.mp hmem))

/-! ## Bus writes -/

/-- A write to a mode register depends on the run state alone (R82, R85). -/
theorem wrEffect_modeRegister {n : Nat} (hn : n ≤ 0x0B) (v : Word) (s : State) :
    wrEffect n v s = modeWriteEffect n v s := by
  unfold wrEffect
  rw [if_neg (by omega), if_pos hn]

theorem HostCanAct.exec_wr_mode {s : State} (hc : HostCanAct s) (hr : s.runstate = .unconfigured) {n : Nat}
    (hn : n ≤ 0x0B) (v : Word) : exec (.wr n v) s = .next { s with mode := writeMode s.mode n v } :=
  (exec_hostOp_next rfl).mpr ⟨hc, ((wrEffect_modeRegister hn v s).trans (if_pos hr)).symm⟩

/-- Once a mode is selected a write to one of its registers is refused (R85). -/
theorem HostCanAct.exec_wr_mode_refused {s : State} (hc : HostCanAct s) (hr : s.runstate ≠ .unconfigured) {n : Nat}
    (hn : n ≤ 0x0B) (v : Word) : exec (.wr n v) s = .next { s with refused := some .modeImmutable } :=
  hc.exec_refuses rfl ((wrEffect_modeRegister hn v s).trans (if_neg hr))

/-- STATUS and the registers after it are read-only (R7). -/
theorem wrEffect_readOnly {n : Nat} (h0 : 0x0F ≤ n) (h1 : n ≤ 0x14) (v : Word) (s : State) :
    wrEffect n v s = refuse .writeToReadOnly s := by
  interval_cases n <;> rfl

/-- Settles O23: the number selects a row of R7; a write to CMD is the command its word decodes to. -/
theorem wrOutcome : Obligations.WrOutcome := by
  refine fun s n v hc => ⟨fun hn => hc.exec_refuses rfl (wrEffect_noSuchRegister hn v s), fun hn hr => ?_,
    fun hn hr => hc.exec_wr_mode_refused hr hn v, ?_, ?_, ?_, ?_,
    fun h0 h1 => hc.exec_refuses rfl (wrEffect_readOnly h0 h1 v s)⟩
  · exact ⟨_, hc.exec_wr_mode hr hn v, fun _ _ => readReg_writeMode hn v s⟩
  · rintro rfl
    exact (exec_hostOp_next rfl).mpr ⟨hc, rfl⟩
  · rintro rfl
    exact (exec_hostOp_next rfl).mpr ⟨hc, rfl⟩
  · rintro rfl i hi
    exact busWriteToCmdIsCommand v i s hi
  · rintro rfl ⟨e, he⟩
    exact hc.exec_refuses rfl (hostEffect_wr_of_reject he s)

/-! ## The mode registers after CONFIGURE -/

/-- Of the host's moves, a bus write in UNCONFIGURED alone writes the mode registers (R85). -/
theorem HostMove.mode_eq {s t : State} {i : Instr} (m : HostMove s i t) (hr : s.runstate ≠ .unconfigured) :
    t.mode = s.mode := by
  cases m with
  | writeMode _ _ _ hu => exact absurd hu hr
  | _ => rfl

/-- The re-arm leaves the mode registers. -/
theorem Rearmed.mode_eq {s u : State} (hu : Rearmed s u) : u.mode = s.mode := by
  obtain ⟨-, rfl⟩ | ⟨-, -, rfl⟩ := hu <;> rfl

/-- Once a mode is selected HW_RESET alone writes the mode registers (R85). -/
theorem exec_mode {s : State} (hr : s.runstate ≠ .unconfigured) :
    ∀ i t, exec i s = .next t → i ≠ .hwReset → t.mode = s.mode := by
  apply exec_moves
  case host => exact fun _ _ _ m _ _ => m.mode_eq hr
  case command => exact fun _ _ _ _ _ m _ _ _ => m.mode_eq hr
  case pixel => exact fun _ _ _ _ => pixelEffect_mode s
  case read =>
    intro _ _ _ _ t e _
    obtain ⟨-, rfl⟩ := dmaBody_some.mp e
    simp
  case late => exact fun _ _ _ _ _ _ _ => rfl
  case service => exact fun _ _ _ _ _ _ _ hu => ⟨fun _ _ => hu.mode_eq, fun _ _ => hu.mode_eq⟩
  case release => exact fun _ _ _ _ _ => rfl
  case reset => exact fun h => absurd rfl h

/-- Settles O26: the moves of every agent; the refusal of the write; and the register table, which has a word for
every mode register. -/
theorem modeIsImmutable : Obligations.ModeIsImmutable := by
  refine ⟨fun i s t hr h hi => exec_mode hr i t h hi, fun s n v hc hr hn => hc.exec_wr_mode_refused hr hn v,
    fun s n hc hn => ?_⟩
  have hlt : n < (registerWords s).length := Nat.lt_of_le_of_lt hn (by decide : 0x0B < 0x15)
  have hread : readReg s n = some (registerWords s)[n] :=
    (readReg_eq_getElem? s n).trans (List.getElem?_eq_getElem hlt)
  exact ⟨_, hread, hc.exec_rd hread⟩

/-! ## HW_RESET -/

/-- After HW_RESET every register reads as it does right after reset (R22, R84). -/
theorem readReg_hwResetEffect (s : State) (n : Nat) : readReg (hwResetEffect s) n = readReg State.reset n := rfl

/-- Settles O40: every element of the block, and so every register and pin, has the value of the reset state; the
marks are those before. -/
theorem hwResetOutcome : Obligations.HwResetOutcome := by
  intro s
  obtain ⟨hregs, -⟩ := resetStateValues
  refine ⟨hwResetEffect s, rfl, fun n hn => (readReg_hwResetEffect s n).trans (hregs n hn), ?_⟩
  and_intros <;> rfl

end Sys2Proof.Machine
end

section
/-! SUPPORT. Settles the statements of spec/60_exceptions.md: what a mark and a Halt leave enabled (R88, R96 to R98),
where a Halt comes from (R88, R89), and who moves when the schedule is empty (R101, R104). -/

namespace Sys2Proof.Machine

/-! ## What bars an operation -/

/-- What keeps an operation from being enabled: its agent's bar for an autonomous step, the host's for the rest. -/
def operationBar (s : State) : Instr → Option NotEnabled
  | .pixel => agentBar s .pixel
  | .dmaRead => agentBar s .dmaRead
  | .serviceEnter => agentBar s .serviceEnter
  | .waitRelease => agentBar s .waitRelease
  | .hwReset => agentBar s .hwReset
  | _ => hostBar s

theorem operationBar_autoInstr (s : State) (a : AutoStep) : operationBar s (autoInstr a) = agentBar s a := by
  cases a <;> rfl

/-- A read past the address space is a fault, so it is no step that is not enabled (log 13). -/
theorem orPastAddressSpace_ne_notEnabled (o : Option State) (why : NotEnabled) :
    orPastAddressSpace o ≠ .refused (.notEnabled why) := by
  cases o <;> exact nofun

/-- Every operation but HW_RESET is an outcome under its one bar, and that outcome is never `notEnabled`. -/
theorem exec_eq_whenEnabled {i : Instr} (hi : i ≠ .hwReset) (s : State) :
    ∃ k, exec i s = whenEnabled (operationBar s i) s k ∧ ∀ why, k ≠ .refused (.notEnabled why) := by
  cases i with
  | dmaRead => exact ⟨_, rfl, orPastAddressSpace_ne_notEnabled _⟩
  | serviceEnter =>
    refine ⟨_, rfl, fun why => ?_⟩
    split
    · exact nofun
    · exact orPastAddressSpace_ne_notEnabled _ why
  | hwReset => exact absurd rfl hi
  | _ => exact ⟨_, rfl, nofun⟩

/-- Before a mark, `notEnabled` is answered exactly where the operation is barred (log 2). -/
theorem exec_notEnabled_iff {i : Instr} (hi : i ≠ .hwReset) {s : State} (hu : Unmarked s) :
    (∃ why, exec i s = .refused (.notEnabled why)) ↔ operationBar s i ≠ none := by
  obtain ⟨k, e, hk⟩ := exec_eq_whenEnabled hi s
  rw [e]
  cases hb : operationBar s i with
  | none =>
    refine iff_of_false (fun ⟨why, h⟩ => hk why ?_) (not_not.mpr rfl)
    rwa [whenEnabled, unlessEnded_of_unmarked hu] at h
  | some why => exact iff_of_true ⟨why, whenEnabled_of_bar hu rfl k⟩ nofun

/-! ## After a mark -/

theorem unlessEnded_of_fault {s : State} {m : FaultMark} (h : s.fault = some m)
    (k : Host.Outcome State Fault Refusal) : unlessEnded s k = .fault (.runEnded m) := by
  unfold unlessEnded
  rw [h]

theorem unlessEnded_of_refused {s : State} {r : RefuseReason} (hf : s.fault = none) (hr : s.refused = some r)
    (k : Host.Outcome State Fault Refusal) : unlessEnded s k = .refused (.runEnded r) := by
  unfold unlessEnded
  rw [hf, hr]

/-- Settles O12: the marks are asked before what bars the operation. -/
theorem markEndsRun : Obligations.MarkEndsRun := by
  intro s i hi
  obtain ⟨k, e, -⟩ := exec_eq_whenEnabled hi s
  rw [e]
  exact ⟨fun m hm => unlessEnded_of_fault hm _, fun r hf hr => unlessEnded_of_refused hf hr _⟩

/-! ## HALTED -/

/-- An agent of the block moves only while the timers run (R52, R86). -/
theorem timersRun_of_agentBar_none {s : State} {a : AutoStep} (ha : a ≠ .hwReset) (h : agentBar s a = none) :
    TimersRun s := by
  cases a with
  | pixel => exact (pixelBar_none.mp h).1
  | dmaRead => exact (dmaBar_none.mp h).1
  | serviceEnter => exact .inl (serviceBar_none.mp h).1
  | waitRelease => exact (releaseBar_none.mp h).1
  | hwReset => exact absurd rfl ha

theorem not_timersRun_of_halted {s : State} (hr : s.runstate = .halted) : ¬ TimersRun s := by
  simp [TimersRun, hr]

/-- The halt bars every operation but HW_RESET (R88). -/
theorem operationBar_of_halted {s : State} (hr : s.runstate = .halted) {i : Instr} (hi : i ≠ .hwReset) :
    operationBar s i ≠ none := by
  have hagent : ∀ a : AutoStep, a ≠ .hwReset → agentBar s a ≠ none := fun a ha h =>
    not_timersRun_of_halted hr (timersRun_of_agentBar_none ha h)
  cases i with
  | pixel => exact hagent .pixel nofun
  | dmaRead => exact hagent .dmaRead nofun
  | serviceEnter => exact hagent .serviceEnter nofun
  | waitRelease => exact hagent .waitRelease nofun
  | hwReset => exact absurd rfl hi
  | _ => exact fun h => (hostBar_none.mp h).1 hr

/-- Settles O11: the halt bars every operation, and HW_RESET asks nothing. -/
theorem haltedAllowsOnlyReset : Obligations.HaltedAllowsOnlyReset := fun s hu hr =>
  ⟨fun _ hi => (exec_notEnabled_iff hi hu).mpr (operationBar_of_halted hr hi), hwResetEffect s, rfl, rfl⟩

/-! ## Where a Halt comes from -/

/-- R89 gives every cause but NONE one of the codes 1 to 5. -/
theorem haltCode_mem {c : HaltCause} (h : c ≠ .none) : haltCode c ∈ [1, 2, 3, 4, 5] := by
  cases c with
  | none => exact absurd rfl h
  | _ => decide

/-- A CONFIGURE that leaves UNCONFIGURED for HALTED raises the Halt of a mode error or of the handshake, which may
have made a draw (R46, R47). -/
theorem configureEffect_halted {s : State} (hr : s.runstate = .unconfigured)
    (h : (configureEffect s).runstate = .halted) :
    ∃ c u, c ≠ .none ∧ u.obs = s.obs ∧ configureEffect s = raiseHalt c u := by
  obtain ⟨hn, -⟩ | ⟨-, c, hc, e⟩ | ⟨-, -, e⟩ | ⟨-, -, e⟩ := configureEffect_cases s
  · exact absurd hr hn
  · exact ⟨c, s, modeError_ne_none hc, rfl, e⟩
  · exact ⟨.resetAck, drawn s, nofun, rfl, e⟩
  · rw [e] at h
    cases h

/-- Settles O50: among the transitions of R11 CONFIGURE's alone reaches HALTED, and its word written to CMD has the
same effect. -/
theorem onlyConfigureHalts : Obligations.OnlyConfigureHalts := by
  intro i s t h hs ht
  have hi : i ≠ .hwReset := by
    rintro rfl
    cases h
    cases ht
  obtain e | ⟨hr, -, hspelled⟩ | ⟨-, hstopped, -⟩ := runStateTransitions i s t h hi
  · exact absurd (e.symm.trans ht) hs
  · have hconfigure : exec .configure s = .next t := by
      obtain rfl | rfl := hspelled
      · exact h
      · rwa [busWriteToCmdIsCommand 1 .configure s rfl] at h
    obtain ⟨-, rfl⟩ := (exec_hostOp_next rfl).mp hconfigure
    obtain ⟨c, u, hc, hobs, e⟩ := configureEffect_halted hr ht
    have ht : hostEffect .configure s = raiseHalt c u := e
    rw [ht]
    exact ⟨hspelled, hr, congrArg (Obs.halt c :: ·) hobs, haltCode_mem hc, rfl, rfl, rfl⟩
  · exact nomatch hstopped.symm.trans ht

/-! ## An empty schedule -/

theorem mem_enabledAgents {s : State} {a : AutoStep} :
    a ∈ enabledAgents s ↔ a ∈ agents ∧ agentBar s a = none := by
  simp [enabledAgents]

theorem ne_hwReset_of_mem_agents {a : AutoStep} (h : a ∈ agents) : a ≠ .hwReset := by
  rintro rfl
  exact absurd h (by decide)

theorem autoInstr_ne_hwReset {a : AutoStep} (h : a ∈ agents) : autoInstr a ≠ .hwReset := by
  cases a with
  | hwReset => exact absurd rfl (ne_hwReset_of_mem_agents h)
  | _ => exact nofun

/-- An agent has a step in an unmarked state exactly where it is among the enabled agents. -/
theorem exec_agent_notEnabled_iff {s : State} (hu : Unmarked s) {a : AutoStep} (ha : a ∈ agents) :
    (∃ why, exec (autoInstr a) s = .refused (.notEnabled why)) ↔ a ∉ enabledAgents s := by
  rw [exec_notEnabled_iff (autoInstr_ne_hwReset ha) hu, operationBar_autoInstr, mem_enabledAgents]
  simp [ha]

/-- With an empty schedule nothing happens where no agent is enabled, and else an enabled agent moves (R101; log 3). -/
theorem step_of_empty_schedule {s : State} (hu : Unmarked s) (hs : s.schedule = []) :
    (enabledAgents s = [] ∧ step s = .next s) ∨ ∃ a ∈ enabledAgents s, step s = exec (autoInstr a) (drawn s) := by
  unfold step nextStep
  rw [hs]
  dsimp only
  unfold freeStep
  rw [unlessEnded_of_unmarked hu]
  cases enabledAgents s with
  | nil => exact .inl ⟨rfl, rfl⟩
  | cons a rest =>
    refine .inr ⟨_, ?_, rfl⟩
    rw [List.getD_eq_getElem _ _ (Nat.mod_lt _ (by simp))]
    exact List.getElem_mem _

/-- In UNCONFIGURED no agent of the block is enabled (R86, R104). -/
theorem enabledAgents_of_unconfigured {s : State} (hr : s.runstate = .unconfigured) : enabledAgents s = [] := by
  refine List.eq_nil_iff_forall_not_mem.mpr fun a h => ?_
  obtain ⟨ha, hb⟩ := mem_enabledAgents.mp h
  exact not_timersRun_of_unconfigured hr (timersRun_of_agentBar_none (ne_hwReset_of_mem_agents ha) hb)

/-- The block idles in UNCONFIGURED until the host acts (R104). -/
theorem step_of_unconfigured {s : State} (hu : Unmarked s) (hr : s.runstate = .unconfigured)
    (hs : s.schedule = []) : step s = .next s := by
  obtain ⟨-, e⟩ | ⟨a, ha, -⟩ := step_of_empty_schedule hu hs
  · exact e
  · simp [enabledAgents_of_unconfigured hr] at ha

/-- Settles O8: the chosen agent is one of the enabled ones, and there is none in UNCONFIGURED, where reset leaves
the block. -/
theorem emptyScheduleStep : Obligations.EmptyScheduleStep := by
  refine ⟨fun s hu hs => ?_, fun s => step_of_unconfigured, step_of_unconfigured ⟨rfl, rfl⟩ rfl rfl⟩
  obtain ⟨hnone, e⟩ | ⟨a, ha, e⟩ := step_of_empty_schedule hu hs
  · exact .inl ⟨e, fun a ha => (exec_agent_notEnabled_iff hu ha).mpr (by simp [hnone])⟩
  · obtain ⟨hagent, -⟩ := mem_enabledAgents.mp ha
    exact .inr ⟨a, hagent, e, fun why h => (exec_agent_notEnabled_iff hu hagent).mp ⟨why, h⟩ ha⟩

end Sys2Proof.Machine
end
